-- ==== Sys2Proof/Word.lean ====
section
/-! DEFINITION. The two word types of the hardware (00_scope.md rule R12): a byte is an integer in [0,255], a word a
32-bit unsigned integer. Counts, lengths, addresses under comparison and address sums are plain `Nat` (R12: sums are
computed without wrap-around and then compared). -/

namespace Sys2Proof

/-- A 32-bit register value (R12). -/
abbrev Word := BitVec 32

/-- A byte, which is also a field element (R12, R90). -/
abbrev Byte := BitVec 8

end Sys2Proof
end

