-- ==== Sys2Proof/Machine/FieldDef.lean ====
section
/-! DEFINITION. The field GF(2)[x]/(FIELD_POLY) as 10_state.md rule R32 defines it for the contents of the table ROMs:
carry-less multiplication and reduction. The engine never computes this way (it looks tables up, R95); the tables are
specified by it, and 40_field_arithmetic.md rule R97 compares the engine's product with it. -/

namespace Sys2Proof.Machine

/-- The carry-less product of two bytes read as polynomials over GF(2), bit i being the coefficient of x^i (R32). -/
def clmul (a b : Byte) : BitVec 16 :=
  (List.range 8).foldl
    (fun acc i => if b.getLsbD i then acc ^^^ (a.setWidth 16 <<< i) else acc) 0

/-- The remainder of a polynomial of degree at most 15 modulo a polynomial of degree 8 (R32): the terms x^15 down to x^8
are cancelled one after another. -/
def polyReduce (p : BitVec 9) (v : BitVec 16) : Byte :=
  ([15, 14, 13, 12, 11, 10, 9, 8].foldl
    (fun v i => if v.getLsbD i then v ^^^ (p.setWidth 16 <<< (i - 8)) else v) v).setWidth 8

/-- Multiplication in the field F of R32. -/
def fieldProd (p : BitVec 9) (a b : Byte) : Byte :=
  polyReduce p (clmul a b)

/-- The power `g^i` in F (R32). -/
def fieldPow (p : BitVec 9) (g : Byte) : Nat → Byte
  | 0 => 1
  | n + 1 => fieldProd p (fieldPow p g n) g

/-- The remainder of a polynomial of degree at most 8 modulo one of degree `d` (1 to 4), used to test for factors. -/
def polyRem (d : Nat) (q v : BitVec 9) : BitVec 9 :=
  ([8, 7, 6, 5, 4, 3, 2, 1].foldl
    (fun v i => if d ≤ i && v.getLsbD i then v ^^^ (q <<< (i - d)) else v) v)

/-- The polynomials of degree `d` over GF(2), as bit patterns. -/
def polysOfDegree (d : Nat) : List (BitVec 9) :=
  (List.range (2 ^ d)).map fun k => BitVec.ofNat 9 (2 ^ d + k)

/-- FIELD_POLY has degree 8 and is irreducible over GF(2) (00_scope.md rule R10): no polynomial of degree 1 to 4
divides it, and a factorisation of a polynomial of degree 8 has a factor of degree at most 4. -/
def irreducible8 (p : BitVec 9) : Bool :=
  p.getLsbD 8 &&
    [1, 2, 3, 4].all fun d => (polysOfDegree d).all fun q => polyRem d q p != 0

/-- FIELD_GEN is primitive (R10): every nonzero byte is one of its powers `g^0 .. g^254`. -/
def primitiveIn (p : BitVec 9) (g : Byte) : Bool :=
  let powers := (List.range 255).map (fieldPow p g)
  (List.range 255).all fun k => powers.contains (BitVec.ofNat 8 (k + 1))

end Sys2Proof.Machine
end

