-- ==== Sys2Proof/Syntax.lean ====
section
/-! DEFINITION. The command set: one constructor per row of the opcode map (30_encoding.md rule R74). A command carries
no operand but its flag (R78): operands stand in the argument registers. -/

namespace Sys2Proof

/-- The eleven commands (R74). `share` carries the flag NOID (identifier absent), `reconstruct` the flag LEN (lenient
mode); in every other command both flag bits are reserved (R72, R73), so they are no fields there. -/
inductive Instr where
  /-- GFADD, R91. -/
  | gfadd
  /-- GFSUB, R92. -/
  | gfsub
  /-- GFMUL, R93. -/
  | gfmul
  /-- GFDIV, R94. -/
  | gfdiv
  /-- PEVAL, R112. -/
  | peval
  /-- GENERATE, R127. -/
  | generate
  /-- HDRENC, R139. -/
  | hdrenc
  /-- HDRDEC, R141. -/
  | hdrdec
  /-- SHARE, R158. -/
  | share (noid : Bool)
  /-- LINTERP, R167. -/
  | linterp
  /-- RECONSTRUCT, R201. -/
  | reconstruct (lenient : Bool)
  deriving DecidableEq, Repr

end Sys2Proof
end

