-- ==== Sys2Proof/WellFormed.lean ====
section
/-! DEFINITION. Well-formedness of instructions and of the open parameters. -/

namespace Sys2Proof

/-- Every term of `Instr` is well-formed: a command has no operand field but one flag bit, and both values of a flag are
legal where the flag is a field (30_encoding.md rules R70, R72); the thirteen terms are the thirteen legal command words
(R74). What can be ill-formed is the command WORD, and `decode` rejects that (R73, R75). -/
def Instr.wf : Instr → Bool
  | .gfadd => true
  | .gfsub => true
  | .gfmul => true
  | .gfdiv => true
  | .peval => true
  | .generate => true
  | .hdrenc => true
  | .hdrdec => true
  | .share _ => true
  | .linterp => true
  | .reconstruct _ => true

/-- BUF_BYTES is in the range 00_scope.md rule R9 gives. -/
def Config.bufBytesOk (n : Nat) : Bool :=
  decide (1 ≤ n) && decide (n ≤ 2 ^ 32)

/-- The pair FIELD_POLY, FIELD_GEN meets the two constraints of 00_scope.md rule R10, and no others. -/
def Config.fieldOk (p : BitVec 9) (g : Byte) : Bool :=
  Machine.irreducible8 p && Machine.primitiveIn p g

end Sys2Proof
end

