-- ==== Sys2Proof/Decode.lean ====
section
/-! DEFINITION. Command words (30_encoding.md rules R70 to R76): the fields, the decoder, total on any word and rejecting
by name, the encoder, and the opcode map as rows of mask and match. -/

namespace Sys2Proof

/-- Why a command word is illegal (R75). -/
inductive DecodeError where
  /-- A bit of the reserved field 31:10 is set (R73). -/
  | zeroFieldSet
  /-- OP is 0x00 or in 0x0C .. 0xFF (R71, R75). -/
  | opUnassigned (op : Nat)
  /-- Bit 8 is set and OP is not RECONSTRUCT's (R73). -/
  | lenReserved
  /-- Bit 9 is set and OP is not SHARE's (R73). -/
  | noidReserved
  deriving DecidableEq, Repr

/-- CMD[7:0], the operation code (R70). -/
def opField (w : Word) : Nat := (w.extractLsb' 0 8).toNat

/-- CMD[8], LEN (R70). -/
def lenField (w : Word) : Bool := w.getLsbD 8

/-- CMD[9], NOID (R70). -/
def noidField (w : Word) : Bool := w.getLsbD 9

/-- CMD[31:10], reserved (R70). -/
def zeroField (w : Word) : BitVec 22 := w.extractLsb' 10 22

/-- A command of which neither flag is a field: both bits must be 0 (R72, R73). -/
def decodePlain (w : Word) (i : Instr) : Except DecodeError Instr :=
  if lenField w then .error .lenReserved
  else if noidField w then .error .noidReserved
  else .ok i

/-- SHARE: bit 9 is its flag, bit 8 is reserved (R72, R73). -/
def decodeShare (w : Word) : Except DecodeError Instr :=
  if lenField w then .error .lenReserved else .ok (.share (noidField w))

/-- RECONSTRUCT: bit 8 is its flag, bit 9 is reserved (R72, R73). -/
def decodeReconstruct (w : Word) : Except DecodeError Instr :=
  if noidField w then .error .noidReserved else .ok (.reconstruct (lenField w))

/-- The decoder: the row of R74 a word selects, or the reason why it is illegal (R75). -/
def decode (w : Word) : Except DecodeError Instr :=
  if zeroField w = 0 then
    match opField w with
    | 0x01 => decodePlain w .gfadd
    | 0x02 => decodePlain w .gfsub
    | 0x03 => decodePlain w .gfmul
    | 0x04 => decodePlain w .gfdiv
    | 0x05 => decodePlain w .peval
    | 0x06 => decodePlain w .generate
    | 0x07 => decodePlain w .hdrenc
    | 0x08 => decodePlain w .hdrdec
    | 0x09 => decodeShare w
    | 0x0A => decodePlain w .linterp
    | 0x0B => decodeReconstruct w
    | op => .error (.opUnassigned op)
  else .error .zeroFieldSet

/-- A command word from its fields (R70). -/
def packWord (op : Byte) (len noid : Bool) : Word :=
  (0#22 ++ BitVec.ofBool noid ++ BitVec.ofBool len ++ op)

/-- The command word of an instruction (R74). -/
def encode : Instr → Word
  | .gfadd => packWord 0x01 false false
  | .gfsub => packWord 0x02 false false
  | .gfmul => packWord 0x03 false false
  | .gfdiv => packWord 0x04 false false
  | .peval => packWord 0x05 false false
  | .generate => packWord 0x06 false false
  | .hdrenc => packWord 0x07 false false
  | .hdrdec => packWord 0x08 false false
  | .share noid => packWord 0x09 false noid
  | .linterp => packWord 0x0A false false
  | .reconstruct lenient => packWord 0x0B lenient false

/-- One row of the opcode map: a word `w` selects it when `w and mask = pattern` (R74). -/
structure OpcodeRow where
  mnemonic : String
  pattern : Word
  mask : Word
  deriving DecidableEq, Repr

/-- The row is selected by the word (R74). -/
def OpcodeRow.selects (r : OpcodeRow) (w : Word) : Bool :=
  w &&& r.mask == r.pattern

/-- The complete opcode map (R74). -/
def opcodeMap : List OpcodeRow :=
  [⟨"GFADD", 0x00000001, 0xFFFFFFFF⟩, ⟨"GFSUB", 0x00000002, 0xFFFFFFFF⟩,
   ⟨"GFMUL", 0x00000003, 0xFFFFFFFF⟩, ⟨"GFDIV", 0x00000004, 0xFFFFFFFF⟩,
   ⟨"PEVAL", 0x00000005, 0xFFFFFFFF⟩, ⟨"GENERATE", 0x00000006, 0xFFFFFFFF⟩,
   ⟨"HDRENC", 0x00000007, 0xFFFFFFFF⟩, ⟨"HDRDEC", 0x00000008, 0xFFFFFFFF⟩,
   ⟨"SHARE", 0x00000009, 0xFFFFFDFF⟩, ⟨"LINTERP", 0x0000000A, 0xFFFFFFFF⟩,
   ⟨"RECONSTRUCT", 0x0000000B, 0xFFFFFEFF⟩]

/-- The mnemonic of an instruction in the opcode map (R74). -/
def Instr.mnemonic : Instr → String
  | .gfadd => "GFADD"
  | .gfsub => "GFSUB"
  | .gfmul => "GFMUL"
  | .gfdiv => "GFDIV"
  | .peval => "PEVAL"
  | .generate => "GENERATE"
  | .hdrenc => "HDRENC"
  | .hdrdec => "HDRDEC"
  | .share _ => "SHARE"
  | .linterp => "LINTERP"
  | .reconstruct _ => "RECONSTRUCT"

/-- The command word the table's bit numbering gives: a command is one 32-bit word (R70), so the bits above `nbits` are 0
and a number of more than 32 bits is no command word. -/
def tableWord (nbits w : Nat) : Option Word :=
  if w % 2 ^ nbits < 2 ^ 32 then some (BitVec.ofNat 32 (w % 2 ^ nbits)) else none

/-- The instruction the decoder reads from a word numbered as spec/opcode_table.json numbers it. -/
def decodeTableWord (nbits w : Nat) : Option Instr :=
  (tableWord nbits w).bind fun c => (decode c).toOption

end Sys2Proof
end

