-- ==== Sys2Proof/Machine/State.lean ====
section
/-! DEFINITION. The complete state of one TSS-CORE instance (10_state.md rule R20) and its reset value (R40 to R42),
the error conditions (60_exceptions.md rule R211), the host's accesses, and the reasons a step can stop. -/

namespace Sys2Proof.Machine

/-- The error conditions an operation can raise (60_exceptions.md rule R211). An error is no stop: the command completes
with the condition's code in STATUS.ECODE (R222). -/
inductive OpError where
  | invalidParameters
  | unsupportedHashAlgorithm
  | malformedHeader
  | malformedShare
  | inconsistentHeaders
  | insufficientShares
  | duplicateIndex
  | hashMismatch
  | reconstructionFailed
  | divisionByZero
  | invalidIndex
  | illegalCommand
  | badOperand
  | badAddress
  | rngFailure
  deriving DecidableEq, Repr

/-- The reasons a step stops because an address does not exist. No command ever ends so. -/
inductive Fault where
  /-- A host BUF access at an address of BUF_BYTES or above (20_memory.md rule R52, U6: refused, no meaning).
  Raised by the host's BUF port. Safe: the model stops where the spec gives no meaning. -/
  | hostBufAddress (addr : Nat)
  /-- A host register access at an offset of 0x40 or above, which is not part of the block (10_state.md rule R28, U5).
  Raised by the host's register port. Safe: the model stops where the spec gives no meaning. -/
  | windowOffset (offset : Nat)
  deriving DecidableEq, Repr

/-- The reasons a step has no meaning. No command ever ends so. -/
inductive Refusal where
  /-- An instruction without a meaning: none is left, no step answers this. Safe. -/
  | notModelled (mnemonic : String)
  /-- A host register access that is not exactly 32 bits wide or not 4-byte aligned (10_state.md rule R28, U5: refused, a
  model must not give it a meaning). Raised by the host's register port. Safe: the model stops where the spec does. -/
  | registerAccessShape (offset width : Nat)
  deriving DecidableEq, Repr

/-- The buffer memory BUF (10_state.md rule R29): `size` is BUF_BYTES; `cells` lists the bytes written since reset, in
ascending address order; an address not listed holds the free value of the current `epoch` (the number of resets that left
BUF unspecified, R41). -/
structure Memory where
  size : Nat
  epoch : Nat
  cells : List Host.Cell
  deriving DecidableEq, Repr

/-- The two table ROMs (10_state.md rule R31), 256 bytes each. -/
structure Rom where
  exp : Vector Byte 256
  log : Vector Byte 256
  deriving DecidableEq, Repr

/-- The port to the random source (42_share_generator.md rule R123): `inputs` holds answers fixed in advance, the next one
first (`none` is failure); after them the answers are free. `draws` counts the requests made. -/
structure Rng where
  inputs : List (Option Byte)
  draws : Nat
  deriving DecidableEq, Repr

/-- One thing the host side does to the block (10_state.md rules R21, R27, R28; 20_memory.md rule R52; 70_reset_and_hazards.md
rule R242). A register access carries its byte offset in the window and its width in bytes. -/
inductive HostAccess where
  | regRead (offset width : Nat)
  | regWrite (offset width : Nat) (value : Word)
  | bufRead (addr : Nat)
  | bufWrite (addr : Nat) (value : Byte)
  | reset
  deriving DecidableEq, Repr

/-- A host access in the total order of events (20_memory.md rule R60). `early` says that, if a command is running when the
access is next and the access is one that is not held, it comes before that command's completion. -/
structure HostEvent where
  access : HostAccess
  early : Bool
  deriving DecidableEq, Repr

/-- What a completed host read returned. -/
inductive HostReply where
  | word (value : Word)
  | byte (value : Byte)
  deriving DecidableEq, Repr

/-- The state: the registers and memories of 10_state.md rule R20, and the model's own fields (INVENTORY.md): the digest
unit (a parameter), the random source's port, the host's pending accesses and the values its reads returned. -/
structure State where
  /-- CMD, the last accepted command word (R22). -/
  cmd : Word
  /-- STATUS.BUSY (R23). -/
  busy : Bool
  /-- STATUS.DONE (R23). -/
  done : Bool
  /-- STATUS.ECODE (R23). -/
  ecode : Byte
  /-- ARG0 .. ARG7 (R25). -/
  args : Vector Word 8
  /-- RES0 .. RES3 (R26). -/
  res : Vector Word 4
  /-- BUF (R29). -/
  buf : Memory
  /-- EXP and LOG (R31). -/
  rom : Rom
  /-- The digest function the instance was built with (00_scope.md rule R11; a parameter, no step changes it). -/
  digestUnit : DigestUnit
  /-- The random source's port (42_share_generator.md rule R123). -/
  rng : Rng
  /-- The host accesses still to come, in the order in which they take effect (20_memory.md rule R60). -/
  host : List HostEvent
  /-- The values the host's reads returned, the oldest first. -/
  replies : List HostReply
  deriving DecidableEq, Repr

/-- The machine right after reset (10_state.md rules R40 to R42): every register 0, the engine idle, BUF unspecified, the
tables as they always are, no host access pending. -/
def State.reset : State where
  cmd := 0
  busy := false
  done := false
  ecode := 0
  args := Vector.replicate 8 0
  res := Vector.replicate 4 0
  buf := ⟨Config.bufBytes, 0, []⟩
  rom := ⟨Config.defaultExp, Config.defaultLog⟩
  digestUnit := .fips180
  rng := ⟨[], 0⟩
  host := []
  replies := []

end Sys2Proof.Machine
end

