-- ==== Sys2Proof/Machine/Flags.lean ====
section
/-! DEFINITION. STATUS (10_state.md rule R23) and the outcome codes (60_exceptions.md rule R211). There are no condition
codes (10_state.md rule R37): the outcome code is the only thing an operation leaves in the status. -/

namespace Sys2Proof.Machine

/-- The outcome code of success (R211). -/
def okCode : Byte := 0x00

/-- The outcome code of an error condition (R211). -/
def OpError.code : OpError → Byte
  | .invalidParameters => 0x01
  | .unsupportedHashAlgorithm => 0x02
  | .malformedHeader => 0x03
  | .malformedShare => 0x04
  | .inconsistentHeaders => 0x05
  | .insufficientShares => 0x06
  | .duplicateIndex => 0x07
  | .hashMismatch => 0x08
  | .reconstructionFailed => 0x09
  | .divisionByZero => 0x0A
  | .invalidIndex => 0x0B
  | .illegalCommand => 0x10
  | .badOperand => 0x11
  | .badAddress => 0x12
  | .rngFailure => 0x13

/-- The error conditions, in the order of R211. -/
def OpError.all : List OpError :=
  [.invalidParameters, .unsupportedHashAlgorithm, .malformedHeader, .malformedShare, .inconsistentHeaders,
   .insufficientShares, .duplicateIndex, .hashMismatch, .reconstructionFailed, .divisionByZero, .invalidIndex,
   .illegalCommand, .badOperand, .badAddress, .rngFailure]

/-- The values ECODE takes at a completion; every other value is never produced (R211). -/
def legalCodes : List Byte :=
  okCode :: OpError.all.map OpError.code

/-- A STATUS word from its fields: BUSY bit 0, DONE bit 1, ECODE bits 15:8, every other bit 0 (R23). -/
def packStatus (busy done : Bool) (ecode : Byte) : Word :=
  0#16 ++ ecode ++ 0#6 ++ BitVec.ofBool done ++ BitVec.ofBool busy

/-- What the host reads at STATUS (R21, R23). -/
def State.statusWord (s : State) : Word :=
  packStatus s.busy s.done s.ecode

end Sys2Proof.Machine
end

