-- ==== Sys2Proof/Machine/Operands.lean ====
section
/-! DEFINITION. Operands (30_encoding.md rules R77, R78): every operand is the value of an argument register, read as one
of four types. -/

namespace Sys2Proof.Machine

/-- A check of an operation: it raises `e` unless `p` holds (00_scope.md rules R13, R15). -/
def require (p : Prop) [Decidable p] (e : OpError) : Except OpError Unit :=
  if p then .ok () else .error e

/-- ARG[k] as a word (00_scope.md rule R13). -/
def State.arg (s : State) (k : Fin 8) : Word := s.args[k]

/-- An operand of type `word` or `addr`: any 32-bit value, as an unsigned integer (R78). -/
def wordOperand (s : State) (k : Fin 8) : Nat := (s.arg k).toNat

/-- An operand of type `byte`: at most 0xFF, else BadOperand; never truncated (R78, R213). -/
def byteOperand (s : State) (k : Fin 8) : Except OpError Byte :=
  if wordOperand s k ≤ 0xFF then .ok ((s.arg k).setWidth 8) else .error .badOperand

/-- An operand of type `half`: at most 0xFFFF, else BadOperand; never truncated (R78, R213). -/
def halfOperand (s : State) (k : Fin 8) : Except OpError Nat :=
  if wordOperand s k ≤ 0xFFFF then .ok (wordOperand s k) else .error .badOperand

end Sys2Proof.Machine
end

