-- ==== Sys2Proof/Machine/Ops.lean ====
section
/-! DEFINITION. The named operations every meaning is built from: BUF (20_memory.md rules R50 to R58, R66), the random
source's port (42_share_generator.md rule R123), acceptance and completion of a command (10_state.md rules R22, R24),
and the end of a command by an error (60_exceptions.md rule R222). -/

namespace Sys2Proof.Machine

/-! ## BUF -/

/-- `Region(addr, n)`: the sum is taken in unbounded integers (R55). -/
abbrev Memory.region (m : Memory) (addr n : Nat) : Prop := addr + n ≤ m.size

/-- The byte written last at an address since reset, if any. -/
def Memory.written (m : Memory) (addr : Nat) : Option Byte := m.cells.lookup addr

/-- BUF[addr]: the byte written last, or the unspecified byte the address holds since reset (R29, R41). -/
def Memory.read (m : Memory) (addr : Nat) : Byte :=
  (m.written addr).getD (Config.launchByte m.epoch addr)

/-- Insert a cell into a list in ascending address order, in place of an earlier cell of that address. -/
def insertCell (addr : Nat) (b : Byte) : List Host.Cell → List Host.Cell
  | [] => [(addr, b)]
  | c :: rest =>
    if addr < c.1 then (addr, b) :: c :: rest
    else if addr = c.1 then (addr, b) :: rest
    else c :: insertCell addr b rest

/-- BUF[addr] <- b (R66). -/
def Memory.write (m : Memory) (addr : Nat) (b : Byte) : Memory :=
  { m with cells := insertCell addr b m.cells }

/-- `MemBytes(addr, n)` (R66). -/
def Memory.readBytes (m : Memory) (addr n : Nat) : List Byte :=
  (List.range n).map fun k => m.read (addr + k)

/-- The unsigned integer a byte sequence stands for, the first byte the most significant (R51). -/
def bigEndian (bs : List Byte) : Nat :=
  bs.foldl (fun v b => 256 * v + b.toNat) 0

/-- `MemRead(addr, n)`: n bytes as one big-endian integer (R51, R66). -/
def Memory.readNat (m : Memory) (addr n : Nat) : Nat :=
  bigEndian (m.readBytes addr n)

/-- `MemWriteBytes(addr, bs)` (R66). -/
def Memory.writeBytes (m : Memory) (addr : Nat) : List Byte → Memory
  | [] => m
  | b :: bs => (m.write addr b).writeBytes (addr + 1) bs

/-- The canonical form: addresses strictly rising, all inside BUF. What an unlisted address holds is no listed value, so
equal memories are equal data. -/
abbrev Memory.wf (m : Memory) : Prop :=
  m.cells.Pairwise (fun x y => x.1 < y.1) ∧ ∀ c ∈ m.cells, c.1 < m.size

/-- BUF after a reset that leaves its contents unspecified (R41, R241): nothing is known of any byte. -/
def Memory.forget (m : Memory) : Memory :=
  { m with epoch := m.epoch + 1, cells := [] }

/-- `BE16(v)` (00_scope.md rule R14). -/
def be16 (v : Nat) : List Byte :=
  [BitVec.ofNat 8 (v / 256), BitVec.ofNat 8 v]

/-! ## The random source -/

/-- The answer the random source gives to the `k`-th request from now on: the answers fixed in advance first, then free
ones, each of its own (R123). -/
def Rng.answer (r : Rng) (k : Nat) : Option Byte :=
  match r.inputs[k]? with
  | some a => a
  | none => Config.rngAnswer (r.draws + k)

/-- The port after one request (R123). -/
def Rng.next (r : Rng) : Rng :=
  ⟨r.inputs.tail, r.draws + 1⟩

/-- `RngDraw()`: one request, answered with a byte or with failure (R123). -/
def Rng.draw (r : Rng) : Option Byte × Rng :=
  (r.answer 0, r.next)

/-! ## Acceptance and completion -/

/-- Acceptance of a command word: nothing else changes (10_state.md rule R22). -/
def State.accept (s : State) (w : Word) : State :=
  { s with cmd := w, busy := true, done := false, ecode := okCode }

/-- The writes of an operation that ended OK: byte sequences into BUF, and values into result registers (R57). -/
structure Effects where
  stores : List (Nat × List Byte)
  results : List (Fin 4 × Word)
  deriving DecidableEq, Repr

/-- The BUF writes of an operation, in order (R57, R66). -/
def Memory.storeAll (m : Memory) (stores : List (Nat × List Byte)) : Memory :=
  stores.foldl (fun m p => m.writeBytes p.1 p.2) m

/-- The RES writes of an operation, in order (R57). -/
def writeResults (res : Vector Word 4) (results : List (Fin 4 × Word)) : Vector Word 4 :=
  results.foldl (fun r p => r.set p.1 p.2) res

/-- The status at a completion: BUSY <- 0, DONE <- 1, ECODE <- the outcome code (10_state.md rule R24). -/
def State.finish (s : State) (code : Byte) : State :=
  { s with busy := false, done := true, ecode := code }

/-- TAKING AN EXCEPTION: the completion of a command that raised `e`. Nothing but the status changes; control goes nowhere,
nothing is saved, and there is no return: the next command is accepted as after any outcome (R222, R224). -/
def State.raiseError (s : State) (e : OpError) : State :=
  s.finish e.code

/-- The completion of a command that ended OK (R223). -/
def State.completeOk (s : State) (fx : Effects) : State :=
  { s with buf := s.buf.storeAll fx.stores, res := writeResults s.res fx.results }.finish okCode

/-- The completion step's outcome for an evaluated operation: always a next state (10_state.md rule R24,
70_reset_and_hazards.md rule R255). -/
def complete (s : State) (r : Except OpError Effects) : Host.Outcome State Fault Refusal :=
  match r with
  | .ok fx => .next (s.completeOk fx)
  | .error e => .next (s.raiseError e)

/-- The completion step's outcome for an operation that drew from the random source: the requests made are made, whatever
the outcome (70_reset_and_hazards.md rule R254). -/
def completeDrawing (s : State) (p : Except OpError Effects × Rng) : Host.Outcome State Fault Refusal :=
  complete { s with rng := p.2 } p.1

/-- The operation the accepted command word names, or why it is illegal (10_state.md rules R24, R36). -/
def fetch (s : State) : Except DecodeError Instr :=
  decode s.cmd

end Sys2Proof.Machine
end

