-- ==== Sys2Proof/Machine/FieldArith.lean ====
section
/-! DEFINITION. The arithmetic engine: `add`, `sub`, `mul`, `div` over the table ROMs (40_field_arithmetic.md rule R95) and
the four commands that expose them (R91 to R94). -/

namespace Sys2Proof.Machine

/-- `add(a, b)` (R95). -/
def gfAdd (a b : Byte) : Byte := a ^^^ b

/-- `sub(a, b)`, the same as `add` in characteristic 2 (R95). -/
def gfSub (a b : Byte) : Byte := a ^^^ b

/-- EXP[i], for an index below 256 (10_state.md rule R31). -/
def Rom.expAt (t : Rom) (i : Nat) (h : i < 256) : Byte := t.exp[i]

/-- LOG[v] as an integer (10_state.md rule R31). -/
def Rom.logAt (t : Rom) (v : Byte) : Nat := (t.log[v.toNat]'v.isLt).toNat

/-- EXP at an index reduced modulo 255, the order of the multiplicative group (R96). -/
def Rom.expMod (t : Rom) (i : Nat) : Byte := t.expAt (i % 255) (by omega)

/-- `mul(a, b)`: a zero operand gives 0 without a lookup (R95, R96). -/
def gfMul (t : Rom) (a b : Byte) : Byte :=
  if a = 0 ∨ b = 0 then 0 else t.expMod (t.logAt a + t.logAt b)

/-- The quotient by a nonzero byte: 255 is added before the difference of the logarithms is reduced (R95, R96). -/
def gfQuot (t : Rom) (a b : Byte) : Byte :=
  if a = 0 then 0 else t.expMod (t.logAt a + 255 - t.logAt b)

/-- `div(a, b)`: the test of the divisor comes first (R95, 92_eei_decisions.md D44). -/
def gfDiv (t : Rom) (a b : Byte) : Except OpError Byte :=
  if b = 0 then .error .divisionByZero else .ok (gfQuot t a b)

/-- A scalar byte result, zero-extended, in RES0 and nothing in BUF (10_state.md rule R26). -/
def byteResult (b : Byte) : Effects := ⟨[], [(0, b.setWidth 32)]⟩

/-- GFADD (R91). -/
def evalGfadd (s : State) : Except OpError Effects := do
  let a ← byteOperand s 0
  let b ← byteOperand s 1
  return byteResult (gfAdd a b)

/-- GFSUB (R92). -/
def evalGfsub (s : State) : Except OpError Effects := do
  let a ← byteOperand s 0
  let b ← byteOperand s 1
  return byteResult (gfSub a b)

/-- GFMUL (R93). -/
def evalGfmul (s : State) : Except OpError Effects := do
  let a ← byteOperand s 0
  let b ← byteOperand s 1
  return byteResult (gfMul s.rom a b)

/-- GFDIV (R94). -/
def evalGfdiv (s : State) : Except OpError Effects := do
  let a ← byteOperand s 0
  let b ← byteOperand s 1
  let q ← gfDiv s.rom a b
  return byteResult q

/-- The completion step of GFADD (R91). -/
def execGfadd (s : State) : Host.Outcome State Fault Refusal := complete s (evalGfadd s)

/-- The completion step of GFSUB (R92). -/
def execGfsub (s : State) : Host.Outcome State Fault Refusal := complete s (evalGfsub s)

/-- The completion step of GFMUL (R93). -/
def execGfmul (s : State) : Host.Outcome State Fault Refusal := complete s (evalGfmul s)

/-- The completion step of GFDIV (R94). -/
def execGfdiv (s : State) : Host.Outcome State Fault Refusal := complete s (evalGfdiv s)

end Sys2Proof.Machine
end

