-- ==== Sys2Proof/Machine/HeaderCodec.lean ====
section
/-! DEFINITION. The header codec (43_header_codec.md): the fixed 20-byte header, `encode_header`, `decode_header`, and the
commands HDRENC and HDRDEC. -/

namespace Sys2Proof.Machine

/-- The fields of a header (R135). -/
structure Header where
  ident : List Byte
  hashId : Byte
  threshold : Byte
  shareLen : Nat
  deriving DecidableEq, Repr

/-- `idfield(id)`: the first 16 bytes, padded at the end with zero bytes to 16 (R137). -/
def idField (id : List Byte) : List Byte :=
  id.take 16 ++ List.replicate (16 - id.length) 0

/-- `encode_header(id, h, t, sl)`, 20 bytes (R139). -/
def encodeHeader (id : List Byte) (h t : Byte) (sl : Nat) : List Byte :=
  idField id ++ [h] ++ [t] ++ be16 sl

/-- `decode_header(b)`: fewer than 20 bytes are malformed, bytes after the 20th are ignored, nothing is validated (R141). -/
def decodeHeader (b : List Byte) : Except OpError Header :=
  match b.drop 16 with
  | h :: t :: hi :: lo :: _ => .ok ⟨b.take 16, h, t, 256 * hi.toNat + lo.toNat⟩
  | _ => .error .malformedHeader

/-- HDRENC (R138, R139). -/
def evalHdrenc (s : State) : Except OpError Effects := do
  let h ← byteOperand s 2
  let t ← byteOperand s 3
  let sl ← halfOperand s 4
  require (s.buf.region (wordOperand s 0) (wordOperand s 1)) .badAddress
  require (s.buf.region (wordOperand s 5) 20) .badAddress
  let id := s.buf.readBytes (wordOperand s 0) (wordOperand s 1)
  return ⟨[(wordOperand s 5, encodeHeader id h t sl)], [(0, 20)]⟩

/-- HDRDEC (R141): the length is tested before the regions. -/
def evalHdrdec (s : State) : Except OpError Effects := do
  require (20 ≤ wordOperand s 1) .malformedHeader
  require (s.buf.region (wordOperand s 0) (wordOperand s 1)) .badAddress
  require (s.buf.region (wordOperand s 2) 16) .badAddress
  let hdr ← decodeHeader (s.buf.readBytes (wordOperand s 0) 20)
  return ⟨[(wordOperand s 2, hdr.ident)],
    [(0, hdr.hashId.setWidth 32), (1, hdr.threshold.setWidth 32), (2, BitVec.ofNat 32 hdr.shareLen)]⟩

/-- The completion step of HDRENC (R139). -/
def execHdrenc (s : State) : Host.Outcome State Fault Refusal := complete s (evalHdrenc s)

/-- The completion step of HDRDEC (R141). -/
def execHdrdec (s : State) : Host.Outcome State Fault Refusal := complete s (evalHdrdec s)

end Sys2Proof.Machine
end

