-- ==== Sys2Proof/Machine/Lagrange.lean ====
section
/-! DEFINITION. The Lagrange interpolation engine (45_lagrange_interpolator.md): the internal function `interp0` (rule R171)
and the command LINTERP. -/

namespace Sys2Proof.Machine

/-- The basis value of the point at position `i` with x-coordinate `ui`: the product of `div(uj, uj ⊕ ui)` over every other
position `j`, ascending from `b` (R171). -/
def basisLoop (t : Rom) (i : Nat) (ui : Byte) (b : Byte) : List (Byte × Nat) → Except OpError Byte
  | [] => .ok b
  | (uj, j) :: rest =>
    if j = i then basisLoop t i ui b rest
    else do
      let q ← gfDiv t uj (gfAdd uj ui)
      basisLoop t i ui (gfMul t b q) rest

/-- The sum over the points, ascending from `acc`, of basis value times y-coordinate (R171). -/
def interpLoop (t : Rom) (u : List Byte) (acc : Byte) : List ((Byte × Byte) × Nat) → Except OpError Byte
  | [] => .ok acc
  | ((ui, vi), i) :: rest => do
    let b ← basisLoop t i ui 1 u.zipIdx
    interpLoop t u (gfAdd acc (gfMul t b vi)) rest

/-- `interp0(U, V)` for two sequences of the same length (R171). -/
def interp0 (t : Rom) (u v : List Byte) : Except OpError Byte :=
  interpLoop t u 0 (u.zip v).zipIdx

/-- LINTERP (R166, R167). -/
def evalLinterp (s : State) : Except OpError Effects := do
  let k := wordOperand s 2
  require (s.buf.region (wordOperand s 0) k) .badAddress
  require (s.buf.region (wordOperand s 1) k) .badAddress
  let v ← interp0 s.rom (s.buf.readBytes (wordOperand s 0) k) (s.buf.readBytes (wordOperand s 1) k)
  return byteResult v

/-- The completion step of LINTERP (R167). -/
def execLinterp (s : State) : Host.Outcome State Fault Refusal := complete s (evalLinterp s)

end Sys2Proof.Machine
end

