-- ==== Sys2Proof/Machine/Polynomial.lean ====
section
/-! DEFINITION. The polynomial evaluator (41_polynomial_evaluator.md): the running-power loop of rule R115, the internal
function `peval`, and the command PEVAL. -/

namespace Sys2Proof.Machine

/-- The loop of R115 from the sum and the running power it has reached: `sum ⊕= mul(c[k], xi)`, then `xi = mul(xi, x)`. -/
def polyLoop (t : Rom) (x : Byte) (sum xi : Byte) : List Byte → Byte
  | [] => sum
  | c :: cs => polyLoop t x (gfAdd sum (gfMul t c xi)) (gfMul t xi x) cs

/-- The value `peval` computes at a nonzero point: the loop starts from sum 0x00 and power 0x01 (R115). -/
def polySum (t : Rom) (x : Byte) (c : List Byte) : Byte := polyLoop t x 0 1 c

/-- `peval(x, c)` (R115). -/
def peval (t : Rom) (x : Byte) (c : List Byte) : Except OpError Byte :=
  if x = 0 then .error .invalidIndex else .ok (polySum t x c)

/-- PEVAL (R111, R112). -/
def evalPeval (s : State) : Except OpError Effects := do
  let x ← byteOperand s 0
  require (x ≠ 0) .invalidIndex
  let cptr := wordOperand s 1
  let cnt := wordOperand s 2
  require (s.buf.region cptr cnt) .badAddress
  let v ← peval s.rom x (s.buf.readBytes cptr cnt)
  return byteResult v

/-- The completion step of PEVAL (R112). -/
def execPeval (s : State) : Host.Outcome State Fault Refusal := complete s (evalPeval s)

end Sys2Proof.Machine
end

