-- ==== Sys2Proof/Machine/Digest.lean ====
section
/-! DEFINITION. The digest function (00_scope.md rules R8, R11): hash ids, digest lengths, and `Digest(h, bytes)` for the
digest unit of the instance. The default unit is SHA-1 and SHA-256 of FIPS 180-4, which the spec names and does not
define (PRESUMED, log entry 4). -/

namespace Sys2Proof.Machine

/-- The hash algorithm ids: NONE = 0, SHA1 = 1, SHA256 = 2 (R8). -/
inductive HashAlg where
  | noHash
  | sha1
  | sha256
  deriving DecidableEq, Repr

/-- The algorithm an id names; any other id names none (R8). -/
def HashAlg.ofId (n : Nat) : Option HashAlg :=
  match n with
  | 0 => some .noHash
  | 1 => some .sha1
  | 2 => some .sha256
  | _ => none

/-- `dlen(h)` (R8). -/
def HashAlg.dlen : HashAlg → Nat
  | .noHash => 0
  | .sha1 => 20
  | .sha256 => 32

/-! ## FIPS 180-4 (PRESUMED, log entry 4) -/

/-- The 64-bit big-endian length of a message in bits. -/
def lengthBytes (bits : Nat) : List Byte :=
  (List.range 8).map fun k => BitVec.ofNat 8 (bits / 2 ^ (8 * (7 - k)))

/-- The padded message: a one bit, zero bits to 56 bytes modulo 64, the length. -/
def shaPad (m : List Byte) : List Byte :=
  m ++ [0x80] ++ List.replicate ((119 - m.length % 64) % 64) 0 ++ lengthBytes (8 * m.length)

/-- Four bytes at a time as big-endian words. -/
def toWords : List Byte → List Word
  | a :: b :: c :: d :: rest => (a ++ b ++ c ++ d) :: toWords rest
  | _ => []

/-- A word as four bytes, the most significant first. -/
def wordBytes (w : Word) : List Byte :=
  [w.extractLsb' 24 8, w.extractLsb' 16 8, w.extractLsb' 8 8, w.extractLsb' 0 8]

/-- `n` blocks of 16 words. -/
def toBlocks : Nat → List Word → List (List Word)
  | 0, _ => []
  | n + 1, ws => ws.take 16 :: toBlocks n (ws.drop 16)

/-- The blocks of a message. -/
def shaBlocks (m : List Byte) : List (List Word) :=
  toBlocks ((shaPad m).length / 64) (toWords (shaPad m))

/-- The message schedule, the newest word first: `n` more words by the recurrence `f` of the words 2, 3, 7, 8, 14, 15, 16
places back. The default is never taken, the list has 16 words or more. -/
def schedule (f : (Nat → Word) → Word) : Nat → List Word → List Word
  | 0, ws => ws
  | n + 1, ws => schedule f n (f (fun k => ws.getD (k - 1) 0) :: ws)

/-- The working variables of SHA-1. -/
structure Sha1State where
  (a b c d e : Word)
  deriving DecidableEq, Repr

/-- The function and the constant of round `t` of SHA-1. -/
def sha1Mix (t : Nat) (b c d : Word) : Word :=
  if t < 20 then ((b &&& c) ^^^ (~~~b &&& d)) + 0x5A827999
  else if t < 40 then (b ^^^ c ^^^ d) + 0x6ED9EBA1
  else if t < 60 then ((b &&& c) ^^^ (b &&& d) ^^^ (c &&& d)) + 0x8F1BBCDC
  else (b ^^^ c ^^^ d) + 0xCA62C1D6

/-- The rounds of SHA-1 from round `t` on, one for each word left. -/
def sha1Rounds (t : Nat) (v : Sha1State) : List Word → Sha1State
  | [] => v
  | w :: ws =>
    sha1Rounds (t + 1)
      ⟨v.a.rotateLeft 5 + sha1Mix t v.b v.c v.d + v.e + w, v.a, v.b.rotateLeft 30, v.c, v.d⟩ ws

/-- One block of SHA-1. -/
def sha1Block (h : Sha1State) (block : List Word) : Sha1State :=
  let ws := (schedule (fun w => (w 3 ^^^ w 8 ^^^ w 14 ^^^ w 16).rotateLeft 1) 64 block.reverse).reverse
  let v := sha1Rounds 0 h ws
  ⟨h.a + v.a, h.b + v.b, h.c + v.c, h.d + v.d, h.e + v.e⟩

/-- SHA-1. -/
def sha1 (m : List Byte) : List Byte :=
  let h := (shaBlocks m).foldl sha1Block ⟨0x67452301, 0xEFCDAB89, 0x98BADCFE, 0x10325476, 0xC3D2E1F0⟩
  [h.a, h.b, h.c, h.d, h.e].flatMap wordBytes

/-- The working variables of SHA-256. -/
structure Sha256State where
  (a b c d e f g h : Word)
  deriving DecidableEq, Repr

/-- The round constants of SHA-256. -/
def sha256K : List Word :=
  [0x428A2F98, 0x71374491, 0xB5C0FBCF, 0xE9B5DBA5, 0x3956C25B, 0x59F111F1, 0x923F82A4, 0xAB1C5ED5] ++
  [0xD807AA98, 0x12835B01, 0x243185BE, 0x550C7DC3, 0x72BE5D74, 0x80DEB1FE, 0x9BDC06A7, 0xC19BF174] ++
  [0xE49B69C1, 0xEFBE4786, 0x0FC19DC6, 0x240CA1CC, 0x2DE92C6F, 0x4A7484AA, 0x5CB0A9DC, 0x76F988DA] ++
  [0x983E5152, 0xA831C66D, 0xB00327C8, 0xBF597FC7, 0xC6E00BF3, 0xD5A79147, 0x06CA6351, 0x14292967] ++
  [0x27B70A85, 0x2E1B2138, 0x4D2C6DFC, 0x53380D13, 0x650A7354, 0x766A0ABB, 0x81C2C92E, 0x92722C85] ++
  [0xA2BFE8A1, 0xA81A664B, 0xC24B8B70, 0xC76C51A3, 0xD192E819, 0xD6990624, 0xF40E3585, 0x106AA070] ++
  [0x19A4C116, 0x1E376C08, 0x2748774C, 0x34B0BCB5, 0x391C0CB3, 0x4ED8AA4A, 0x5B9CCA4F, 0x682E6FF3] ++
  [0x748F82EE, 0x78A5636F, 0x84C87814, 0x8CC70208, 0x90BEFFFA, 0xA4506CEB, 0xBEF9A3F7, 0xC67178F2]

/-- One round of SHA-256 with the sum `kw` of its constant and schedule word. -/
def sha256Round (v : Sha256State) (kw : Word) : Sha256State :=
  let s1 := v.e.rotateRight 6 ^^^ v.e.rotateRight 11 ^^^ v.e.rotateRight 25
  let ch := (v.e &&& v.f) ^^^ (~~~v.e &&& v.g)
  let t1 := v.h + s1 + ch + kw
  let s0 := v.a.rotateRight 2 ^^^ v.a.rotateRight 13 ^^^ v.a.rotateRight 22
  let maj := (v.a &&& v.b) ^^^ (v.a &&& v.c) ^^^ (v.b &&& v.c)
  ⟨t1 + (s0 + maj), v.a, v.b, v.c, v.d + t1, v.e, v.f, v.g⟩

/-- The schedule recurrence of SHA-256. -/
def sha256Next (w : Nat → Word) : Word :=
  let s1 := (w 2).rotateRight 17 ^^^ (w 2).rotateRight 19 ^^^ (w 2 >>> 10)
  let s0 := (w 15).rotateRight 7 ^^^ (w 15).rotateRight 18 ^^^ (w 15 >>> 3)
  s1 + w 7 + s0 + w 16

/-- One block of SHA-256. -/
def sha256Block (h : Sha256State) (block : List Word) : Sha256State :=
  let ws := (schedule sha256Next 48 block.reverse).reverse
  let v := (List.zipWith (· + ·) sha256K ws).foldl sha256Round h
  ⟨h.a + v.a, h.b + v.b, h.c + v.c, h.d + v.d, h.e + v.e, h.f + v.f, h.g + v.g, h.h + v.h⟩

/-- SHA-256. -/
def sha256 (m : List Byte) : List Byte :=
  let h := (shaBlocks m).foldl sha256Block
    ⟨0x6A09E667, 0xBB67AE85, 0x3C6EF372, 0xA54FF53A, 0x510E527F, 0x9B05688C, 0x1F83D9AB, 0x5BE0CD19⟩
  [h.a, h.b, h.c, h.d, h.e, h.f, h.g, h.h].flatMap wordBytes

/-! ## The configuration function -/

/-- `Digest(h, bytes)` of a digest unit (R11). NONE has no digest: its digest length is 0. -/
def digest (u : DigestUnit) (h : HashAlg) (m : List Byte) : List Byte :=
  match h, u with
  | .noHash, _ => []
  | .sha1, .fips180 => sha1 m
  | .sha1, .external id => (Config.externalDigest1 id m).toList
  | .sha256, .fips180 => sha256 m
  | .sha256, .external id => (Config.externalDigest2 id m).toList

/-- The internal secret: the caller's bytes, with their digest appended unless the id is NONE (44_share_creation.md
rule R154). -/
def extendSecret (u : DigestUnit) (h : HashAlg) (secret : List Byte) : List Byte :=
  match h with
  | .noHash => secret
  | .sha1 => secret ++ digest u .sha1 secret
  | .sha256 => secret ++ digest u .sha256 secret

end Sys2Proof.Machine
end

