-- ==== Sys2Proof/Machine/Reconstruct.lean ====
section
/-! DEFINITION. The reconstruction orchestrator (46_reconstruction_orchestrator.md): the validation pass, the enumeration of
subsets, the examination of one subset, the search in strict and lenient mode, and the command RECONSTRUCT. -/

namespace Sys2Proof.Machine

/-! ## Step 1: parse and validate -/

/-- Entry `i` of the descriptor table: the address and the length of share `i` (R181). -/
def descriptor (m : Memory) (tptr i : Nat) : Nat × Nat :=
  (m.readNat (tptr + 8 * i) 4, m.readNat (tptr + 8 * i + 4) 4)

/-- Tests 1 and 2 of the pass on a share: its length, then its region (R183). -/
def checkShareRegion (m : Memory) (d : Nat × Nat) : Except OpError Unit := do
  require (20 ≤ d.2) .malformedShare
  require (m.region d.1 d.2) .badAddress

/-- Test 4 of the pass, and the payload (R183). -/
def sharePayload (m : Memory) (d : Nat × Nat) (sl : Nat) : Except OpError (List Byte) := do
  require (d.2 - 20 = sl) .malformedShare
  return m.readBytes (d.1 + 20) sl

/-- The pass on share 0: its header becomes the reference, whose threshold must not exceed the number of shares (R183). -/
def firstShare (m : Memory) (count : Nat) (d : Nat × Nat) : Except OpError (Header × List Byte) := do
  checkShareRegion m d
  let hdr ← decodeHeader (m.readBytes d.1 20)
  require (hdr.threshold.toNat ≤ count) .insufficientShares
  let p ← sharePayload m d hdr.shareLen
  return (hdr, p)

/-- The pass on a later share: its 20 header bytes must be the reference's (R183). -/
def laterShare (m : Memory) (ref : List Byte) (sl : Nat) (d : Nat × Nat) : Except OpError (List Byte) := do
  checkShareRegion m d
  require (m.readBytes d.1 20 = ref) .inconsistentHeaders
  sharePayload m d sl

/-- The pass on the shares whose descriptors are given, in order; the first failing test ends it (R183). -/
def laterShares (m : Memory) (ref : List Byte) (sl : Nat) : List (Nat × Nat) → Except OpError (List (List Byte))
  | [] => .ok []
  | d :: ds => do
    let p ← laterShare m ref sl d
    let ps ← laterShares m ref sl ds
    return p :: ps

/-- The validation pass over shares 0 .. count − 1: the reference header and all payloads (R182, R183). -/
def validateShares (m : Memory) (tptr count : Nat) : Except OpError (Header × List (List Byte)) :=
  match (List.range count).map (descriptor m tptr) with
  | [] => .error .insufficientShares
  | d :: ds => do
    let (hdr, p) ← firstShare m count d
    let ps ← laterShares m (m.readBytes d.1 20) hdr.shareLen ds
    return (hdr, p :: ps)

/-! ## Step 2: the search -/

/-- The first subset: positions 0 .. T − 1 (R186, R187). -/
def firstSubset (t : Nat) : List Nat := List.range t

/-- The successor of a tuple of positions, from its position `m` on: the rightmost entry that is below its maximum
`S − T + m` is incremented, and the entries after it follow it consecutively (R187). -/
def successorFrom (count t : Nat) (m : Nat) : List Nat → Option (List Nat)
  | [] => none
  | x :: rest =>
    match successorFrom count t (m + 1) rest with
    | some rest' => some (x :: rest')
    | none => if x = count - t + m then none else some (List.range' (x + 1) (rest.length + 1))

/-- `successor(c, S, T)` (R187). -/
def successor (count t : Nat) (c : List Nat) : Option (List Nat) := successorFrom count t 0 c

/-- What examining one subset finds (R188 to R192). -/
inductive Verdict where
  /-- The subset yields this result. -/
  | accept (result : List Byte)
  /-- Two index bytes coincide (R188). -/
  | duplicate
  /-- The candidate fails verification (R192). -/
  | mismatch
  deriving DecidableEq, Repr

/-- Byte `p` of every payload of a subset. A payload has SL bytes and `p < SL`, so the default is never taken. -/
def column (pays : List (List Byte)) (p : Nat) : List Byte := pays.map (·.getD p 0)

/-- The payloads at the positions of a subset. Every position is below S, so the default is never taken. -/
def selected (pays : List (List Byte)) (c : List Nat) : List (List Byte) := c.map (pays.getD · [])

/-- The candidate's bytes for payload positions `p`, in order (R189). -/
def candidateFrom (t : Rom) (pays : List (List Byte)) : List Nat → Except OpError (List Byte)
  | [] => .ok []
  | p :: ps => do
    let b ← interp0 t (column pays 0) (column pays p)
    let bs ← candidateFrom t pays ps
    return b :: bs

/-- The candidate: payload positions 1 .. SL − 1 (R189). -/
def candidate (t : Rom) (pays : List (List Byte)) (sl : Nat) : Except OpError (List Byte) :=
  candidateFrom t pays (List.range' 1 (sl - 1))

/-- Hash verification of a candidate: its last `dlen` bytes must be the digest of the rest; without a hash every candidate
is accepted (R191, R192). -/
def verify (u : DigestUnit) (h : HashAlg) (cand : List Byte) : Verdict :=
  match h with
  | .noHash => .accept cand
  | h =>
    let n := cand.length - h.dlen
    if h.dlen ≤ cand.length ∧ digest u h (cand.take n) = cand.drop n then .accept (cand.take n) else .mismatch

/-- Steps 2a to 2d for the payloads of one subset (R188 to R192). -/
def examine (t : Rom) (u : DigestUnit) (h : HashAlg) (sl : Nat) (pays : List (List Byte)) : Except OpError Verdict :=
  if (column pays 0).Nodup then do
    let cand ← candidate t pays sl
    return verify u h cand
  else .ok .duplicate

/-- Whether the finding on a subset ends the search, and how: a result always does; a duplicate or a failed verification
is fatal in strict mode and swallowed in lenient mode (R193, R194). -/
def settles (lenient : Bool) : Verdict → Option (Except OpError (List Byte))
  | .accept r => some (.ok r)
  | .duplicate => if lenient then none else some (.error .duplicateIndex)
  | .mismatch => if lenient then none else some (.error .hashMismatch)

/-- The search from subset `c` on. `fuel` bounds the number of subsets examined; `S ^ T` is at least the number of all of
them (R200), so it never runs out (log entry 13). -/
def searchFrom (examineAt : List Nat → Except OpError Verdict) (lenient : Bool) (count t : Nat) :
    Nat → List Nat → Except OpError (List Byte)
  | 0, _ => .error .reconstructionFailed
  | fuel + 1, c => do
    let v ← examineAt c
    match settles lenient v with
    | some r => r
    | none =>
      match successor count t c with
      | none => .error .reconstructionFailed
      | some c' => searchFrom examineAt lenient count t fuel c'

/-- The search over all subsets of `T` of the shares, in order (R186, R193 to R195). -/
def search (rom : Rom) (u : DigestUnit) (h : HashAlg) (lenient : Bool) (t sl : Nat) (pays : List (List Byte)) :
    Except OpError (List Byte) :=
  searchFrom (fun c => examine rom u h sl (selected pays c)) lenient pays.length t (pays.length ^ t) (firstSubset t)

/-- RECONSTRUCT (R201): the result's region is checked when the result is known (R197). -/
def evalReconstruct (lenient : Bool) (s : State) : Except OpError Effects := do
  let count := wordOperand s 1
  require (count ≠ 0) .insufficientShares
  require (s.buf.region (wordOperand s 0) (8 * count)) .badAddress
  let (hdr, pays) ← validateShares s.buf (wordOperand s 0) count
  require (hdr.shareLen ≠ 0) .malformedShare
  match HashAlg.ofId hdr.hashId.toNat with
  | none => .error .unsupportedHashAlgorithm
  | some h =>
    let r ← search s.rom s.digestUnit h lenient hdr.threshold.toNat hdr.shareLen pays
    require (s.buf.region (wordOperand s 2) r.length) .badAddress
    return ⟨[(wordOperand s 2, r)], [(0, BitVec.ofNat 32 r.length)]⟩

/-- The completion step of RECONSTRUCT (R201). -/
def execReconstruct (lenient : Bool) (s : State) : Host.Outcome State Fault Refusal :=
  complete s (evalReconstruct lenient s)

end Sys2Proof.Machine
end

