-- ==== Sys2Proof/Machine/ShareGen.lean ====
section
/-! DEFINITION. The share generator (42_share_generator.md): the draws of one operation, the internal function `generate`
(rule R130), and the command GENERATE. -/

namespace Sys2Proof.Machine

/-- `n` draws in order, stopping at the first that is answered with failure: no retry and no further request (R124, R125). -/
def drawBytes : Nat → Rng → Option (List Byte) × Rng
  | 0, r => (some [], r)
  | n + 1, r =>
    match r.draw with
    | (none, r) => (none, r)
    | (some b, r) =>
      match drawBytes n r with
      | (none, r) => (none, r)
      | (some bs, r) => (some (b :: bs), r)

/-- The polynomials of the secret's bytes, in order: the constant term is the secret byte, the `m - 1` further coefficients
are fresh draws (R124, R130). -/
def drawPolynomials (m : Nat) : List Byte → Rng → Option (List (List Byte)) × Rng
  | [], r => (some [], r)
  | sb :: secret, r =>
    match drawBytes (m - 1) r with
    | (none, r) => (none, r)
    | (some coefs, r) =>
      match drawPolynomials m secret r with
      | (none, r) => (none, r)
      | (some polys, r) => (some ((sb :: coefs) :: polys), r)

/-- The payload with index byte `x`: the index, then the value of every polynomial at `x` (R130). The generator's points
are 1 to N ≤ 254, so `peval` raises nothing there and its value is `polySum`. -/
def payload (t : Rom) (polys : List (List Byte)) (x : Byte) : List Byte :=
  x :: polys.map (polySum t x)

/-- The `n` payloads, in index order, index bytes 1 to `n` (R130). -/
def payloads (t : Rom) (n : Nat) (polys : List (List Byte)) : List (List Byte) :=
  (List.range n).map fun i => payload t polys (BitVec.ofNat 8 (i + 1))

/-- `generate(M, N, s)`: all payloads or RngFailure (R125, R130). -/
def generate (t : Rom) (m n : Nat) (secret : List Byte) (r : Rng) : Except OpError (List (List Byte)) × Rng :=
  match drawPolynomials m secret r with
  | (none, r) => (.error .rngFailure, r)
  | (some polys, r) => (.ok (payloads t n polys), r)

/-- The parameter check on threshold, count and secret length, on full values (R121). -/
abbrev paramsOk (m n len : Nat) : Prop := len ≤ 65534 ∧ 1 ≤ m ∧ m ≤ 254 ∧ m ≤ n ∧ n ≤ 254

/-- The outputs one after another without gaps, in index order (R126, 44_share_creation.md rule R157). -/
def consecutive (dst stride : Nat) (outs : List (List Byte)) : List (Nat × List Byte) :=
  outs.zipIdx.map fun p => (dst + p.2 * stride, p.1)

/-- The checks of GENERATE, in order (R121, R122). -/
def checkGenerate (s : State) : Except OpError Unit := do
  require (paramsOk (wordOperand s 0) (wordOperand s 1) (wordOperand s 3)) .invalidParameters
  require (s.buf.region (wordOperand s 2) (wordOperand s 3)) .badAddress
  require (s.buf.region (wordOperand s 4) (wordOperand s 1 * (wordOperand s 3 + 1))) .badAddress

/-- What GENERATE writes once the payloads are made (R126, R127). -/
def generateEffects (s : State) (outs : List (List Byte)) : Effects :=
  ⟨consecutive (wordOperand s 4) (wordOperand s 3 + 1) outs,
   [(0, BitVec.ofNat 32 (wordOperand s 3 + 1)), (1, BitVec.ofNat 32 (wordOperand s 1))]⟩

/-- GENERATE (R127): no draw is made before the checks have passed (R124). -/
def evalGenerate (s : State) : Except OpError Effects × Rng :=
  match checkGenerate s with
  | .error e => (.error e, s.rng)
  | .ok () =>
    let p := generate s.rom (wordOperand s 0) (wordOperand s 1)
      (s.buf.readBytes (wordOperand s 2) (wordOperand s 3)) s.rng
    (p.1.map (generateEffects s), p.2)

/-- The completion step of GENERATE (R127). -/
def execGenerate (s : State) : Host.Outcome State Fault Refusal := completeDrawing s (evalGenerate s)

end Sys2Proof.Machine
end

