-- ==== Sys2Proof/Machine/ShareCreate.lean ====
section
/-! DEFINITION. Top-level share creation (44_share_creation.md): the command SHARE. -/

namespace Sys2Proof.Machine

/-- The checks of SHARE, in order; on success the hash algorithm (R151, R152, R153). The lengths tested are those after the
digest is appended. -/
def checkShare (noid : Bool) (s : State) : Except OpError HashAlg := do
  require (noid = false) .invalidParameters
  match HashAlg.ofId (wordOperand s 7) with
  | none => .error .invalidParameters
  | some h =>
    let len := wordOperand s 3 + h.dlen
    require (paramsOk (wordOperand s 0) (wordOperand s 1) len) .invalidParameters
    require (s.buf.region (wordOperand s 2) (wordOperand s 3)) .badAddress
    require (s.buf.region (wordOperand s 5) (wordOperand s 6)) .badAddress
    require (s.buf.region (wordOperand s 4) (wordOperand s 1 * (21 + len))) .badAddress
    return h

/-- The one header of all the shares: the threshold field is M, share_len is the final secret length plus one (R156). -/
def shareHeader (s : State) (h : HashAlg) : List Byte :=
  encodeHeader (s.buf.readBytes (wordOperand s 5) (wordOperand s 6)) ((s.arg 7).setWidth 8) ((s.arg 0).setWidth 8)
    (wordOperand s 3 + h.dlen + 1)

/-- What SHARE writes once the payloads are made: every share is the header and one payload (R156, R157, R158). -/
def shareEffects (s : State) (h : HashAlg) (outs : List (List Byte)) : Effects :=
  ⟨consecutive (wordOperand s 4) (21 + (wordOperand s 3 + h.dlen)) (outs.map (shareHeader s h ++ ·)),
   [(0, BitVec.ofNat 32 (21 + (wordOperand s 3 + h.dlen))), (1, BitVec.ofNat 32 (wordOperand s 1))]⟩

/-- SHARE (R158). -/
def evalShare (noid : Bool) (s : State) : Except OpError Effects × Rng :=
  match checkShare noid s with
  | .error e => (.error e, s.rng)
  | .ok h =>
    let secret := extendSecret s.digestUnit h (s.buf.readBytes (wordOperand s 2) (wordOperand s 3))
    let p := generate s.rom (wordOperand s 0) (wordOperand s 1) secret s.rng
    (p.1.map (shareEffects s h), p.2)

/-- The completion step of SHARE (R158). -/
def execShare (noid : Bool) (s : State) : Host.Outcome State Fault Refusal := completeDrawing s (evalShare noid s)

end Sys2Proof.Machine
end

