-- ==== Sys2Proof/Machine/Dispatch.lean ====
section
/-! DEFINITION. One arm per instruction: the completion step of a decoded command (10_state.md rule R24). -/

namespace Sys2Proof.Machine

def exec (i : Instr) (s : State) : Host.Outcome State Fault Refusal :=
  match i with
  | .gfadd => Sys2Proof.Machine.execGfadd s
  | .gfsub => Sys2Proof.Machine.execGfsub s
  | .gfmul => Sys2Proof.Machine.execGfmul s
  | .gfdiv => Sys2Proof.Machine.execGfdiv s
  | .peval => Sys2Proof.Machine.execPeval s
  | .generate => Sys2Proof.Machine.execGenerate s
  | .hdrenc => Sys2Proof.Machine.execHdrenc s
  | .hdrdec => Sys2Proof.Machine.execHdrdec s
  | .share noid => Sys2Proof.Machine.execShare noid s
  | .linterp => Sys2Proof.Machine.execLinterp s
  | .reconstruct lenient => Sys2Proof.Machine.execReconstruct lenient s

end Sys2Proof.Machine
end

