-- ==== Sys2Proof/Machine/HostPort.lean ====
section
/-! DEFINITION. The host's side of the block: the register window (10_state.md rules R21 to R28), the byte-wide BUF port
(20_memory.md rule R52), which accesses are held while a command runs (10_state.md rule R30), and reset
(70_reset_and_hazards.md rules R240 to R242). -/

namespace Sys2Proof.Machine

/-- The sixteen locations of the register window, by name (10_state.md rule R21). -/
inductive Reg where
  | cmd
  | status
  | reserved (second : Bool)
  | arg (k : Fin 8)
  | res (k : Fin 4)
  deriving DecidableEq, Repr

/-- The byte offset of a location (R21). -/
def Reg.offset : Reg → Nat
  | .cmd => 0x00
  | .status => 0x04
  | .reserved second => if second then 0x0C else 0x08
  | .arg k => 0x10 + 4 * k
  | .res k => 0x30 + 4 * k

/-- The location at a byte offset (R21). -/
def Reg.ofOffset (offset : Nat) : Option Reg :=
  match offset with
  | 0x00 => some .cmd
  | 0x04 => some .status
  | 0x08 => some (.reserved false)
  | 0x0C => some (.reserved true)
  | 0x10 => some (.arg 0)
  | 0x14 => some (.arg 1)
  | 0x18 => some (.arg 2)
  | 0x1C => some (.arg 3)
  | 0x20 => some (.arg 4)
  | 0x24 => some (.arg 5)
  | 0x28 => some (.arg 6)
  | 0x2C => some (.arg 7)
  | 0x30 => some (.res 0)
  | 0x34 => some (.res 1)
  | 0x38 => some (.res 2)
  | 0x3C => some (.res 3)
  | _ => none

/-- The location an access of `width` bytes names: exactly 32 bits at a multiple of 4 inside the window (R28). -/
def regAccess (offset width : Nat) : Option Reg :=
  if width = 4 then Reg.ofOffset offset else none

/-- What a register access that names no location ends in (R28): an offset outside the window, or a wrong shape. -/
def noRegister (offset width : Nat) : Host.Outcome State Fault Refusal :=
  if 0x40 ≤ offset then .fault (.windowOffset offset) else .refused (.registerAccessShape offset width)

/-- What the host reads at a location; no register read has a side effect (R21, R59). -/
def readReg (s : State) : Reg → Word
  | .cmd => s.cmd
  | .status => s.statusWord
  | .reserved _ => 0
  | .arg k => s.args[k]
  | .res k => s.res[k]

/-- A host write to a location while no command runs: CMD accepts a command, the ARG registers take the value, every other
location ignores it (R21, R22, R23, R25, R26, R28). -/
def writeReg (s : State) (r : Reg) (v : Word) : State :=
  match r with
  | .cmd => s.accept v
  | .status => s
  | .reserved _ => s
  | .arg k => { s with args := s.args.set k v }
  | .res _ => s

/-- A read returned this value to the host. -/
def State.reply (s : State) (r : HostReply) : State :=
  { s with replies := s.replies ++ [r] }

/-- Reset: the registers take the values of R40 and a running command is abandoned with no effect at all; BUF is then as it
was at acceptance (R42, R242), and is unspecified after a reset of an idle engine (R41, R241). The tables stay. R242 does
not say how many draws an abandoned operation had requested; here it had requested none (DESIGN CHOICE, log entry 18). -/
def State.resetEvent (s : State) : State :=
  { s with
    cmd := 0, busy := false, done := false, ecode := okCode,
    args := Vector.replicate 8 0, res := Vector.replicate 4 0,
    buf := if s.busy then s.buf else s.buf.forget }

/-- A host access that is not held takes its effect (R22, R27, R52). -/
def hostPerform (a : HostAccess) (s : State) : Host.Outcome State Fault Refusal :=
  match a with
  | .regRead offset width =>
    match regAccess offset width with
    | some r => .next (s.reply (.word (readReg s r)))
    | none => noRegister offset width
  | .regWrite offset width v =>
    match regAccess offset width with
    | some r => .next (writeReg s r v)
    | none => noRegister offset width
  | .bufRead addr =>
    if addr < s.buf.size then .next (s.reply (.byte (s.buf.read addr))) else .fault (.hostBufAddress addr)
  | .bufWrite addr b =>
    if addr < s.buf.size then .next { s with buf := s.buf.write addr b } else .fault (.hostBufAddress addr)
  | .reset => .next s.resetEvent

/-- The accesses that are not held while a command runs: a register read, and reset, which is no access (R30, R42). -/
def HostAccess.notHeld : HostAccess → Bool
  | .regRead offset width => (regAccess offset width).isSome
  | .regWrite _ _ _ => false
  | .bufRead _ => false
  | .bufWrite _ _ => false
  | .reset => true

/-- The event comes before the completion of the command that is running (R30, R60). -/
def HostEvent.beforeCompletion (e : HostEvent) : Bool := e.early && e.access.notHeld

/-- The host access that takes its effect next, with the state in which it is no longer pending; none when the host has
nothing to do, or what it does waits for the engine's completion step (R30). -/
def hostMoves (s : State) : Option (HostAccess × State) :=
  match s.host with
  | [] => none
  | e :: rest => if s.busy && !e.beforeCompletion then none else some (e.access, { s with host := rest })

/-- The host side with its next event placed after the completion of the running command. -/
def engineFirst : List HostEvent → List HostEvent
  | [] => []
  | e :: rest => { e with early := false } :: rest

end Sys2Proof.Machine
end

