-- ==== Sys2Proof/Machine/Step.lean ====
section
/-! DEFINITION. One step of the whole: a host access takes its effect, or the engine completes the command it runs. -/

namespace Sys2Proof.Machine

/-- The engine's completion step: the operation the accepted word names, or IllegalCommand (10_state.md rule R24,
30_encoding.md rule R75). -/
def completionStep (s : State) : Host.Outcome State Fault Refusal :=
  match fetch s with
  | .ok i => exec i s
  | .error _ => complete s (.error .illegalCommand)

/-- One step (00_scope.md rule R7, 20_memory.md rule R60): the host's next access if it is its turn, else the completion
step if a command is running, else nothing happens (60_exceptions.md rule R235). -/
def step (s : State) : Host.Outcome State Fault Refusal :=
  match hostMoves s with
  | some (a, s') => hostPerform a s'
  | none => if s.busy then completionStep s else .next s

/-- `s` with a command word accepted, in the engine's turn, so that the very next step executes it: what the host's write of
CMD does (10_state.md rule R22), and the host's next event, if any, comes after the completion. A number of more than 32
bits is no command word: the all-ones word, which is illegal, stands for it. -/
def State.withFetchWord (s : State) (nbits w : Nat) : State :=
  let s' := s.accept ((tableWord nbits w).getD 0xFFFFFFFF)
  { s' with host := engineFirst s.host }

end Sys2Proof.Machine
end

