-- ==== Sys2Proof/Machine/Script.lean ====
section
/-! DEFINITION. The host-script notation (30_encoding.md rules R82 to R84): statements, their expansion into host accesses,
the pseudo-instructions, and the encoding of a script. A script is run by putting its events into `State.host`. -/

namespace Sys2Proof.Machine

/-- A statement of a host script (R82). `issue` is the statement `MNEMONIC` with its flag. `wait polls` reads STATUS until
BUSY reads 0: `polls` is how often it reads 1, which the time the command takes decides (70_reset_and_hazards.md R256).
`want` is the value a script's listing shows after `=>`, if it shows one; it changes no access. -/
inductive Stmt where
  | wr (r : Reg) (v : Word)
  | rd (r : Reg) (want : Option Word := none)
  | wb (addr : Nat) (bytes : List Byte)
  | rb (addr n : Nat) (want : Option (List Byte) := none)
  | issue (i : Instr)
  | wait (polls : Nat)
  deriving DecidableEq, Repr

/-- An access that comes after the completion of a running command. -/
def later (a : HostAccess) : HostEvent := ⟨a, false⟩

/-- One read of STATUS. -/
def readStatus : HostAccess := .regRead Reg.status.offset 4

/-- The accesses a statement makes, in order (R82). -/
def Stmt.events : Stmt → List HostEvent
  | .wr r v => [later (.regWrite r.offset 4 v)]
  | .rd r _ => [later (.regRead r.offset 4)]
  | .wb addr bytes => bytes.zipIdx.map fun p => later (.bufWrite (addr + p.2) p.1)
  | .rb addr n _ => (List.range n).map fun k => later (.bufRead (addr + k))
  | .issue i => [later (.regWrite Reg.cmd.offset 4 (encode i))]
  | .wait polls => List.replicate polls ⟨readStatus, true⟩ ++ [later readStatus]

/-- A script's accesses. -/
def scriptEvents (p : List Stmt) : List HostEvent := p.flatMap Stmt.events

/-- What the listing shows for each read a statement makes, in order (R82). -/
def Stmt.wants : Stmt → List (Option HostReply)
  | .wr _ _ => []
  | .rd _ want => [want.map .word]
  | .wb _ _ => []
  | .rb _ n want => (List.range n).map fun k => want.bind fun bs => bs[k]?.map .byte
  | .issue _ => []
  | .wait polls => List.replicate (polls + 1) none

/-- Replies are as listed: one for every read, each of the value shown where one is shown. -/
def asListed : List (Option HostReply) → List HostReply → Bool
  | [], [] => true
  | [], _ :: _ => false
  | _ :: _, [] => false
  | want :: wants, r :: rs => (want.isNone || want == some r) && asListed wants rs

/-- The replies in a state are those the script's listing shows (R82). -/
def State.meets (s : State) (p : List Stmt) : Bool := asListed (p.flatMap Stmt.wants) s.replies

/-! ## Pseudo-instructions (R83) -/

/-- The register writes a `call` makes for the operands given: operand k into ARGk. -/
def operandWrites (vs : List Word) : List Stmt :=
  (vs.zip (List.finRange 8)).map fun p => .wr (.arg p.2) p.1

/-- The register write a `call` makes for an operand left out: SHARE's hash operand, its eighth, is then 2, SHA-256. -/
def defaultWrites (i : Instr) (given : Nat) : List Stmt :=
  match i with
  | .share _ => if given < 8 then [.wr (.arg 7) 2] else []
  | .gfadd => []
  | .gfsub => []
  | .gfmul => []
  | .gfdiv => []
  | .peval => []
  | .generate => []
  | .hdrenc => []
  | .hdrdec => []
  | .linterp => []
  | .reconstruct _ => []

/-- The pseudo-instruction `call MNEMONIC v0, .., vk`. -/
def call (i : Instr) (vs : List Word) (polls : Nat) : List Stmt :=
  operandWrites vs ++ defaultWrites i vs.length ++ [.issue i, .wait polls]

/-- The value `expect OK` and `expect NAME` name for a read of STATUS. -/
def expected : Option OpError → Word
  | none => 0x00000002
  | some e => 0x00000002 ||| (e.code.setWidth 32 <<< 8)

/-- The pseudo-instructions `expect OK` (`none`) and `expect NAME`: a read of STATUS that is listed with its value. -/
def expect (e : Option OpError) : List Stmt := [.rd .status (some (expected e))]

/-- The pseudo-instruction `RECONSTRUCT.S`: strict mode, which is RECONSTRUCT without its flag. -/
def reconstructStrict : List Stmt := [.issue (.reconstruct false)]

/-! ## Encoding (R84) -/

/-- One element of an encoded script (R84). -/
inductive ScriptWrite where
  | register (offset : Nat) (value : Word)
  | byte (addr : Nat) (value : Byte)
  deriving DecidableEq, Repr

/-- What an access contributes to the encoding: reads encode nothing (R84). -/
def HostAccess.encoded : HostAccess → List ScriptWrite
  | .regRead _ _ => []
  | .regWrite offset _ v => [.register offset v]
  | .bufRead _ => []
  | .bufWrite addr b => [.byte addr b]
  | .reset => []

/-- The encoding of a script: its register and byte writes in order (R84). -/
def encodeScript (p : List Stmt) : List ScriptWrite :=
  (scriptEvents p).flatMap fun e => e.access.encoded

/-- The state with a script for the host to run. -/
def State.withScript (s : State) (p : List Stmt) : State := { s with host := scriptEvents p }

end Sys2Proof.Machine
end

