-- ==== Sys2Proof/Safety.lean ====
section
/-! DEFINITION. The terms claims are stated in: valid tables, the invariant of the machine, and the specification-side
functions (lists of subsets, powers, the generator's polynomials, the operands and outcomes of the opcode tables) that the
meanings are compared with. -/

namespace Sys2Proof.Machine

/-! ## Tables and the invariant -/

/-- The tables are the exponential and logarithm tables of the pair (10_state.md rules R32, R33); EXP[255] and LOG[0] may be
anything (R34). -/
def Rom.builtFrom (t : Rom) (p : BitVec 9) (g : Byte) : Prop :=
  (∀ i, i < 255 → t.expMod i = fieldPow p g i) ∧
    ∀ v : Byte, v ≠ 0 → t.logAt v < 255 ∧ t.expMod (t.logAt v) = v

/-- The tables belong to some pair that meets the constraints of 00_scope.md rule R10. -/
def Rom.valid (t : Rom) : Prop :=
  ∃ p g, Config.fieldOk p g = true ∧ t.builtFrom p g

/-- What holds of every reachable state: BUF_BYTES is in its range (00_scope.md rule R9), BUF is in canonical form, the tables
are valid (10_state.md rule R31), BUSY and DONE are not both 1, ECODE is 0x00 unless a command has completed, and is always
an outcome code (10_state.md rules R22 to R24, 60_exceptions.md rule R211). -/
structure State.Inv (s : State) : Prop where
  sizeOk : Config.bufBytesOk s.buf.size = true
  bufWf : s.buf.wf
  romValid : s.rom.valid
  notBoth : ¬(s.busy = true ∧ s.done = true)
  quiet : s.done = false → s.ecode = okCode
  codeLegal : s.ecode ∈ legalCodes

/-- A host access that ends a run (10_state.md rule R28, 20_memory.md rule R52). -/
def HostAccess.refusedAt (a : HostAccess) (s : State) : Prop :=
  match a with
  | .regRead offset width => regAccess offset width = none
  | .regWrite offset width _ => regAccess offset width = none
  | .bufRead addr => s.buf.size ≤ addr
  | .bufWrite addr _ => s.buf.size ≤ addr
  | .reset => False

/-! ## Operands and outcomes -/

end Sys2Proof.Machine

namespace Sys2Proof

open Machine

/-- The argument registers an operation names (30_encoding.md rule R77). -/
def Instr.named : Instr → List (Fin 8)
  | .gfadd => [0, 1]
  | .gfsub => [0, 1]
  | .gfmul => [0, 1]
  | .gfdiv => [0, 1]
  | .peval => [0, 1, 2]
  | .generate => [0, 1, 2, 3, 4]
  | .hdrenc => [0, 1, 2, 3, 4, 5]
  | .hdrdec => [0, 1, 2]
  | .share _ => [0, 1, 2, 3, 4, 5, 6, 7]
  | .linterp => [0, 1, 2]
  | .reconstruct _ => [0, 1, 2]

/-- The result registers an operation writes when it ends OK (30_encoding.md rule R77). -/
def Instr.results : Instr → List (Fin 4)
  | .gfadd => [0]
  | .gfsub => [0]
  | .gfmul => [0]
  | .gfdiv => [0]
  | .peval => [0]
  | .generate => [0, 1]
  | .hdrenc => [0]
  | .hdrdec => [0, 1, 2]
  | .share _ => [0, 1]
  | .linterp => [0]
  | .reconstruct _ => [0]

/-- The errors an operation can end with (60_exceptions.md rule R216); SHARE without an identifier ends with the first check
(44_share_creation.md rule R151). -/
def Instr.errors : Instr → List OpError
  | .gfadd => [.badOperand]
  | .gfsub => [.badOperand]
  | .gfmul => [.badOperand]
  | .gfdiv => [.badOperand, .divisionByZero]
  | .peval => [.badOperand, .invalidIndex, .badAddress]
  | .generate => [.invalidParameters, .badAddress, .rngFailure]
  | .hdrenc => [.badOperand, .badAddress]
  | .hdrdec => [.malformedHeader, .badAddress]
  | .share noid => if noid then [.invalidParameters] else [.invalidParameters, .badAddress, .rngFailure]
  | .linterp => [.divisionByZero, .badAddress]
  | .reconstruct lenient =>
    [.unsupportedHashAlgorithm, .malformedShare, .inconsistentHeaders, .insufficientShares, .badAddress] ++
      if lenient then [.reconstructionFailed] else [.duplicateIndex, .hashMismatch]

end Sys2Proof

namespace Sys2Proof.Machine

/-- The same outcome with other argument registers put into its state. -/
def withArgs (args : Vector Word 8) : Host.Outcome State Fault Refusal → Host.Outcome State Fault Refusal
  | .next t => .next { t with args := args }
  | .fault f => .fault f
  | .refused r => .refused r

/-! ## The field -/

/-- `x^k` by the engine's product. -/
def gfPow (t : Rom) (x : Byte) : Nat → Byte
  | 0 => 1
  | k + 1 => gfMul t (gfPow t x k) x

/-- `c[0] + c[1]·x + c[2]·x^2 + …` by the engine's sum and product (41_polynomial_evaluator.md rule R113). -/
def polyValue (t : Rom) (x : Byte) (c : List Byte) : Byte :=
  c.zipIdx.foldr (fun p acc => gfAdd (gfMul t p.1 (gfPow t x p.2)) acc) 0

/-! ## The generator -/

/-- The port after `n` requests. -/
def Rng.advance (r : Rng) (n : Nat) : Rng := ⟨r.inputs.drop n, r.draws + n⟩

/-- The polynomial of secret byte `k`: draw `k × (m − 1) + (j − 1)` is coefficient `j` (42_share_generator.md rule R124). The
default stands for an answer that is a failure. -/
def Rng.polynomial (r : Rng) (m k : Nat) (secretByte : Byte) : List Byte :=
  secretByte :: (List.range (m - 1)).map fun j => (r.answer (k * (m - 1) + j)).getD 0

/-- The next `n` requests are all answered with a byte. -/
def Rng.answers (r : Rng) (n : Nat) : Prop := ∀ k, k < n → (r.answer k).isSome

/-- The `n`-th request from now on is the first that is answered with failure. -/
def Rng.failsAt (r : Rng) (n : Nat) : Prop := r.answers n ∧ r.answer n = none

/-- The payload with index byte `x` of a secret, for the answers the port is going to give (42_share_generator.md rules R124,
R126, R130). -/
def Rng.payloadOf (r : Rng) (t : Rom) (m : Nat) (secret : List Byte) (x : Byte) : List Byte :=
  x :: secret.zipIdx.map fun p => polySum t x (r.polynomial m p.2 p.1)

/-! ## The search -/

/-- The subsets of exactly `k` of the elements of a list, in lexicographic order of positions
(46_reconstruction_orchestrator.md rule R186). -/
def lexSubsets : Nat → List Nat → List (List Nat)
  | 0, _ => [[]]
  | _ + 1, [] => []
  | k + 1, x :: xs => (lexSubsets k xs).map (x :: ·) ++ lexSubsets (k + 1) xs

/-- The search over a list of subsets: each in turn until one settles the matter (rules R193 to R195). -/
def searchList (examineAt : List Nat → Except OpError Verdict) (lenient : Bool) :
    List (List Nat) → Except OpError (List Byte)
  | [] => .error .reconstructionFailed
  | c :: cs => do
    let v ← examineAt c
    match settles lenient v with
    | some r => r
    | none => searchList examineAt lenient cs

/-! ## The input of RECONSTRUCT -/

/-- The BUF address of share `i` of RECONSTRUCT's input (46_reconstruction_orchestrator.md rule R181). -/
def shareAddr (s : State) (i : Nat) : Nat := s.buf.readNat (wordOperand s 0 + 8 * i) 4

/-- The length of share `i` of RECONSTRUCT's input (R181). -/
def shareLen (s : State) (i : Nat) : Nat := s.buf.readNat (wordOperand s 0 + 8 * i + 4) 4

/-- The fields of the reference header, the first share's, and the payload bytes (R183; 43_header_codec.md rule R135). -/
def refHash (s : State) : Nat := (s.buf.read (shareAddr s 0 + 16)).toNat

/-- The reference header's threshold T (R183). -/
def refThreshold (s : State) : Nat := (s.buf.read (shareAddr s 0 + 17)).toNat

/-- The reference header's share_len SL (R183). -/
def refShareLen (s : State) : Nat := s.buf.readNat (shareAddr s 0 + 18) 2

/-- Payload byte `p` of share `i` of RECONSTRUCT's input. -/
def payloadByte (s : State) (i p : Nat) : Byte := s.buf.read (shareAddr s i + 20 + p)

/-- The first defect the validation pass finds in share `i`, by the four tests of rule R183 in order. -/
def shareDefect (s : State) (i : Nat) : Option OpError :=
  if shareLen s i < 20 then some .malformedShare
  else if ¬s.buf.region (shareAddr s i) (shareLen s i) then some .badAddress
  else if i = 0 ∧ wordOperand s 1 < refThreshold s then some .insufficientShares
  else if s.buf.readBytes (shareAddr s i) 20 ≠ s.buf.readBytes (shareAddr s 0) 20 then some .inconsistentHeaders
  else if shareLen s i - 20 ≠ refShareLen s then some .malformedShare
  else none

/-- RECONSTRUCT's input reaches the search: shares are supplied, their table and they themselves pass step 1, the payloads are
not empty (R182, R183, R184). -/
structure InputValid (s : State) : Prop where
  someShares : wordOperand s 1 ≠ 0
  table : s.buf.region (wordOperand s 0) (8 * wordOperand s 1)
  noDefect : ∀ i, i < wordOperand s 1 → shareDefect s i = none
  notEmpty : refShareLen s ≠ 0

/-- The index bytes of the shares at the positions of a subset (R188). -/
def indexBytes (s : State) (c : List Nat) : List Byte := c.map fun i => payloadByte s i 0

/-- The bytes interpolated from the shares of a subset: SL − 1 of them, byte `p` from payload byte `p + 1` (R189, R190). The
default is never taken. -/
structure IsCandidate (s : State) (c : List Nat) (cand : List Byte) : Prop where
  size : cand.length = refShareLen s - 1
  interpolated : ∀ p, p < refShareLen s - 1 →
    interp0 s.rom (indexBytes s c) (c.map fun i => payloadByte s i (p + 1)) = .ok (cand.getD p 0)

/-- A subset yields `r`: its index bytes are distinct and its candidate is `r` followed by the digest of `r`, which is empty
without a hash (R188, R191, R192). -/
def Yields (s : State) (h : HashAlg) (c : List Nat) (r : List Byte) : Prop :=
  (indexBytes s c).Nodup ∧ IsCandidate s c (r ++ digest s.digestUnit h r)

/-- A subset fails verification: its index bytes are distinct and its candidate is no byte sequence followed by that
sequence's digest, be it too short or be its last bytes different (R192). -/
def FailsVerification (s : State) (h : HashAlg) (c : List Nat) : Prop :=
  (indexBytes s c).Nodup ∧ ∃ cand, IsCandidate s c cand ∧ ∀ r, cand ≠ r ++ digest s.digestUnit h r

/-- The command ends with the result `r`: BadAddress and nothing else when `r` does not fit at DST; otherwise OK with `r` at
DST, its length in RES0, and every other register and byte of BUF as before (R197). -/
def EndsWithResult (i : Instr) (s : State) (r : List Byte) : Prop :=
  (s.args[2].toNat + r.length ≤ s.buf.size →
      ∃ t, exec i s = .next t ∧ t.ecode = 0x00 ∧ t.busy = false ∧ t.done = true ∧ t.res[0].toNat = r.length ∧
        (∀ k : Fin 4, k ≠ 0 → t.res[k] = s.res[k]) ∧ t.args = s.args ∧ t.cmd = s.cmd ∧
        t.buf.readBytes s.args[2].toNat r.length = r ∧
        (∀ a, a < s.args[2].toNat ∨ s.args[2].toNat + r.length ≤ a → t.buf.read a = s.buf.read a)) ∧
    (s.buf.size < s.args[2].toNat + r.length →
      exec i s = .next { s with busy := false, done := true, ecode := 0x12 })

end Sys2Proof.Machine
end

