-- ==== Sys2Proof/Certificates/Slice0/Obligations.lean ====
section
/-! DEFINITION. The statements for the provers. Each docstring names the rule of spec/ it formalises. -/

open Sys2Proof Sys2Proof.Machine

/-! ## Reset and the invariant -/

/-- R40 (restated by R240): what reset leaves in every register. -/
def Obligations.ResetLeavesRegistersZeroAndIdle : Prop :=
  State.reset.cmd = 0 ∧ State.reset.statusWord = 0 ∧
    State.reset.busy = false ∧ State.reset.done = false ∧ State.reset.ecode = 0x00 ∧
    (∀ k : Fin 8, State.reset.args[k] = 0) ∧ (∀ k : Fin 4, State.reset.res[k] = 0)

/-- The invariant holds after reset. It rests on the default tables and on BUF_BYTES = 0x1000, the model's choices of log
entries 2 and 3. -/
def Obligations.ResetMeetsInvariant : Prop := State.reset.Inv

/-- Every step, of the host or of the engine, keeps the invariant (R9, R22 to R24, R31, R211; the canonical form of BUF is the
model's). -/
def Obligations.StepKeepsInvariant : Prop :=
  ∀ s t : State, s.Inv → step s = .next t → t.Inv

/-- No step changes the tables, the digest function or the size of BUF (R31, R39, R42). -/
def Obligations.StepKeepsTablesAndParameters : Prop :=
  ∀ s t : State, step s = .next t → t.rom = s.rom ∧ t.digestUnit = s.digestUnit ∧ t.buf.size = s.buf.size

/-- R42 (with R40, R242): reset does not affect the tables; a reset while a command runs abandons it, leaving BUF as it was and
the registers at the values of R40. The model's choices: that an event carries its place before the completion (log entry 7),
that BUF is kept only by a reset while BUSY and the events after the reset stay pending (log entry 9), and that the abandoned
command had requested no draw, so that the random source's port is unchanged (log entry 18). -/
def Obligations.ResetAbandonsRunningCommand : Prop :=
  (∀ s : State, ∃ t, hostPerform .reset s = .next t ∧ t.rom = s.rom ∧ t.cmd = 0 ∧ t.statusWord = 0 ∧
      (∀ k : Fin 8, t.args[k] = 0) ∧ (∀ k : Fin 4, t.res[k] = 0)) ∧
    (∀ (s : State) (rest : List HostEvent), s.busy = true → s.host = ⟨.reset, true⟩ :: rest →
      ∃ t, step s = .next t ∧ t.busy = false ∧ t.buf = s.buf ∧ t.rom = s.rom ∧ t.cmd = 0 ∧ t.statusWord = 0 ∧
        (∀ k : Fin 8, t.args[k] = 0) ∧ (∀ k : Fin 4, t.res[k] = 0) ∧ t.rng = s.rng ∧ t.host = rest)

/-! ## The host's side -/

/-- R22, R30: a host write of any word to CMD while idle is accepted; while a command runs it is held; CMD reads as the last
accepted word. The list of pending events and the list of replies are the model's (log entry 7). -/
def Obligations.HostWriteOfCmdIsAccepted : Prop :=
  (∀ (s : State) (w : Word) (early : Bool) (rest : List HostEvent),
      s.busy = false → s.host = ⟨.regWrite 0x00 4 w, early⟩ :: rest →
      step s = .next { s with host := rest, cmd := w, busy := true, done := false, ecode := 0x00 }) ∧
    (∀ (s : State) (w : Word) (early : Bool) (rest : List HostEvent),
      s.busy = true → s.host = ⟨.regWrite 0x00 4 w, early⟩ :: rest → step s = completionStep s) ∧
    (∀ s : State, hostPerform (.regRead 0x00 4) s = .next { s with replies := s.replies ++ [.word s.cmd] })

/-- R30: while a command runs, a host register read completes at once with the current value and changes nothing else, STATUS
reading BUSY = 1, DONE = 0, ECODE = 0x00; a host register write and every host BUF access wait for the completion step. The
model's choices: that an event carries its place before the completion (log entry 7), and that an access to which R28 or R52
gives no meaning waits as well, before it stops (log entry 10). -/
def Obligations.BusyHoldsWritesAndBufAccesses : Prop :=
  (∀ (s : State) (r : Reg) (rest : List HostEvent), s.busy = true → s.host = ⟨.regRead r.offset 4, true⟩ :: rest →
      step s = .next { s with host := rest, replies := s.replies ++ [.word (readReg s r)] }) ∧
    (∀ s : State, s.Inv → s.busy = true → readReg s .status = 0x00000001) ∧
    (∀ (s : State) (a : HostAccess) (early : Bool) (rest : List HostEvent), s.busy = true → s.host = ⟨a, early⟩ :: rest →
      ((∃ offset width v, a = .regWrite offset width v) ∨ (∃ addr, a = .bufRead addr) ∨ (∃ addr b, a = .bufWrite addr b)) →
      step s = completionStep s ∧ ∃ t, step s = .next t ∧ t.busy = false ∧ t.host = s.host)

/-- R21, R22, R23, R25, R26, R28: what the host reads at each of the sixteen locations, and that only CMD and the ARG registers
take a written value. The last clause says that a step performs the host's next event whenever it is the host's turn: with no
command running every access, and while one runs a register read, or a reset, placed before the completion (R7, R30; that
events are a list and carry their place is log entry 7). -/
def Obligations.RegisterWindowMap : Prop :=
  ∀ s : State,
    (hostPerform (.regRead 0x00 4) s = .next (s.reply (.word s.cmd))) ∧
    (hostPerform (.regRead 0x04 4) s = .next (s.reply (.word s.statusWord))) ∧
    (hostPerform (.regRead 0x08 4) s = .next (s.reply (.word 0))) ∧
    (hostPerform (.regRead 0x0C 4) s = .next (s.reply (.word 0))) ∧
    (∀ k : Fin 8, hostPerform (.regRead (0x10 + 4 * k) 4) s = .next (s.reply (.word s.args[k]))) ∧
    (∀ k : Fin 4, hostPerform (.regRead (0x30 + 4 * k) 4) s = .next (s.reply (.word s.res[k]))) ∧
    (∀ v, hostPerform (.regWrite 0x04 4 v) s = .next s) ∧
    (∀ v, hostPerform (.regWrite 0x08 4 v) s = .next s) ∧
    (∀ v, hostPerform (.regWrite 0x0C 4 v) s = .next s) ∧
    (∀ v, ∀ k : Fin 8, hostPerform (.regWrite (0x10 + 4 * k) 4 v) s = .next { s with args := s.args.set k v }) ∧
    (∀ v, ∀ k : Fin 4, hostPerform (.regWrite (0x30 + 4 * k) 4 v) s = .next s) ∧
    (∀ v, hostPerform (.regWrite 0x00 4 v) s = .next { s with cmd := v, busy := true, done := false, ecode := 0x00 }) ∧
    (∀ (a : HostAccess) (early : Bool) (rest : List HostEvent), s.host = ⟨a, early⟩ :: rest →
      (s.busy = false ∨ (early = true ∧ (a = .reset ∨ ∃ r : Reg, a = .regRead r.offset 4))) →
      step s = hostPerform a { s with host := rest })

/-- R23: the fields of STATUS and its reserved bits. -/
def Obligations.StatusWordFields : Prop :=
  ∀ s : State,
    s.statusWord.getLsbD 0 = s.busy ∧ s.statusWord.getLsbD 1 = s.done ∧ s.statusWord.extractLsb' 2 6 = 0 ∧
      s.statusWord.extractLsb' 8 8 = s.ecode ∧ s.statusWord.extractLsb' 16 16 = 0

/-- R28: a register access that is not 32 bits wide, not at a multiple of 4, or outside the window has no meaning. The names of
the stops are the model's (log entry 10). -/
def Obligations.MisshapenRegisterAccessStops : Prop :=
  ∀ (s : State) (offset width : Nat) (v : Word), (width ≠ 4 ∨ offset % 4 ≠ 0 ∨ 0x40 ≤ offset) →
    hostPerform (.regRead offset width) s =
        (if 0x40 ≤ offset then .fault (.windowOffset offset) else .refused (.registerAccessShape offset width)) ∧
      hostPerform (.regWrite offset width v) s =
        (if 0x40 ≤ offset then .fault (.windowOffset offset) else .refused (.registerAccessShape offset width))

/-- R52: the host's BUF port moves one byte; outside BUF it has no meaning. The name of the stop is the model's (log
entry 10). -/
def Obligations.HostBufPortMovesOneByte : Prop :=
  (∀ (s : State) (addr : Nat), addr < s.buf.size →
      hostPerform (.bufRead addr) s = .next (s.reply (.byte (s.buf.read addr)))) ∧
    (∀ (s : State) (addr : Nat) (b : Byte), addr < s.buf.size →
      ∃ t, hostPerform (.bufWrite addr b) s = .next t ∧ t.buf.read addr = b ∧
        (∀ a, a ≠ addr → t.buf.read a = s.buf.read a) ∧ t = { s with buf := t.buf } ∧ t.buf.size = s.buf.size) ∧
    (∀ (s : State) (addr : Nat) (b : Byte), s.buf.size ≤ addr →
      hostPerform (.bufRead addr) s = .fault (.hostBufAddress addr) ∧
        hostPerform (.bufWrite addr b) s = .fault (.hostBufAddress addr))

/-- R235: with no command running and no host access pending nothing happens. -/
def Obligations.IdleEngineKeepsItsState : Prop :=
  ∀ s : State, s.busy = false → s.host = [] → step s = .next s

/-- R255, with R24, R30 and R242: every accepted command completes, unless a reset comes first. After some host register reads,
each of which only adds a reply, the next step is the completion step, on the state of acceptance, and leaves BUSY 0 and DONE
1; or else the host's next event is a reset placed before the completion, which abandons the command. The list of events is
the model's (log entry 7). -/
def Obligations.AcceptedCommandCompletes : Prop :=
  ∀ s : State, s.busy = true →
    ∃ (n : Nat) (u t : State), n ≤ s.host.length ∧ Host.Core.run core n s = .next u ∧
      u = { s with host := s.host.drop n, replies := u.replies } ∧ step u = .next t ∧ t.busy = false ∧
      ((completionStep u = .next t ∧ t.done = true) ∨ ∃ rest, u.host = ⟨.reset, true⟩ :: rest)

/-! ## Encoding -/

/-- Decoding and encoding agree in both directions: the word of every command decodes to it, and no other word does (R70 to
R75). -/
def Obligations.DecodeAndEncodeAgree : Prop :=
  ∀ (w : Word) (i : Instr), decode w = .ok i ↔ encode i = w

/-- R74: the decoder gives the row a word selects, the rows are disjoint, and exactly the thirteen words listed are legal. -/
def Obligations.DecoderFollowsOpcodeMap : Prop :=
  (∀ w : Word, ∀ r ∈ opcodeMap, r.selects w = true ↔ ∃ i, decode w = .ok i ∧ i.mnemonic = r.mnemonic) ∧
    (∀ w : Word, ∀ r ∈ opcodeMap, ∀ r' ∈ opcodeMap, r.selects w = true → r'.selects w = true → r = r') ∧
    (∀ w : Word, (∃ i, decode w = .ok i) ↔
      w ∈ ([0x00000001, 0x00000002, 0x00000003, 0x00000004, 0x00000005, 0x00000006, 0x00000007, 0x00000008, 0x00000009,
        0x00000209, 0x0000000A, 0x0000000B, 0x0000010B] : List Word))

/-- R70, R74: words written out from the encoding decode to the commands they stand for. -/
def Obligations.SampleWordsDecode : Prop :=
  decode 0x00000001 = .ok .gfadd ∧ decode 0x00000002 = .ok .gfsub ∧ decode 0x00000003 = .ok .gfmul ∧
    decode 0x00000004 = .ok .gfdiv ∧ decode 0x00000005 = .ok .peval ∧ decode 0x00000006 = .ok .generate ∧
    decode 0x00000007 = .ok .hdrenc ∧ decode 0x00000008 = .ok .hdrdec ∧ decode 0x00000009 = .ok (.share false) ∧
    decode 0x00000209 = .ok (.share true) ∧ decode 0x0000000A = .ok .linterp ∧
    decode 0x0000000B = .ok (.reconstruct false) ∧ decode 0x0000010B = .ok (.reconstruct true)

/-! ## The completion step -/

/-- R24: when the engine has its turn, a step is the completion step of the command the accepted word decodes to. Whose turn it
is stands in the list of events (log entry 7). -/
def Obligations.StepRunsDecodedCommand : Prop :=
  ∀ (s : State) (i : Instr), s.busy = true → (∀ e ∈ s.host.head?, e.beforeCompletion = false) → decode s.cmd = .ok i →
    step s = exec i s

/-- R212: a word that matches no row of the opcode map completes with IllegalCommand; nothing is read or written. (Whose turn it
is stands in the list of events, log entry 7.) -/
def Obligations.UnmappedWordIsIllegalCommand : Prop :=
  ∀ s : State, s.busy = true → (∀ e ∈ s.host.head?, e.beforeCompletion = false) →
    (∀ r ∈ opcodeMap, s.cmd &&& r.mask ≠ r.pattern) →
    step s = .next { s with busy := false, done := true, ecode := 0x10 }

/-- R24, R223: every command's completion step ends in a next state, the engine idle and done with an outcome code, and leaves
CMD, the ARG registers, the tables, the parameters and the host's side as they are. -/
def Obligations.EveryCommandCompletes : Prop :=
  ∀ (i : Instr) (s : State), ∃ t, exec i s = .next t ∧ t.busy = false ∧ t.done = true ∧ t.ecode ∈ legalCodes ∧
    t.cmd = s.cmd ∧ t.args = s.args ∧ t.rom = s.rom ∧ t.digestUnit = s.digestUnit ∧ t.buf.size = s.buf.size ∧
    t.host = s.host ∧ t.replies = s.replies

/-- R222: an error changes the status and nothing else. (The random source's port, no state of the spec, has moved by the
requests made, log entry 6.) -/
def Obligations.ErrorLeavesNoObservableOutput : Prop :=
  ∀ (i : Instr) (s t : State), exec i s = .next t → t.ecode ≠ 0x00 →
    ∃ e : OpError, t = { s with busy := false, done := true, ecode := e.code, rng := t.rng }

/-- R216: which operation can end with which code, exactly; every operation can end OK (SHARE with an identifier). -/
def Obligations.ReachableOutcomes : Prop :=
  (∀ (i : Instr) (e : OpError), e ∈ i.errors ↔ ∃ s t, exec i s = .next t ∧ t.ecode = e.code) ∧
    (∀ i : Instr, i ≠ .share true → ∃ s t, exec i s = .next t ∧ t.ecode = 0x00)

/-- R77: a result register the operation does not name keeps its value. -/
def Obligations.UnnamedResultsKept : Prop :=
  ∀ (i : Instr) (s t : State), exec i s = .next t → ∀ k : Fin 4, k ∉ i.results → t.res[k] = s.res[k]

/-- R25, R77: an argument register the operation does not name is ignored. -/
def Obligations.UnnamedArgumentsIgnored : Prop :=
  ∀ (i : Instr) (s : State) (args : Vector Word 8), (∀ k ∈ i.named, args[k] = s.args[k]) →
    exec i { s with args := args } = withArgs args (exec i s)

/-! ## Frames -/

/-- Commands that store nothing (R91 to R94, R112, R167): only the status and RES0 change; every byte of BUF reads as
before. -/
def Obligations.ScalarCommandsFrame : Prop :=
  ∀ i ∈ ([.gfadd, .gfsub, .gfmul, .gfdiv, .peval, .linterp] : List Instr), ∀ s t : State, exec i s = .next t →
    t.cmd = s.cmd ∧ t.args = s.args ∧ t.res[1] = s.res[1] ∧ t.res[2] = s.res[2] ∧ t.res[3] = s.res[3] ∧
      t.buf = s.buf ∧ (∀ a, t.buf.read a = s.buf.read a) ∧
      t.rom = s.rom ∧ t.digestUnit = s.digestUnit ∧ t.rng = s.rng ∧ t.host = s.host ∧ t.replies = s.replies

/-- HDRENC stores 20 bytes at ARG5 and HDRDEC 16 at ARG2 (R139, R141): every byte outside reads as before; HDRENC writes RES0,
HDRDEC RES0 to RES2. -/
def Obligations.HeaderCommandsFrame : Prop :=
  (∀ s t : State, exec .hdrenc s = .next t →
      t.cmd = s.cmd ∧ t.args = s.args ∧ t.res[1] = s.res[1] ∧ t.res[2] = s.res[2] ∧ t.res[3] = s.res[3] ∧
        (∀ a, a < wordOperand s 5 ∨ wordOperand s 5 + 20 ≤ a → t.buf.read a = s.buf.read a) ∧
        t.rom = s.rom ∧ t.digestUnit = s.digestUnit ∧ t.rng = s.rng ∧ t.host = s.host ∧ t.replies = s.replies) ∧
    (∀ s t : State, exec .hdrdec s = .next t →
      t.cmd = s.cmd ∧ t.args = s.args ∧ t.res[3] = s.res[3] ∧
        (∀ a, a < wordOperand s 2 ∨ wordOperand s 2 + 16 ≤ a → t.buf.read a = s.buf.read a) ∧
        t.rom = s.rom ∧ t.digestUnit = s.digestUnit ∧ t.rng = s.rng ∧ t.host = s.host ∧ t.replies = s.replies)

/-- GENERATE stores N × (L + 1) bytes at ARG4, SHARE N × (21 + L') (R126, R157): every byte outside reads as before; both write
RES0 and RES1 and move the random source's port. -/
def Obligations.GeneratingCommandsFrame : Prop :=
  (∀ s t : State, exec .generate s = .next t →
      t.cmd = s.cmd ∧ t.args = s.args ∧ t.res[2] = s.res[2] ∧ t.res[3] = s.res[3] ∧
        (∀ a, a < wordOperand s 4 ∨ wordOperand s 4 + wordOperand s 1 * (wordOperand s 3 + 1) ≤ a →
          t.buf.read a = s.buf.read a) ∧
        t.rom = s.rom ∧ t.digestUnit = s.digestUnit ∧ t.host = s.host ∧ t.replies = s.replies) ∧
    (∀ (noid : Bool) (s t : State) (h : HashAlg), HashAlg.ofId (wordOperand s 7) = some h →
      exec (.share noid) s = .next t →
      t.cmd = s.cmd ∧ t.args = s.args ∧ t.res[2] = s.res[2] ∧ t.res[3] = s.res[3] ∧
        (∀ a, a < wordOperand s 4 ∨ wordOperand s 4 + wordOperand s 1 * (21 + (wordOperand s 3 + h.dlen)) ≤ a →
          t.buf.read a = s.buf.read a) ∧
        t.rom = s.rom ∧ t.digestUnit = s.digestUnit ∧ t.host = s.host ∧ t.replies = s.replies) ∧
    (∀ (noid : Bool) (s t : State), HashAlg.ofId (wordOperand s 7) = none → exec (.share noid) s = .next t →
      t.buf = s.buf ∧ t.res = s.res ∧ t.rng = s.rng ∧ t.cmd = s.cmd ∧ t.args = s.args ∧
        t.rom = s.rom ∧ t.digestUnit = s.digestUnit ∧ t.host = s.host ∧ t.replies = s.replies)

/-- RECONSTRUCT stores the result, RES0 bytes at ARG2, when it ends OK, and nothing otherwise (R197): every byte outside reads
as before; it writes RES0 only and makes no draw. -/
def Obligations.ReconstructFrame : Prop :=
  ∀ (lenient : Bool) (s t : State), exec (.reconstruct lenient) s = .next t →
    t.cmd = s.cmd ∧ t.args = s.args ∧ t.res[1] = s.res[1] ∧ t.res[2] = s.res[2] ∧ t.res[3] = s.res[3] ∧
      (∀ a, a < wordOperand s 2 ∨ wordOperand s 2 + t.res[0].toNat ≤ a → t.buf.read a = s.buf.read a) ∧
      (t.ecode ≠ 0x00 → t.buf = s.buf ∧ t.res[0] = s.res[0]) ∧
      t.rom = s.rom ∧ t.digestUnit = s.digestUnit ∧ t.rng = s.rng ∧ t.host = s.host ∧ t.replies = s.replies

/-! ## Field arithmetic -/

/-- R91, R92: GFADD and GFSUB both give a xor b for byte operands, and BadOperand otherwise. -/
def Obligations.GfaddAndGfsubXor : Prop :=
  (∀ (s : State) (a b : Byte), s.args[0] = a.setWidth 32 → s.args[1] = b.setWidth 32 →
      exec .gfadd s =
          .next { s with res := s.res.set 0 ((a ^^^ b).setWidth 32), busy := false, done := true, ecode := 0x00 } ∧
        exec .gfsub s =
          .next { s with res := s.res.set 0 ((a ^^^ b).setWidth 32), busy := false, done := true, ecode := 0x00 }) ∧
    (∀ s : State, 0xFF < s.args[0].toNat ∨ 0xFF < s.args[1].toNat →
      exec .gfadd s = .next { s with busy := false, done := true, ecode := 0x11 } ∧
        exec .gfsub s = .next { s with busy := false, done := true, ecode := 0x11 })

/-- R93: GFMUL gives 0 for a zero operand and EXP[(LOG[a] + LOG[b]) mod 255] otherwise; BadOperand for a wide operand. -/
def Obligations.GfmulLooksUpProduct : Prop :=
  (∀ (s : State) (a b : Byte), s.args[0] = a.setWidth 32 → s.args[1] = b.setWidth 32 → a = 0 ∨ b = 0 →
      exec .gfmul s = .next { s with res := s.res.set 0 0, busy := false, done := true, ecode := 0x00 }) ∧
    (∀ (s : State) (a b : Byte), s.args[0] = a.setWidth 32 → s.args[1] = b.setWidth 32 → a ≠ 0 → b ≠ 0 →
      exec .gfmul s =
        .next { s with
          res := s.res.set 0 (s.rom.exp[(s.rom.log[a.toNat].toNat + s.rom.log[b.toNat].toNat) % 255].setWidth 32)
          busy := false, done := true, ecode := 0x00 }) ∧
    (∀ s : State, 0xFF < s.args[0].toNat ∨ 0xFF < s.args[1].toNat →
      exec .gfmul s = .next { s with busy := false, done := true, ecode := 0x11 })

/-- R94: GFDIV raises DivisionByZero for b = 0 first, gives 0 for a = 0, and EXP[(LOG[a] − LOG[b] + 255) mod 255] otherwise;
BadOperand for a wide operand comes before all. -/
def Obligations.GfdivLooksUpQuotient : Prop :=
  (∀ (s : State) (a : Byte), s.args[0] = a.setWidth 32 → s.args[1] = 0 →
      exec .gfdiv s = .next { s with busy := false, done := true, ecode := 0x0A }) ∧
    (∀ (s : State) (b : Byte), s.args[0] = 0 → s.args[1] = b.setWidth 32 → b ≠ 0 →
      exec .gfdiv s = .next { s with res := s.res.set 0 0, busy := false, done := true, ecode := 0x00 }) ∧
    (∀ (s : State) (a b : Byte), s.args[0] = a.setWidth 32 → s.args[1] = b.setWidth 32 → a ≠ 0 → b ≠ 0 →
      exec .gfdiv s =
        .next { s with
          res := s.res.set 0 (s.rom.exp[(s.rom.log[a.toNat].toNat + 255 - s.rom.log[b.toNat].toNat) % 255].setWidth 32)
          busy := false, done := true, ecode := 0x00 }) ∧
    (∀ s : State, 0xFF < s.args[0].toNat ∨ 0xFF < s.args[1].toNat →
      exec .gfdiv s = .next { s with busy := false, done := true, ecode := 0x11 })

/-- R213: a `byte!` operand above 0xFF or a `half!` operand above 0xFFFF raises BadOperand before every other check. -/
def Obligations.WideOperandsRaiseBadOperand : Prop :=
  ∀ s : State,
    ((0xFF < s.args[0].toNat ∨ 0xFF < s.args[1].toNat) → ∀ i ∈ ([.gfadd, .gfsub, .gfmul, .gfdiv] : List Instr),
        exec i s = .next { s with busy := false, done := true, ecode := 0x11 }) ∧
      (0xFF < s.args[0].toNat → exec .peval s = .next { s with busy := false, done := true, ecode := 0x11 }) ∧
      ((0xFF < s.args[2].toNat ∨ 0xFF < s.args[3].toNat ∨ 0xFFFF < s.args[4].toNat) →
        exec .hdrenc s = .next { s with busy := false, done := true, ecode := 0x11 })

/-- R97, item 1: for every valid pair of parameters the engine's product is the product of the field of R32. -/
def Obligations.ProductIsFieldProduct : Prop :=
  ∀ (t : Rom) (p : BitVec 9) (g : Byte), Config.fieldOk p g = true → t.builtFrom p g →
    ∀ a b : Byte, gfMul t a b = fieldProd p a b

/-- R97, items 3 and 5: for every valid pair of parameters the product is commutative and associative, has the neutral element
0x01, absorbs 0x00, distributes over the sum, and has no zero divisors. -/
def Obligations.FieldLawsOfProduct : Prop :=
  ∀ t : Rom, t.valid → ∀ a b c : Byte,
    gfMul t a b = gfMul t b a ∧ gfMul t (gfMul t a b) c = gfMul t a (gfMul t b c) ∧
      gfMul t a 1 = a ∧ gfMul t 1 a = a ∧ gfMul t a 0 = 0 ∧ gfMul t 0 a = 0 ∧
      gfMul t a (gfAdd b c) = gfAdd (gfMul t a b) (gfMul t a c) ∧
      (gfMul t a b = 0 → a = 0 ∨ b = 0)

/-- R97, item 4: for every valid pair of parameters and b ≠ 0 the quotient is the unique c with mul(c, b) = a, and division
and multiplication undo each other. -/
def Obligations.QuotientUndoesProduct : Prop :=
  ∀ t : Rom, t.valid → ∀ a b : Byte, b ≠ 0 →
    (∃ c, gfDiv t a b = .ok c ∧ gfMul t c b = a ∧ ∀ c', gfMul t c' b = a → c' = c) ∧
      gfDiv t (gfMul t a b) b = .ok a ∧ gfDiv t b b = .ok 1

/-! ## The polynomial evaluator -/

/-- R112: PEVAL, whole: the checks in order, and the value of `peval` in RES0. -/
def Obligations.PevalResultAndChecks : Prop :=
  (∀ (s : State) (x : Byte), s.args[0] = x.setWidth 32 → x ≠ 0 →
      s.args[1].toNat + s.args[2].toNat ≤ s.buf.size →
      exec .peval s =
        .next { s with
          res := s.res.set 0 ((polySum s.rom x (s.buf.readBytes s.args[1].toNat s.args[2].toNat)).setWidth 32)
          busy := false, done := true, ecode := 0x00 }) ∧
    (∀ s : State, 0xFF < s.args[0].toNat → exec .peval s = .next { s with busy := false, done := true, ecode := 0x11 }) ∧
    (∀ s : State, s.args[0] = 0 → exec .peval s = .next { s with busy := false, done := true, ecode := 0x0B }) ∧
    (∀ s : State, s.args[0] ≠ 0 → s.args[0].toNat ≤ 0xFF → s.buf.size < s.args[1].toNat + s.args[2].toNat →
      exec .peval s = .next { s with busy := false, done := true, ecode := 0x12 })

/-- R113: the running-power loop computes `c[0] + c[1]·x + c[2]·x^2 + …`. -/
def Obligations.PevalComputesPolynomial : Prop :=
  ∀ (t : Rom) (x : Byte) (c : List Byte), polySum t x c = polyValue t x c

/-! ## The share generator -/

/-- R124, R126, R127, R130: with valid parameters and regions and every draw answered with a byte, GENERATE ends OK; payload i,
its index byte i + 1 and one value per secret byte of the polynomials of the draws in order, stands at DST + i × (L + 1);
RES0 = L + 1, RES1 = N; exactly (M − 1) × L draws are made; every other byte of BUF is unchanged. The secret is read from BUF
as it was before. -/
def Obligations.GenerateWritesPayloads : Prop :=
  ∀ s : State, paramsOk s.args[0].toNat s.args[1].toNat s.args[3].toNat →
    s.args[2].toNat + s.args[3].toNat ≤ s.buf.size →
    s.args[4].toNat + s.args[1].toNat * (s.args[3].toNat + 1) ≤ s.buf.size →
    s.rng.answers (s.args[3].toNat * (s.args[0].toNat - 1)) →
    ∃ t, exec .generate s = .next t ∧ t.ecode = 0x00 ∧ t.busy = false ∧ t.done = true ∧
      t.res[0].toNat = s.args[3].toNat + 1 ∧ t.res[1].toNat = s.args[1].toNat ∧
      t.rng = s.rng.advance (s.args[3].toNat * (s.args[0].toNat - 1)) ∧
      (∀ i, i < s.args[1].toNat →
        t.buf.readBytes (s.args[4].toNat + i * (s.args[3].toNat + 1)) (s.args[3].toNat + 1) =
          s.rng.payloadOf s.rom s.args[0].toNat (s.buf.readBytes s.args[2].toNat s.args[3].toNat)
            (BitVec.ofNat 8 (i + 1))) ∧
      (∀ a, a < s.args[4].toNat ∨ s.args[4].toNat + s.args[1].toNat * (s.args[3].toNat + 1) ≤ a →
        t.buf.read a = s.buf.read a)

/-- R121, R122: the parameter check and, after it, the address check of GENERATE; no draw is made. -/
def Obligations.GenerateChecksInOrder : Prop :=
  (∀ s : State,
      (65534 < s.args[3].toNat ∨ s.args[0].toNat < 1 ∨ 254 < s.args[0].toNat ∨ s.args[1].toNat < s.args[0].toNat ∨
        254 < s.args[1].toNat) →
      exec .generate s = .next { s with busy := false, done := true, ecode := 0x01 }) ∧
    (∀ s : State, paramsOk s.args[0].toNat s.args[1].toNat s.args[3].toNat →
      (s.buf.size < s.args[2].toNat + s.args[3].toNat ∨
        s.buf.size < s.args[4].toNat + s.args[1].toNat * (s.args[3].toNat + 1)) →
      exec .generate s = .next { s with busy := false, done := true, ecode := 0x12 })

/-- R125, R215: a draw answered with failure ends GENERATE and SHARE with RngFailure; nothing is written, and no draw follows
the failed one. -/
def Obligations.FailedDrawEndsGeneration : Prop :=
  (∀ (s : State) (k : Nat), paramsOk s.args[0].toNat s.args[1].toNat s.args[3].toNat →
      s.args[2].toNat + s.args[3].toNat ≤ s.buf.size →
      s.args[4].toNat + s.args[1].toNat * (s.args[3].toNat + 1) ≤ s.buf.size →
      s.rng.failsAt k → k < s.args[3].toNat * (s.args[0].toNat - 1) →
      exec .generate s =
        .next { s with busy := false, done := true, ecode := 0x13, rng := s.rng.advance (k + 1) }) ∧
    (∀ (s : State) (h : HashAlg) (k : Nat), HashAlg.ofId s.args[7].toNat = some h →
      paramsOk s.args[0].toNat s.args[1].toNat (s.args[3].toNat + h.dlen) →
      s.args[2].toNat + s.args[3].toNat ≤ s.buf.size →
      s.args[5].toNat + s.args[6].toNat ≤ s.buf.size →
      s.args[4].toNat + s.args[1].toNat * (21 + (s.args[3].toNat + h.dlen)) ≤ s.buf.size →
      s.rng.failsAt k → k < (s.args[3].toNat + h.dlen) * (s.args[0].toNat - 1) →
      exec (.share false) s =
        .next { s with busy := false, done := true, ecode := 0x13, rng := s.rng.advance (k + 1) })

/-! ## The header codec -/

/-- R137: the identifier field keeps the first 16 bytes and pads at the end with zero bytes. -/
def Obligations.IdentifierFieldTruncatesOrPads : Prop :=
  ∀ id : List Byte,
    (16 ≤ id.length → idField id = id.take 16) ∧
      (id.length < 16 → idField id = id ++ List.replicate (16 - id.length) 0) ∧ (idField id).length = 16

/-- R138, R139: HDRENC, whole: the checks in order, the 20 bytes at DST, RES0 = 20, and every other byte of BUF unchanged. -/
def Obligations.HdrencWritesHeader : Prop :=
  (∀ s : State, s.args[2].toNat ≤ 0xFF → s.args[3].toNat ≤ 0xFF → s.args[4].toNat ≤ 0xFFFF →
      s.args[0].toNat + s.args[1].toNat ≤ s.buf.size → s.args[5].toNat + 20 ≤ s.buf.size →
      ∃ t, exec .hdrenc s = .next t ∧ t.ecode = 0x00 ∧ t.busy = false ∧ t.done = true ∧ t.res = s.res.set 0 20 ∧
        t.buf.readBytes s.args[5].toNat 20 =
          idField (s.buf.readBytes s.args[0].toNat s.args[1].toNat) ++
            [s.args[2].setWidth 8, s.args[3].setWidth 8, s.args[4].extractLsb' 8 8, s.args[4].extractLsb' 0 8] ∧
        (∀ a, a < s.args[5].toNat ∨ s.args[5].toNat + 20 ≤ a → t.buf.read a = s.buf.read a)) ∧
    (∀ s : State, 0xFF < s.args[2].toNat ∨ 0xFF < s.args[3].toNat ∨ 0xFFFF < s.args[4].toNat →
      exec .hdrenc s = .next { s with busy := false, done := true, ecode := 0x11 }) ∧
    (∀ s : State, s.args[2].toNat ≤ 0xFF → s.args[3].toNat ≤ 0xFF → s.args[4].toNat ≤ 0xFFFF →
      (s.buf.size < s.args[0].toNat + s.args[1].toNat ∨ s.buf.size < s.args[5].toNat + 20) →
      exec .hdrenc s = .next { s with busy := false, done := true, ecode := 0x12 })

/-- R141: HDRDEC, whole: the checks in order, the identifier's 16 bytes at IDDST, the three fields in RES0 to RES2, every other
byte of BUF unchanged; the source is read as it was before. -/
def Obligations.HdrdecReadsHeader : Prop :=
  (∀ s : State, 20 ≤ s.args[1].toNat → s.args[0].toNat + s.args[1].toNat ≤ s.buf.size →
      s.args[2].toNat + 16 ≤ s.buf.size →
      ∃ t, exec .hdrdec s = .next t ∧ t.ecode = 0x00 ∧ t.busy = false ∧ t.done = true ∧
        t.buf.readBytes s.args[2].toNat 16 = s.buf.readBytes s.args[0].toNat 16 ∧
        t.res[0] = (s.buf.read (s.args[0].toNat + 16)).setWidth 32 ∧
        t.res[1] = (s.buf.read (s.args[0].toNat + 17)).setWidth 32 ∧
        t.res[2].toNat =
          256 * (s.buf.read (s.args[0].toNat + 18)).toNat + (s.buf.read (s.args[0].toNat + 19)).toNat ∧
        t.res[3] = s.res[3] ∧
        (∀ a, a < s.args[2].toNat ∨ s.args[2].toNat + 16 ≤ a → t.buf.read a = s.buf.read a)) ∧
    (∀ s : State, s.args[1].toNat < 20 → exec .hdrdec s = .next { s with busy := false, done := true, ecode := 0x03 }) ∧
    (∀ s : State, 20 ≤ s.args[1].toNat →
      (s.buf.size < s.args[0].toNat + s.args[1].toNat ∨ s.buf.size < s.args[2].toNat + 16) →
      exec .hdrdec s = .next { s with busy := false, done := true, ecode := 0x12 })

/-- R142: the codec's two functions are inverse to each other, up to the identifier field. -/
def Obligations.HeaderCodecInverse : Prop :=
  (∀ (id : List Byte) (h t hi lo : Byte), id.length = 16 →
      encodeHeader id h t (256 * hi.toNat + lo.toNat) = id ++ [h, t, hi, lo]) ∧
    (∀ (id : List Byte) (h t : Byte) (sl : Nat), sl ≤ 65535 →
      decodeHeader (encodeHeader id h t sl) = .ok ⟨idField id, h, t, sl⟩)

/-! ## Share creation -/

/-- R154 to R158: with an identifier, a known hash id, valid parameters and regions and every draw answered with a byte, SHARE
ends OK; share i, the one header and the payload of the digest-extended secret with index byte i + 1, stands at
DST + i × (21 + L'); RES0 = 21 + L', RES1 = N; every other byte of BUF is unchanged. -/
def Obligations.ShareWritesShares : Prop :=
  ∀ (s : State) (h : HashAlg) (secret : List Byte), HashAlg.ofId s.args[7].toNat = some h →
    paramsOk s.args[0].toNat s.args[1].toNat (s.args[3].toNat + h.dlen) →
    s.args[2].toNat + s.args[3].toNat ≤ s.buf.size →
    s.args[5].toNat + s.args[6].toNat ≤ s.buf.size →
    s.args[4].toNat + s.args[1].toNat * (21 + (s.args[3].toNat + h.dlen)) ≤ s.buf.size →
    s.rng.answers ((s.args[3].toNat + h.dlen) * (s.args[0].toNat - 1)) →
    secret = s.buf.readBytes s.args[2].toNat s.args[3].toNat →
    ∃ t, exec (.share false) s = .next t ∧ t.ecode = 0x00 ∧ t.busy = false ∧ t.done = true ∧
      t.res[0].toNat = 21 + (s.args[3].toNat + h.dlen) ∧ t.res[1].toNat = s.args[1].toNat ∧
      t.rng = s.rng.advance ((s.args[3].toNat + h.dlen) * (s.args[0].toNat - 1)) ∧
      (∀ i, i < s.args[1].toNat →
        t.buf.readBytes (s.args[4].toNat + i * (21 + (s.args[3].toNat + h.dlen))) (21 + (s.args[3].toNat + h.dlen)) =
          encodeHeader (s.buf.readBytes s.args[5].toNat s.args[6].toNat) (s.args[7].setWidth 8) (s.args[0].setWidth 8)
              (s.args[3].toNat + h.dlen + 1) ++
            s.rng.payloadOf s.rom s.args[0].toNat
              (if h = .noHash then secret else secret ++ digest s.digestUnit h secret) (BitVec.ofNat 8 (i + 1))) ∧
      (∀ a, a < s.args[4].toNat ∨ s.args[4].toNat + s.args[1].toNat * (21 + (s.args[3].toNat + h.dlen)) ≤ a →
        t.buf.read a = s.buf.read a)

/-- R151 to R153: the parameter checks of SHARE, the absent identifier first, and after them the address checks; no draw is
made. -/
def Obligations.ShareChecksInOrder : Prop :=
  (∀ s : State, exec (.share true) s = .next { s with busy := false, done := true, ecode := 0x01 }) ∧
    (∀ s : State, 2 < s.args[7].toNat →
      exec (.share false) s = .next { s with busy := false, done := true, ecode := 0x01 }) ∧
    (∀ (s : State) (h : HashAlg), HashAlg.ofId s.args[7].toNat = some h →
      ¬paramsOk s.args[0].toNat s.args[1].toNat (s.args[3].toNat + h.dlen) →
      exec (.share false) s = .next { s with busy := false, done := true, ecode := 0x01 }) ∧
    (∀ (s : State) (h : HashAlg), HashAlg.ofId s.args[7].toNat = some h →
      paramsOk s.args[0].toNat s.args[1].toNat (s.args[3].toNat + h.dlen) →
      (s.buf.size < s.args[2].toNat + s.args[3].toNat ∨ s.buf.size < s.args[5].toNat + s.args[6].toNat ∨
        s.buf.size < s.args[4].toNat + s.args[1].toNat * (21 + (s.args[3].toNat + h.dlen))) →
      exec (.share false) s = .next { s with busy := false, done := true, ecode := 0x12 })

/-- R8, R11: the digest of every unit has the length its algorithm gives. -/
def Obligations.DigestHasItsLength : Prop :=
  ∀ (u : DigestUnit) (h : HashAlg) (m : List Byte), (digest u h m).length = h.dlen

/-! ## The interpolation engine -/

/-- R167: LINTERP, whole: BadAddress for either region, DivisionByZero for equal x-coordinates, and otherwise the interpolated
byte in RES0. -/
def Obligations.LinterpResultAndChecks : Prop :=
  (∀ s : State, s.args[0].toNat + s.args[2].toNat ≤ s.buf.size → s.args[1].toNat + s.args[2].toNat ≤ s.buf.size →
      (s.buf.readBytes s.args[0].toNat s.args[2].toNat).Nodup →
      ∃ b, interp0 s.rom (s.buf.readBytes s.args[0].toNat s.args[2].toNat)
            (s.buf.readBytes s.args[1].toNat s.args[2].toNat) = .ok b ∧
        exec .linterp s =
          .next { s with res := s.res.set 0 (b.setWidth 32), busy := false, done := true, ecode := 0x00 }) ∧
    (∀ s : State, s.args[0].toNat + s.args[2].toNat ≤ s.buf.size → s.args[1].toNat + s.args[2].toNat ≤ s.buf.size →
      ¬(s.buf.readBytes s.args[0].toNat s.args[2].toNat).Nodup →
      exec .linterp s = .next { s with busy := false, done := true, ecode := 0x0A }) ∧
    (∀ s : State, s.buf.size < s.args[0].toNat + s.args[2].toNat ∨ s.buf.size < s.args[1].toNat + s.args[2].toNat →
      exec .linterp s = .next { s with busy := false, done := true, ecode := 0x12 })

/-- R168: interpolation raises DivisionByZero exactly when two x-coordinates coincide, always for more than 256 points, and
nothing else. -/
def Obligations.InterpolationFailsOnlyOnEqualCoordinates : Prop :=
  ∀ (t : Rom) (u v : List Byte), u.length = v.length →
    (interp0 t u v = .error .divisionByZero ↔ ¬u.Nodup) ∧ (u.Nodup → ∃ b, interp0 t u v = .ok b) ∧
      (256 < u.length → interp0 t u v = .error .divisionByZero)

/-- R170: for every valid pair of parameters and distinct x-coordinates, exactly one polynomial with as many coefficients as
points passes through the points and interpolation gives its constant term; it also gives the constant term of every
polynomial with fewer coefficients that passes through them. -/
def Obligations.InterpolationRecoversConstantTerm : Prop :=
  ∀ (t : Rom) (u v : List Byte), t.valid → u.length = v.length → u.Nodup →
    (∃ c : List Byte, c.length = u.length ∧ u.map (fun x => polyValue t x c) = v ∧ interp0 t u v = .ok (c.headD 0) ∧
        ∀ c' : List Byte, c'.length = u.length → u.map (fun x => polyValue t x c') = v → c' = c) ∧
      (∀ c : List Byte, c.length ≤ u.length → u.map (fun x => polyValue t x c) = v → interp0 t u v = .ok (c.headD 0))

/-! ## Reconstruction -/

/-- R182: no shares raise InsufficientShares; a table outside BUF raises BadAddress. -/
def Obligations.ReconstructNeedsSharesAndTable : Prop :=
  (∀ (lenient : Bool) (s : State), s.args[1] = 0 →
      exec (.reconstruct lenient) s = .next { s with busy := false, done := true, ecode := 0x06 }) ∧
    (∀ (lenient : Bool) (s : State), s.args[1] ≠ 0 → s.buf.size < s.args[0].toNat + 8 * s.args[1].toNat →
      exec (.reconstruct lenient) s = .next { s with busy := false, done := true, ecode := 0x12 })

/-- R183: the pass reports the first defect of the lowest-numbered defective share. -/
def Obligations.ValidationReportsFirstDefect : Prop :=
  ∀ (lenient : Bool) (s : State) (i : Nat) (e : OpError), s.args[1] ≠ 0 →
    s.args[0].toNat + 8 * s.args[1].toNat ≤ s.buf.size →
    i < s.args[1].toNat → (∀ j, j < i → shareDefect s j = none) → shareDefect s i = some e →
    exec (.reconstruct lenient) s = .next { s with busy := false, done := true, ecode := e.code }

/-- R184, R185: after the pass an empty payload raises MalformedShare, and then an unknown hash id raises
UnsupportedHashAlgorithm, in both modes. -/
def Obligations.EmptyPayloadAndUnknownHash : Prop :=
  (∀ (lenient : Bool) (s : State), s.args[1] ≠ 0 → s.args[0].toNat + 8 * s.args[1].toNat ≤ s.buf.size →
      (∀ i, i < s.args[1].toNat → shareDefect s i = none) → refShareLen s = 0 →
      exec (.reconstruct lenient) s = .next { s with busy := false, done := true, ecode := 0x04 }) ∧
    (∀ (lenient : Bool) (s : State), InputValid s → 2 < refHash s →
      exec (.reconstruct lenient) s = .next { s with busy := false, done := true, ecode := 0x02 })

/-- R186: the list the search is compared with is what the rule describes: all strictly ascending tuples of k positions below
n, each once, in lexicographic order, C(n, k) of them. -/
def Obligations.SubsetListIsLexicographic : Prop :=
  ∀ k n : Nat,
    (lexSubsets k (List.range n)).length = n.choose k ∧
      (∀ c, c ∈ lexSubsets k (List.range n) ↔ c.length = k ∧ c.Pairwise (· < ·) ∧ ∀ x ∈ c, x < n) ∧
      (lexSubsets k (List.range n)).Pairwise (List.Lex (· < ·))

/-- R186, R187, R200: the search by `successor` from the first subset on examines exactly the subsets of the lexicographic
list, in order, and the model's bound on it (log entry 13) is never what ends it. What a finding does to the search is the
same function on both sides; LenientReconstructOutcome and StrictReconstructOutcome say what it does. -/
def Obligations.SearchFollowsLexicographicOrder : Prop :=
  ∀ (examineAt : List Nat → Except OpError Verdict) (lenient : Bool) (count t : Nat), 0 < count → t ≤ count →
    searchFrom examineAt lenient count t (count ^ t) (firstSubset t) =
      searchList examineAt lenient (lexSubsets t (List.range count))

/-- R193: strict mode examines the first T shares only; it yields their result or raises DuplicateIndex or HashMismatch. The
second part says what an examination finds (R188 to R192): a duplicate when two index bytes coincide; otherwise, for the
interpolated candidate, `r` when it is `r` followed by the whole digest of `r` (nothing, without a hash), and a mismatch when
it is of no such form, because it is too short or because its last bytes differ. -/
def Obligations.StrictModeExaminesFirstSubsetOnly : Prop :=
  (∀ (rom : Rom) (u : DigestUnit) (h : HashAlg) (t sl : Nat) (pays : List (List Byte)), pays ≠ [] → t ≤ pays.length →
    (∀ r, examine rom u h sl (pays.take t) = .ok (.accept r) → search rom u h false t sl pays = .ok r) ∧
      (examine rom u h sl (pays.take t) = .ok .duplicate → search rom u h false t sl pays = .error .duplicateIndex) ∧
      (examine rom u h sl (pays.take t) = .ok .mismatch → search rom u h false t sl pays = .error .hashMismatch) ∧
      search rom u h false t sl pays ≠ .error .reconstructionFailed ∧
      ∃ v, examine rom u h sl (pays.take t) = .ok v) ∧
    (∀ (rom : Rom) (u : DigestUnit) (h : HashAlg) (sl : Nat) (pays : List (List Byte)),
      (¬(pays.map (·.getD 0 0)).Nodup → examine rom u h sl pays = .ok .duplicate) ∧
        ((pays.map (·.getD 0 0)).Nodup → ∃ cand : List Byte, cand.length = sl - 1 ∧
          (∀ p, p < sl - 1 →
            interp0 rom (pays.map (·.getD 0 0)) (pays.map (·.getD (p + 1) 0)) = .ok (cand.getD p 0)) ∧
          (∀ r, cand = r ++ digest u h r → examine rom u h sl pays = .ok (.accept r)) ∧
          ((∀ r, cand ≠ r ++ digest u h r) → examine rom u h sl pays = .ok .mismatch)))

/-- R188 to R192, R197: for valid input without a hash whose first T shares have distinct index bytes, RECONSTRUCT ends OK in
either mode: byte p of the result is interpolated from payload byte p + 1 of the first T shares, stands at DST + p, RES0 is
SL − 1, and every other byte of BUF is unchanged. -/
def Obligations.ReconstructWithoutHashInterpolates : Prop :=
  ∀ (lenient : Bool) (s : State), InputValid s → refHash s = 0 →
    ((List.range (refThreshold s)).map fun i => payloadByte s i 0).Nodup →
    s.args[2].toNat + (refShareLen s - 1) ≤ s.buf.size →
    ∃ t, exec (.reconstruct lenient) s = .next t ∧ t.ecode = 0x00 ∧ t.busy = false ∧ t.done = true ∧
      t.res[0].toNat = refShareLen s - 1 ∧
      (∀ p, p < refShareLen s - 1 →
        interp0 s.rom ((List.range (refThreshold s)).map fun i => payloadByte s i 0)
          ((List.range (refThreshold s)).map fun i => payloadByte s i (p + 1)) = .ok (t.buf.read (s.args[2].toNat + p))) ∧
      (∀ a, a < s.args[2].toNat ∨ s.args[2].toNat + (refShareLen s - 1) ≤ a → t.buf.read a = s.buf.read a)

/-- R199: RECONSTRUCT's outcome, RES0 and output are a function of the flag, ARG0 to ARG2, BUF and the parameters, and it makes
no draw. -/
def Obligations.ReconstructIsDeterministic : Prop :=
  ∀ (lenient : Bool) (s s' t t' : State), s.args[0] = s'.args[0] → s.args[1] = s'.args[1] → s.args[2] = s'.args[2] →
    s.buf = s'.buf → s.rom = s'.rom → s.digestUnit = s'.digestUnit →
    exec (.reconstruct lenient) s = .next t → exec (.reconstruct lenient) s' = .next t' →
    t.ecode = t'.ecode ∧ t.buf = t'.buf ∧ (t.ecode = 0x00 → t.res[0] = t'.res[0]) ∧ t.rng = s.rng

/-- R202: let SHARE complete OK, under any answers of the random source. RECONSTRUCT, in either mode, on any K ≥ M of the N
shares it wrote, unmodified, pairwise different and in any order, completes OK, writes exactly the secret, and RES0 is its
length. `idx` names the shares supplied, in the order supplied. -/
def Obligations.ShareReconstructRoundTrip : Prop :=
  ∀ (s t u : State) (idx : List Nat) (lenient : Bool), s.rom.valid →
    exec (.share false) s = .next t → t.ecode = 0x00 →
    u.rom = s.rom → u.digestUnit = s.digestUnit →
    idx.Nodup → (∀ i ∈ idx, i < s.args[1].toNat) → s.args[0].toNat ≤ idx.length → u.args[1].toNat = idx.length →
    u.args[0].toNat + 8 * idx.length ≤ u.buf.size →
    (∀ k i, idx[k]? = some i →
      shareLen u k = t.res[0].toNat ∧ shareAddr u k + shareLen u k ≤ u.buf.size ∧
        u.buf.readBytes (shareAddr u k) (shareLen u k) =
          t.buf.readBytes (s.args[4].toNat + i * t.res[0].toNat) t.res[0].toNat) →
    u.args[2].toNat + s.args[3].toNat ≤ u.buf.size →
    ∃ v, exec (.reconstruct lenient) u = .next v ∧ v.ecode = 0x00 ∧ v.res[0] = s.args[3] ∧
      v.buf.readBytes u.args[2].toNat s.args[3].toNat = s.buf.readBytes s.args[2].toNat s.args[3].toNat

/-- R188 to R193, R197: RECONSTRUCT in strict mode on valid input with a known hash id, whole: the first T shares decide. When
they yield a result it is written, or BadAddress is raised when it does not fit at DST; when two of their index bytes coincide
DuplicateIndex, and when their candidate fails verification HashMismatch is raised. There is no fourth case. -/
def Obligations.StrictReconstructOutcome : Prop :=
  ∀ (s : State) (h : HashAlg), InputValid s → HashAlg.ofId (refHash s) = some h →
    (∀ r, Yields s h (List.range (refThreshold s)) r → EndsWithResult (.reconstruct false) s r) ∧
      (¬(indexBytes s (List.range (refThreshold s))).Nodup →
        exec (.reconstruct false) s = .next { s with busy := false, done := true, ecode := 0x07 }) ∧
      (FailsVerification s h (List.range (refThreshold s)) →
        exec (.reconstruct false) s = .next { s with busy := false, done := true, ecode := 0x08 }) ∧
      (¬(indexBytes s (List.range (refThreshold s))).Nodup ∨ FailsVerification s h (List.range (refThreshold s)) ∨
        ∃ r, Yields s h (List.range (refThreshold s)) r)

/-- R194, R195, with R186 and R197: RECONSTRUCT in lenient mode on valid input with a known hash id, whole: a subset with
coinciding index bytes and a subset that fails verification are skipped; the first subset in lexicographic order that yields a
result ends the search with it; when none does ReconstructionFailed is raised. Every subset is of one of the three kinds. -/
def Obligations.LenientReconstructOutcome : Prop :=
  ∀ (s : State) (h : HashAlg), InputValid s → HashAlg.ofId (refHash s) = some h →
    (∀ (k : Nat) (c : List Nat) (r : List Byte),
        (lexSubsets (refThreshold s) (List.range s.args[1].toNat))[k]? = some c →
        (∀ (j : Nat) (c' : List Nat), j < k →
          (lexSubsets (refThreshold s) (List.range s.args[1].toNat))[j]? = some c' →
          ¬(indexBytes s c').Nodup ∨ FailsVerification s h c') →
        Yields s h c r → EndsWithResult (.reconstruct true) s r) ∧
      ((∀ c ∈ lexSubsets (refThreshold s) (List.range s.args[1].toNat),
          ¬(indexBytes s c).Nodup ∨ FailsVerification s h c) →
        exec (.reconstruct true) s = .next { s with busy := false, done := true, ecode := 0x09 }) ∧
      (∀ c ∈ lexSubsets (refThreshold s) (List.range s.args[1].toNat),
        ¬(indexBytes s c).Nodup ∨ FailsVerification s h c ∨ ∃ r, Yields s h c r)
end

