-- ==== Sys2Proof/Laws/Decode.lean ====
section
/-! SUPPORT. Decoding and encoding: the fields of a packed word, and decoding after encoding for each constructor. -/

namespace Sys2Proof

@[simp] theorem opField_packWord (op : Byte) (len noid : Bool) : opField (packWord op len noid) = op.toNat := by
  revert op len noid; decide +kernel

@[simp] theorem lenField_packWord (op : Byte) (len noid : Bool) : lenField (packWord op len noid) = len := by
  revert op len noid; decide +kernel

@[simp] theorem noidField_packWord (op : Byte) (len noid : Bool) : noidField (packWord op len noid) = noid := by
  revert op len noid; decide +kernel

@[simp] theorem zeroField_packWord (op : Byte) (len noid : Bool) : zeroField (packWord op len noid) = 0 := by
  revert op len noid; decide +kernel

end Sys2Proof
end

