-- ==== Sys2Proof/Laws/State.lean ====
section
/-! SUPPORT. What each named update of the state does to each field. -/

namespace Sys2Proof.Machine

@[simp] theorem State.accept_cmd (s : State) (w : Word) : (s.accept w).cmd = w := rfl
@[simp] theorem State.accept_busy (s : State) (w : Word) : (s.accept w).busy = true := rfl
@[simp] theorem State.accept_done (s : State) (w : Word) : (s.accept w).done = false := rfl
@[simp] theorem State.accept_ecode (s : State) (w : Word) : (s.accept w).ecode = okCode := rfl
@[simp] theorem State.accept_args (s : State) (w : Word) : (s.accept w).args = s.args := rfl
@[simp] theorem State.accept_res (s : State) (w : Word) : (s.accept w).res = s.res := rfl
@[simp] theorem State.accept_buf (s : State) (w : Word) : (s.accept w).buf = s.buf := rfl
@[simp] theorem State.accept_rom (s : State) (w : Word) : (s.accept w).rom = s.rom := rfl
@[simp] theorem State.accept_digestUnit (s : State) (w : Word) : (s.accept w).digestUnit = s.digestUnit := rfl
@[simp] theorem State.accept_rng (s : State) (w : Word) : (s.accept w).rng = s.rng := rfl
@[simp] theorem State.accept_host (s : State) (w : Word) : (s.accept w).host = s.host := rfl
@[simp] theorem State.accept_replies (s : State) (w : Word) : (s.accept w).replies = s.replies := rfl

@[simp] theorem State.finish_cmd (s : State) (c : Byte) : (s.finish c).cmd = s.cmd := rfl
@[simp] theorem State.finish_busy (s : State) (c : Byte) : (s.finish c).busy = false := rfl
@[simp] theorem State.finish_done (s : State) (c : Byte) : (s.finish c).done = true := rfl
@[simp] theorem State.finish_ecode (s : State) (c : Byte) : (s.finish c).ecode = c := rfl
@[simp] theorem State.finish_args (s : State) (c : Byte) : (s.finish c).args = s.args := rfl
@[simp] theorem State.finish_res (s : State) (c : Byte) : (s.finish c).res = s.res := rfl
@[simp] theorem State.finish_buf (s : State) (c : Byte) : (s.finish c).buf = s.buf := rfl
@[simp] theorem State.finish_rom (s : State) (c : Byte) : (s.finish c).rom = s.rom := rfl
@[simp] theorem State.finish_digestUnit (s : State) (c : Byte) : (s.finish c).digestUnit = s.digestUnit := rfl
@[simp] theorem State.finish_rng (s : State) (c : Byte) : (s.finish c).rng = s.rng := rfl
@[simp] theorem State.finish_host (s : State) (c : Byte) : (s.finish c).host = s.host := rfl
@[simp] theorem State.finish_replies (s : State) (c : Byte) : (s.finish c).replies = s.replies := rfl

@[simp] theorem State.raiseError_cmd (s : State) (e : OpError) : (s.raiseError e).cmd = s.cmd := rfl
@[simp] theorem State.raiseError_busy (s : State) (e : OpError) : (s.raiseError e).busy = false := rfl
@[simp] theorem State.raiseError_done (s : State) (e : OpError) : (s.raiseError e).done = true := rfl
@[simp] theorem State.raiseError_ecode (s : State) (e : OpError) : (s.raiseError e).ecode = e.code := rfl
@[simp] theorem State.raiseError_args (s : State) (e : OpError) : (s.raiseError e).args = s.args := rfl
@[simp] theorem State.raiseError_res (s : State) (e : OpError) : (s.raiseError e).res = s.res := rfl
@[simp] theorem State.raiseError_buf (s : State) (e : OpError) : (s.raiseError e).buf = s.buf := rfl
@[simp] theorem State.raiseError_rom (s : State) (e : OpError) : (s.raiseError e).rom = s.rom := rfl
@[simp] theorem State.raiseError_digestUnit (s : State) (e : OpError) : (s.raiseError e).digestUnit = s.digestUnit := rfl
@[simp] theorem State.raiseError_rng (s : State) (e : OpError) : (s.raiseError e).rng = s.rng := rfl
@[simp] theorem State.raiseError_host (s : State) (e : OpError) : (s.raiseError e).host = s.host := rfl
@[simp] theorem State.raiseError_replies (s : State) (e : OpError) : (s.raiseError e).replies = s.replies := rfl

@[simp] theorem State.completeOk_cmd (s : State) (fx : Effects) : (s.completeOk fx).cmd = s.cmd := rfl
@[simp] theorem State.completeOk_busy (s : State) (fx : Effects) : (s.completeOk fx).busy = false := rfl
@[simp] theorem State.completeOk_done (s : State) (fx : Effects) : (s.completeOk fx).done = true := rfl
@[simp] theorem State.completeOk_ecode (s : State) (fx : Effects) : (s.completeOk fx).ecode = okCode := rfl
@[simp] theorem State.completeOk_args (s : State) (fx : Effects) : (s.completeOk fx).args = s.args := rfl
@[simp] theorem State.completeOk_res (s : State) (fx : Effects) : (s.completeOk fx).res = writeResults s.res fx.results := rfl
@[simp] theorem State.completeOk_buf (s : State) (fx : Effects) : (s.completeOk fx).buf = s.buf.storeAll fx.stores := rfl
@[simp] theorem State.completeOk_rom (s : State) (fx : Effects) : (s.completeOk fx).rom = s.rom := rfl
@[simp] theorem State.completeOk_digestUnit (s : State) (fx : Effects) : (s.completeOk fx).digestUnit = s.digestUnit := rfl
@[simp] theorem State.completeOk_rng (s : State) (fx : Effects) : (s.completeOk fx).rng = s.rng := rfl
@[simp] theorem State.completeOk_host (s : State) (fx : Effects) : (s.completeOk fx).host = s.host := rfl
@[simp] theorem State.completeOk_replies (s : State) (fx : Effects) : (s.completeOk fx).replies = s.replies := rfl

@[simp] theorem State.reply_cmd (s : State) (r : HostReply) : (s.reply r).cmd = s.cmd := rfl
@[simp] theorem State.reply_busy (s : State) (r : HostReply) : (s.reply r).busy = s.busy := rfl
@[simp] theorem State.reply_done (s : State) (r : HostReply) : (s.reply r).done = s.done := rfl
@[simp] theorem State.reply_ecode (s : State) (r : HostReply) : (s.reply r).ecode = s.ecode := rfl
@[simp] theorem State.reply_args (s : State) (r : HostReply) : (s.reply r).args = s.args := rfl
@[simp] theorem State.reply_res (s : State) (r : HostReply) : (s.reply r).res = s.res := rfl
@[simp] theorem State.reply_buf (s : State) (r : HostReply) : (s.reply r).buf = s.buf := rfl
@[simp] theorem State.reply_rom (s : State) (r : HostReply) : (s.reply r).rom = s.rom := rfl
@[simp] theorem State.reply_digestUnit (s : State) (r : HostReply) : (s.reply r).digestUnit = s.digestUnit := rfl
@[simp] theorem State.reply_rng (s : State) (r : HostReply) : (s.reply r).rng = s.rng := rfl
@[simp] theorem State.reply_host (s : State) (r : HostReply) : (s.reply r).host = s.host := rfl
@[simp] theorem State.reply_replies (s : State) (r : HostReply) : (s.reply r).replies = s.replies ++ [r] := rfl

@[simp] theorem State.resetEvent_cmd (s : State) : (s.resetEvent).cmd = 0 := rfl
@[simp] theorem State.resetEvent_busy (s : State) : (s.resetEvent).busy = false := rfl
@[simp] theorem State.resetEvent_done (s : State) : (s.resetEvent).done = false := rfl
@[simp] theorem State.resetEvent_ecode (s : State) : (s.resetEvent).ecode = okCode := rfl
@[simp] theorem State.resetEvent_args (s : State) : (s.resetEvent).args = Vector.replicate 8 0 := rfl
@[simp] theorem State.resetEvent_res (s : State) : (s.resetEvent).res = Vector.replicate 4 0 := rfl
@[simp] theorem State.resetEvent_buf (s : State) : (s.resetEvent).buf = if s.busy then s.buf else s.buf.forget := rfl
@[simp] theorem State.resetEvent_rom (s : State) : (s.resetEvent).rom = s.rom := rfl
@[simp] theorem State.resetEvent_digestUnit (s : State) : (s.resetEvent).digestUnit = s.digestUnit := rfl
@[simp] theorem State.resetEvent_rng (s : State) : (s.resetEvent).rng = s.rng := rfl
@[simp] theorem State.resetEvent_host (s : State) : (s.resetEvent).host = s.host := rfl
@[simp] theorem State.resetEvent_replies (s : State) : (s.resetEvent).replies = s.replies := rfl

@[simp] theorem State.withScript_cmd (s : State) (p : List Stmt) : (s.withScript p).cmd = s.cmd := rfl
@[simp] theorem State.withScript_busy (s : State) (p : List Stmt) : (s.withScript p).busy = s.busy := rfl
@[simp] theorem State.withScript_done (s : State) (p : List Stmt) : (s.withScript p).done = s.done := rfl
@[simp] theorem State.withScript_ecode (s : State) (p : List Stmt) : (s.withScript p).ecode = s.ecode := rfl
@[simp] theorem State.withScript_args (s : State) (p : List Stmt) : (s.withScript p).args = s.args := rfl
@[simp] theorem State.withScript_res (s : State) (p : List Stmt) : (s.withScript p).res = s.res := rfl
@[simp] theorem State.withScript_buf (s : State) (p : List Stmt) : (s.withScript p).buf = s.buf := rfl
@[simp] theorem State.withScript_rom (s : State) (p : List Stmt) : (s.withScript p).rom = s.rom := rfl
@[simp] theorem State.withScript_digestUnit (s : State) (p : List Stmt) : (s.withScript p).digestUnit = s.digestUnit := rfl
@[simp] theorem State.withScript_rng (s : State) (p : List Stmt) : (s.withScript p).rng = s.rng := rfl
@[simp] theorem State.withScript_host (s : State) (p : List Stmt) : (s.withScript p).host = scriptEvents p := rfl
@[simp] theorem State.withScript_replies (s : State) (p : List Stmt) : (s.withScript p).replies = s.replies := rfl

@[simp] theorem State.withFetchWord_cmd (s : State) (n w : Nat) : (s.withFetchWord n w).cmd = (tableWord n w).getD 0xFFFFFFFF := rfl
@[simp] theorem State.withFetchWord_busy (s : State) (n w : Nat) : (s.withFetchWord n w).busy = true := rfl
@[simp] theorem State.withFetchWord_done (s : State) (n w : Nat) : (s.withFetchWord n w).done = false := rfl
@[simp] theorem State.withFetchWord_ecode (s : State) (n w : Nat) : (s.withFetchWord n w).ecode = okCode := rfl
@[simp] theorem State.withFetchWord_args (s : State) (n w : Nat) : (s.withFetchWord n w).args = s.args := rfl
@[simp] theorem State.withFetchWord_res (s : State) (n w : Nat) : (s.withFetchWord n w).res = s.res := rfl
@[simp] theorem State.withFetchWord_buf (s : State) (n w : Nat) : (s.withFetchWord n w).buf = s.buf := rfl
@[simp] theorem State.withFetchWord_rom (s : State) (n w : Nat) : (s.withFetchWord n w).rom = s.rom := rfl
@[simp] theorem State.withFetchWord_digestUnit (s : State) (n w : Nat) : (s.withFetchWord n w).digestUnit = s.digestUnit := rfl
@[simp] theorem State.withFetchWord_rng (s : State) (n w : Nat) : (s.withFetchWord n w).rng = s.rng := rfl
@[simp] theorem State.withFetchWord_host (s : State) (n w : Nat) : (s.withFetchWord n w).host = engineFirst s.host := rfl
@[simp] theorem State.withFetchWord_replies (s : State) (n w : Nat) : (s.withFetchWord n w).replies = s.replies := rfl

@[simp] theorem Memory.write_size (m : Memory) (a : Nat) (b : Byte) : (m.write a b).size = m.size := rfl
@[simp] theorem Memory.write_epoch (m : Memory) (a : Nat) (b : Byte) : (m.write a b).epoch = m.epoch := rfl
@[simp] theorem Memory.write_cells (m : Memory) (a : Nat) (b : Byte) :
    (m.write a b).cells = insertCell a b m.cells := rfl
@[simp] theorem Memory.forget_size (m : Memory) : m.forget.size = m.size := rfl
@[simp] theorem Memory.forget_epoch (m : Memory) : m.forget.epoch = m.epoch + 1 := rfl
@[simp] theorem Memory.forget_cells (m : Memory) : m.forget.cells = [] := rfl
@[simp] theorem Rng.next_inputs (r : Rng) : r.next.inputs = r.inputs.tail := rfl
@[simp] theorem Rng.next_draws (r : Rng) : r.next.draws = r.draws + 1 := rfl

end Sys2Proof.Machine
end

