-- ==== Sys2Proof/Laws/Memory.lean ====
section
/-! SUPPORT. BUF: reads after writes, writes leave every other address alone, every operation keeps the canonical form, and
equal contents are equal data. -/

namespace Sys2Proof.Machine

theorem lookup_insertCell (a k : Nat) (b : Byte) (l : List Host.Cell) :
    (insertCell a b l).lookup k = if k = a then some b else l.lookup k := by
  induction l with
  | nil =>
    by_cases h : k = a
    · simp [insertCell, h]
    · have : (k == a) = false := by simpa using h
      simp [insertCell, List.lookup, h, this]
  | cons c rest ih =>
    obtain ⟨x, v⟩ := c
    simp only [insertCell]
    by_cases h1 : a < x
    · by_cases h : k = a
      · subst h; simp [h1]
      · have : (k == a) = false := by simpa using h
        simp [h1, List.lookup, h, this]
    · by_cases h2 : a = x
      · subst h2
        by_cases h : k = a
        · subst h; simp
        · have : (k == a) = false := by simpa using h
          simp [List.lookup, h, this]
      · simp only [h1, h2, if_false]
        by_cases h : k = x
        · subst h
          have : ¬k = a := fun e => h2 e.symm
          simp [List.lookup, this]
        · have : (k == x) = false := by simpa using h
          simp [List.lookup, this, ih]

theorem Memory.written_write (m : Memory) (a k : Nat) (b : Byte) :
    (m.write a b).written k = if k = a then some b else m.written k :=
  lookup_insertCell a k b m.cells

/-- A read after a write gives the byte written there, and the earlier byte elsewhere. -/
theorem Memory.read_write (m : Memory) (a k : Nat) (b : Byte) :
    (m.write a b).read k = if k = a then b else m.read k := by
  unfold Memory.read
  rw [Memory.written_write]
  by_cases h : k = a <;> simp [h]

@[simp] theorem Memory.read_write_same (m : Memory) (a : Nat) (b : Byte) : (m.write a b).read a = b := by
  simp [Memory.read_write]

theorem Memory.read_write_other {m : Memory} {a k : Nat} {b : Byte} (h : k ≠ a) :
    (m.write a b).read k = m.read k := by
  simp [Memory.read_write, h]

theorem mem_insertCell {a : Nat} {b : Byte} {l : List Host.Cell} {c : Host.Cell}
    (h : c ∈ insertCell a b l) : c = (a, b) ∨ c ∈ l := by
  induction l with
  | nil => simpa [insertCell] using h
  | cons d rest ih =>
    simp only [insertCell] at h
    split at h
    · simpa using h
    · split at h
      · rcases List.mem_cons.mp h with h | h
        · exact .inl h
        · exact .inr (List.mem_cons_of_mem _ h)
      · rcases List.mem_cons.mp h with h | h
        · exact .inr (by simp [h])
        · rcases ih h with h | h
          · exact .inl h
          · exact .inr (List.mem_cons_of_mem _ h)

theorem pairwise_insertCell (a : Nat) (b : Byte) {l : List Host.Cell}
    (h : l.Pairwise (fun x y => x.1 < y.1)) : (insertCell a b l).Pairwise (fun x y => x.1 < y.1) := by
  induction l with
  | nil => simp [insertCell]
  | cons d rest ih =>
    obtain ⟨h1, h2⟩ := List.pairwise_cons.mp h
    simp only [insertCell]
    split
    · next hlt =>
      refine List.pairwise_cons.mpr ⟨?_, h⟩
      intro c hc
      rcases List.mem_cons.mp hc with rfl | hc
      · exact hlt
      · exact lt_trans hlt (h1 c hc)
    · split
      · next heq =>
        refine List.pairwise_cons.mpr ⟨?_, h2⟩
        intro c hc
        show a < c.1
        rw [heq]
        exact h1 c hc
      · next hnlt hne =>
        refine List.pairwise_cons.mpr ⟨?_, ih h2⟩
        intro c hc
        rcases mem_insertCell hc with rfl | hc
        · show d.1 < a
          omega
        · exact h1 c hc

/-- A write inside BUF keeps the canonical form. -/
theorem Memory.wf_write {m : Memory} (a : Nat) (b : Byte) (h : m.wf) (ha : a < m.size) : (m.write a b).wf := by
  refine ⟨pairwise_insertCell a b h.1, ?_⟩
  intro c hc
  rcases mem_insertCell hc with rfl | hc
  · exact ha
  · exact h.2 c hc

theorem Memory.wf_forget (m : Memory) : m.forget.wf := by
  constructor <;> simp

@[simp] theorem Memory.writeBytes_size (m : Memory) (a : Nat) (bs : List Byte) :
    (m.writeBytes a bs).size = m.size := by
  induction bs generalizing m a with
  | nil => rfl
  | cons b bs ih => simp [Memory.writeBytes, ih]

@[simp] theorem Memory.writeBytes_epoch (m : Memory) (a : Nat) (bs : List Byte) :
    (m.writeBytes a bs).epoch = m.epoch := by
  induction bs generalizing m a with
  | nil => rfl
  | cons b bs ih => simp [Memory.writeBytes, ih]

/-- A byte sequence written into a valid region keeps the canonical form. -/
theorem Memory.wf_writeBytes {m : Memory} {a : Nat} {bs : List Byte} (h : m.wf) (hr : m.region a bs.length) :
    (m.writeBytes a bs).wf := by
  induction bs generalizing m a with
  | nil => exact h
  | cons b bs ih =>
    have hr' : a + (bs.length + 1) ≤ m.size := hr
    exact ih (Memory.wf_write a b h (by omega)) (show a + 1 + bs.length ≤ m.size by omega)

/-- What a byte reads as after a byte sequence is written. -/
theorem Memory.read_writeBytes (m : Memory) (a k : Nat) (bs : List Byte) :
    (m.writeBytes a bs).read k =
      if h : a ≤ k ∧ k < a + bs.length then bs[k - a]'(by omega) else m.read k := by
  induction bs generalizing m a with
  | nil =>
    simp [Memory.writeBytes]
  | cons b bs ih =>
    rw [Memory.writeBytes, ih, Memory.read_write]
    by_cases h1 : k = a
    · subst h1
      have : ¬(k + 1 ≤ k ∧ k < k + 1 + bs.length) := by omega
      simp
    · by_cases h2 : a ≤ k ∧ k < a + (bs.length + 1)
      · have h3 : a + 1 ≤ k ∧ k < a + 1 + bs.length := by omega
        have h4 : k - a = (k - (a + 1)) + 1 := by omega
        simp [h2, h3, h4]
      · have h3 : ¬(a + 1 ≤ k ∧ k < a + 1 + bs.length) := by omega
        simp only [List.length_cons, h1, h2, h3, if_false, dite_false]

theorem Memory.read_writeBytes_outside {m : Memory} {a k : Nat} {bs : List Byte} (h : k < a ∨ a + bs.length ≤ k) :
    (m.writeBytes a bs).read k = m.read k := by
  rw [Memory.read_writeBytes]
  have : ¬(a ≤ k ∧ k < a + bs.length) := by omega
  simp [this]

@[simp] theorem Memory.length_readBytes (m : Memory) (a n : Nat) : (m.readBytes a n).length = n := by
  simp [Memory.readBytes]

theorem Memory.getElem_readBytes (m : Memory) (a n k : Nat) (h : k < (m.readBytes a n).length) :
    (m.readBytes a n)[k] = m.read (a + k) := by
  simp [Memory.readBytes]

/-- A byte sequence reads back as written. -/
theorem Memory.readBytes_writeBytes (m : Memory) (a : Nat) (bs : List Byte) :
    (m.writeBytes a bs).readBytes a bs.length = bs := by
  apply List.ext_getElem
  · simp
  · intro i h1 h2
    rw [Memory.getElem_readBytes, Memory.read_writeBytes]
    have : a ≤ a + i ∧ a + i < a + bs.length := by omega
    simp [this]

@[simp] theorem Memory.storeAll_nil (m : Memory) : m.storeAll [] = m := rfl

@[simp] theorem Memory.storeAll_cons (m : Memory) (p : Nat × List Byte) (ps : List (Nat × List Byte)) :
    m.storeAll (p :: ps) = (m.writeBytes p.1 p.2).storeAll ps := rfl

@[simp] theorem Memory.storeAll_size (m : Memory) (ps : List (Nat × List Byte)) : (m.storeAll ps).size = m.size := by
  induction ps generalizing m with
  | nil => rfl
  | cons p ps ih => simp [ih]

@[simp] theorem Memory.storeAll_epoch (m : Memory) (ps : List (Nat × List Byte)) : (m.storeAll ps).epoch = m.epoch := by
  induction ps generalizing m with
  | nil => rfl
  | cons p ps ih => simp [ih]

/-- Stores into valid regions keep the canonical form. -/
theorem Memory.wf_storeAll {m : Memory} {ps : List (Nat × List Byte)} (h : m.wf)
    (hr : ∀ p ∈ ps, m.region p.1 p.2.length) : (m.storeAll ps).wf := by
  induction ps generalizing m with
  | nil => exact h
  | cons p ps ih =>
    have h1 := hr p (by simp)
    refine ih (Memory.wf_writeBytes h h1) fun q hq => ?_
    have h2 := hr q (by simp [hq])
    show q.1 + q.2.length ≤ (m.writeBytes p.1 p.2).size
    rw [Memory.writeBytes_size]
    exact h2

/-- An address outside every stored region reads as before. -/
theorem Memory.read_storeAll_outside {m : Memory} {k : Nat} {ps : List (Nat × List Byte)}
    (h : ∀ p ∈ ps, k < p.1 ∨ p.1 + p.2.length ≤ k) : (m.storeAll ps).read k = m.read k := by
  induction ps generalizing m with
  | nil => rfl
  | cons p ps ih =>
    rw [Memory.storeAll_cons, ih (fun q hq => h q (by simp [hq]))]
    exact Memory.read_writeBytes_outside (h p (by simp))

/-- In canonical form, lists that look up alike are the same list. -/
theorem cells_ext {l l' : List Host.Cell} (h : l.Pairwise (fun x y => x.1 < y.1))
    (h' : l'.Pairwise (fun x y => x.1 < y.1)) (e : ∀ k, l.lookup k = l'.lookup k) : l = l' := by
  have lt_none : ∀ {l : List Host.Cell} {k : Nat}, (∀ c ∈ l, k < c.1) → l.lookup k = none := by
    intro l k hl
    induction l with
    | nil => rfl
    | cons c l ih =>
      obtain ⟨x, v⟩ := c
      have hx : k < x := hl (x, v) (by simp)
      have : (k == x) = false := by simp; omega
      rw [List.lookup, this]
      exact ih fun c hc => hl c (by simp [hc])
  induction l generalizing l' with
  | nil =>
    cases l' with
    | nil => rfl
    | cons d l' =>
      obtain ⟨y, w⟩ := d
      have := e y
      simp [List.lookup] at this
  | cons c l ih =>
    obtain ⟨x, v⟩ := c
    obtain ⟨h1, h2⟩ := List.pairwise_cons.mp h
    cases l' with
    | nil =>
      have := e x
      simp [List.lookup] at this
    | cons d l' =>
      obtain ⟨y, w⟩ := d
      obtain ⟨h1', h2'⟩ := List.pairwise_cons.mp h'
      have hxy : x = y := by
        rcases Nat.lt_trichotomy x y with hlt | heq | hgt
        · have := e x
          rw [lt_none (l := (y, w) :: l')] at this
          · simp [List.lookup] at this
          · intro c hc
            rcases List.mem_cons.mp hc with rfl | hc
            · exact hlt
            · exact lt_trans hlt (h1' c hc)
        · exact heq
        · have := e y
          rw [lt_none (l := (x, v) :: l)] at this
          · simp [List.lookup] at this
          · intro c hc
            rcases List.mem_cons.mp hc with rfl | hc
            · exact hgt
            · exact lt_trans hgt (h1 c hc)
      subst hxy
      have hvw : v = w := by simpa [List.lookup] using e x
      subst hvw
      congr 1
      refine ih h2 h2' fun k => ?_
      by_cases hk : k = x
      · subst hk
        rw [lt_none h1, lt_none h1']
      · have hb : (k == x) = false := by simpa using hk
        simpa [List.lookup, hb] using e k

/-- Memories in canonical form with the same size, epoch and written bytes are equal. -/
theorem Memory.ext_written {m m' : Memory} (h : m.wf) (h' : m'.wf) (hs : m.size = m'.size) (he : m.epoch = m'.epoch)
    (e : ∀ k, m.written k = m'.written k) : m = m' := by
  obtain ⟨s, ep, l⟩ := m
  obtain ⟨s', ep', l'⟩ := m'
  obtain rfl : s = s' := hs
  obtain rfl : ep = ep' := he
  obtain rfl : l = l' := cells_ext h.1 h'.1 e
  rfl

theorem State.reset_wf : State.reset.buf.wf := by
  constructor <;> simp [State.reset]

end Sys2Proof.Machine
end

