-- ==== Sys2Proof/Laws/Ops.lean ====
section
/-! SUPPORT. The shared operations: what a check answers, what a completion can be, and what every command has in common. -/

namespace Sys2Proof.Machine

/-! ## Checks and operands -/

@[simp] theorem require_bind {α : Type} (p : Prop) [Decidable p] (e : OpError) (f : Unit → Except OpError α) :
    (require p e >>= f) = if p then f () else .error e := by
  by_cases h : p <;> simp [require, h, bind, Except.bind]

theorem require_eq_ok {p : Prop} [Decidable p] {e : OpError} : require p e = .ok () ↔ p := by
  by_cases h : p <;> simp [require, h]

/-- From a sequence that answers OK, both of its parts do. -/
theorem bind_eq_ok {α β : Type} {x : Except OpError α} {f : α → Except OpError β} {b : β} :
    (x >>= f) = .ok b ↔ ∃ a, x = .ok a ∧ f a = .ok b := by
  cases x <;> simp [bind, Except.bind]

/-- A sequence raises what its first part raises, or what the second part raises after the first. -/
theorem bind_eq_error {α β : Type} {x : Except OpError α} {f : α → Except OpError β} {e : OpError} :
    (x >>= f) = .error e ↔ x = .error e ∨ ∃ a, x = .ok a ∧ f a = .error e := by
  cases x <;> simp [bind, Except.bind]

theorem byteOperand_ok {s : State} {k : Fin 8} (h : wordOperand s k ≤ 0xFF) :
    byteOperand s k = .ok ((s.arg k).setWidth 8) := by
  simp [byteOperand, h]

theorem byteOperand_wide {s : State} {k : Fin 8} (h : 0xFF < wordOperand s k) :
    byteOperand s k = .error .badOperand := by
  simp [byteOperand, Nat.not_le.mpr h]

theorem halfOperand_ok {s : State} {k : Fin 8} (h : wordOperand s k ≤ 0xFFFF) :
    halfOperand s k = .ok (wordOperand s k) := by
  simp [halfOperand, h]

theorem halfOperand_wide {s : State} {k : Fin 8} (h : 0xFFFF < wordOperand s k) :
    halfOperand s k = .error .badOperand := by
  simp [halfOperand, Nat.not_le.mpr h]

/-! ## Completion -/

@[simp] theorem complete_ok (s : State) (fx : Effects) : complete s (.ok fx) = .next (s.completeOk fx) := rfl

@[simp] theorem complete_error (s : State) (e : OpError) : complete s (.error e) = .next (s.raiseError e) := rfl

/-- Everything a completion can be. -/
theorem complete_eq_next {s t : State} {r : Except OpError Effects} (h : complete s r = .next t) :
    (∃ fx, r = .ok fx ∧ t = s.completeOk fx) ∨ (∃ e, r = .error e ∧ t = s.raiseError e) := by
  cases r with
  | ok fx => exact .inl ⟨fx, rfl, (Host.Outcome.next.inj h).symm⟩
  | error e => exact .inr ⟨e, rfl, (Host.Outcome.next.inj h).symm⟩

theorem OpError.code_ne_okCode (e : OpError) : e.code ≠ okCode := by
  cases e <;> decide

theorem OpError.code_injective {e e' : OpError} (h : e.code = e'.code) : e = e' := by
  revert h
  cases e <;> cases e' <;> decide

theorem OpError.mem_all (e : OpError) : e ∈ OpError.all := by
  cases e <;> decide

theorem OpError.code_legal (e : OpError) : e.code ∈ legalCodes :=
  List.mem_cons_of_mem _ (List.mem_map_of_mem (OpError.mem_all e))

theorem okCode_legal : okCode ∈ legalCodes := by decide

/-! ## Every command is one completion -/

/-- What a command evaluates to, and the random source's port after it. -/
def evalInstr (i : Instr) (s : State) : Except OpError Effects × Rng :=
  match i with
  | .gfadd => (evalGfadd s, s.rng)
  | .gfsub => (evalGfsub s, s.rng)
  | .gfmul => (evalGfmul s, s.rng)
  | .gfdiv => (evalGfdiv s, s.rng)
  | .peval => (evalPeval s, s.rng)
  | .generate => evalGenerate s
  | .hdrenc => (evalHdrenc s, s.rng)
  | .hdrdec => (evalHdrdec s, s.rng)
  | .share noid => evalShare noid s
  | .linterp => (evalLinterp s, s.rng)
  | .reconstruct lenient => (evalReconstruct lenient s, s.rng)

/-- Every command's completion step is the completion of what it evaluates to. -/
theorem exec_eq_completeDrawing (i : Instr) (s : State) : exec i s = completeDrawing s (evalInstr i s) := by
  cases i <;> rfl

/-- Everything a command can do: write its effects, or raise one error; only the random source's port moves besides. -/
theorem exec_cases {i : Instr} {s t : State} (h : exec i s = .next t) :
    (∃ fx, (evalInstr i s).1 = .ok fx ∧ t = ({ s with rng := (evalInstr i s).2 } : State).completeOk fx) ∨
      (∃ e, (evalInstr i s).1 = .error e ∧ t = ({ s with rng := (evalInstr i s).2 } : State).raiseError e) := by
  rw [exec_eq_completeDrawing] at h
  exact complete_eq_next h

end Sys2Proof.Machine
end

