-- ==== Sys2Proof/Laws/PerInstr.lean ====
section
/-! SUPPORT. The family RoundTrip: an instruction's command word decodes to it. One lemma per constructor. -/

namespace Sys2Proof.Laws.RoundTrip

/-- The command word of `i` decodes to `i`, and its mnemonic's row of the opcode map selects it. -/
def Statement (i : Instr) : Prop :=
  decode (encode i) = .ok i ∧ ∃ r ∈ opcodeMap, r.mnemonic = i.mnemonic ∧ r.selects (encode i) = true

theorem gfadd : Statement .gfadd := by unfold Statement; decide
theorem gfsub : Statement .gfsub := by unfold Statement; decide
theorem gfmul : Statement .gfmul := by unfold Statement; decide
theorem gfdiv : Statement .gfdiv := by unfold Statement; decide
theorem peval : Statement .peval := by unfold Statement; decide
theorem generate : Statement .generate := by unfold Statement; decide
theorem hdrenc : Statement .hdrenc := by unfold Statement; decide
theorem hdrdec : Statement .hdrdec := by unfold Statement; decide
theorem share (noid : Bool) : Statement (.share noid) := by unfold Statement; revert noid; decide
theorem linterp : Statement .linterp := by unfold Statement; decide
theorem reconstruct (lenient : Bool) : Statement (.reconstruct lenient) := by unfold Statement; revert lenient; decide

end Sys2Proof.Laws.RoundTrip
end

