-- ==== Sys2Proof/Laws/Rng.lean ====
section
/-! SUPPORT. The random source's port: which answers the draws of an operation take, and what is left of the port. -/

namespace Sys2Proof.Machine

@[simp] theorem Rng.answer_next (r : Rng) (k : Nat) : r.next.answer k = r.answer (k + 1) := by
  obtain ⟨l, d⟩ := r
  cases l with
  | nil => simp [Rng.answer, Rng.next, Nat.add_comm 1 k, Nat.add_assoc]
  | cons a l =>
    simp only [Rng.answer, Rng.next, List.tail_cons, List.getElem?_cons_succ]
    cases l[k]? <;> simp [Nat.add_comm 1 k, Nat.add_assoc]

@[simp] theorem Rng.answer_advance (r : Rng) (n k : Nat) : (r.advance n).answer k = r.answer (n + k) := by
  obtain ⟨l, d⟩ := r
  simp [Rng.answer, Rng.advance, List.getElem?_drop, Nat.add_assoc]

@[simp] theorem Rng.advance_zero (r : Rng) : r.advance 0 = r := rfl

@[simp] theorem Rng.advance_advance (r : Rng) (n k : Nat) : (r.advance n).advance k = r.advance (n + k) := by
  obtain ⟨l, d⟩ := r
  simp [Rng.advance, List.drop_drop, Nat.add_assoc]

theorem Rng.next_eq_advance (r : Rng) : r.next = r.advance 1 := by
  obtain ⟨l, d⟩ := r
  simp [Rng.next, Rng.advance]

/-- The bytes answered to the requests `k`, `k + 1`, …, `k + n - 1`. -/
def Rng.bytes (r : Rng) (k n : Nat) : List Byte :=
  (List.range n).map fun j => (r.answer (k + j)).getD 0

theorem Rng.bytes_succ (r : Rng) (k n : Nat) :
    r.bytes k (n + 1) = (r.answer k).getD 0 :: r.bytes (k + 1) n := by
  have e : ∀ a, k + 1 + a = k + (a + 1) := fun a => by omega
  simp [Rng.bytes, List.range_succ_eq_map, e]

/-- Draws that are all answered with bytes. -/
theorem drawBytes_answers {n : Nat} {r : Rng} (h : r.answers n) :
    drawBytes n r = (some (r.bytes 0 n), r.advance n) := by
  induction n generalizing r with
  | zero => simp [drawBytes, Rng.bytes]
  | succ n ih =>
    obtain ⟨b, hb⟩ := Option.isSome_iff_exists.mp (h 0 (by omega))
    have h' : r.next.answers n := fun k hk => by simpa using h (k + 1) (by omega)
    have e : r.next.bytes 0 n = r.bytes 1 n := by simp [Rng.bytes, Nat.add_comm 1]
    simp only [drawBytes, Rng.draw, hb, ih h', Rng.bytes_succ, e]
    simp [Rng.next_eq_advance, Nat.add_comm 1]

/-- Draws of which the `k`-th is answered with failure: the requests up to it are made and no more. -/
theorem drawBytes_fails {n k : Nat} {r : Rng} (h : r.failsAt k) (hk : k < n) :
    drawBytes n r = (none, r.advance (k + 1)) := by
  induction n generalizing r k with
  | zero => omega
  | succ n ih =>
    obtain ⟨ha, hf⟩ := h
    cases k with
    | zero => simp [drawBytes, Rng.draw, hf, Rng.next_eq_advance]
    | succ k =>
      obtain ⟨b, hb⟩ := Option.isSome_iff_exists.mp (ha 0 (by omega))
      have h' : r.next.failsAt k :=
        ⟨fun j hj => by simpa using ha (j + 1) (by omega), by simpa using hf⟩
      simp only [drawBytes, Rng.draw, hb, ih h' (by omega : k < n)]
      simp [Rng.next_eq_advance, Nat.add_comm 1]

theorem Rng.answers_advance {r : Rng} {n k : Nat} (h : r.answers (n + k)) : (r.advance n).answers k :=
  fun j hj => by simpa using h (n + j) (by omega)

theorem Rng.answers_mono {r : Rng} {n k : Nat} (h : r.answers n) (hk : k ≤ n) : r.answers k :=
  fun j hj => h j (by omega)

/-- The polynomials drawn when every request is answered with a byte. -/
theorem drawPolynomials_answers {m : Nat} {secret : List Byte} {r : Rng} (h : r.answers (secret.length * (m - 1))) :
    drawPolynomials m secret r =
      (some (secret.zipIdx.map fun p => r.polynomial m p.2 p.1), r.advance (secret.length * (m - 1))) := by
  induction secret generalizing r with
  | nil => simp [drawPolynomials]
  | cons b secret ih =>
    have hlen : (b :: secret).length * (m - 1) = (m - 1) + secret.length * (m - 1) := by
      simp [Nat.add_mul, Nat.add_comm]
    rw [hlen] at h
    have h1 : r.answers (m - 1) := Rng.answers_mono h (by omega)
    have h2 := ih (Rng.answers_advance h)
    have e0 : b :: r.bytes 0 (m - 1) = r.polynomial m 0 b := by
      simp [Rng.bytes, Rng.polynomial]
    have es : ∀ (k : Nat) (c : Byte), (r.advance (m - 1)).polynomial m k c = r.polynomial m (k + 1) c := by
      intro k c
      simp [Rng.polynomial, Nat.add_mul, Nat.add_comm, Nat.add_left_comm]
    simp only [drawPolynomials, drawBytes_answers h1, h2, e0, es, hlen]
    have ez : secret.zipIdx 1 = secret.zipIdx.map fun p => (p.1, p.2 + 1) := by
      rw [List.zipIdx_succ]
    simp [ez, Function.comp_def]

/-- The draws of the polynomials when one of them is answered with failure. -/
theorem drawPolynomials_fails {m k : Nat} {secret : List Byte} {r : Rng} (h : r.failsAt k)
    (hk : k < secret.length * (m - 1)) : drawPolynomials m secret r = (none, r.advance (k + 1)) := by
  induction secret generalizing r k with
  | nil => simp at hk
  | cons b secret ih =>
    have hlen : (b :: secret).length * (m - 1) = (m - 1) + secret.length * (m - 1) := by
      simp [Nat.add_mul, Nat.add_comm]
    rw [hlen] at hk
    by_cases h1 : k < m - 1
    · simp [drawPolynomials, drawBytes_fails h h1]
    · obtain ⟨ha, hf⟩ := h
      have e : m - 1 + (k - (m - 1)) = k := by omega
      have h' : (r.advance (m - 1)).failsAt (k - (m - 1)) :=
        ⟨Rng.answers_advance (by rw [e]; exact ha), by rw [Rng.answer_advance, e]; exact hf⟩
      have h3 := ih h' (by omega)
      have e2 : m - 1 + (k - (m - 1) + 1) = k + 1 := by omega
      simp [drawPolynomials, drawBytes_answers (Rng.answers_mono ha (by omega : m - 1 ≤ k)), h3, e2]

end Sys2Proof.Machine
end

