-- ==== Sys2Proof/Laws/Step.lean ====
section
/-! SUPPORT. What a step can be, and what a host access can do. -/

namespace Sys2Proof.Machine

/-- When the host has its turn: idle, or with an event that comes before the completion. -/
theorem hostMoves_eq_some {s s' : State} {a : HostAccess} (h : hostMoves s = some (a, s')) :
    ∃ e rest, s.host = e :: rest ∧ a = e.access ∧ s' = { s with host := rest } ∧
      (s.busy = false ∨ e.beforeCompletion = true) := by
  unfold hostMoves at h
  split at h
  · cases h
  · next e rest he =>
    split at h
    · cases h
    · next hb =>
      simp only [Option.some.injEq, Prod.mk.injEq] at h
      refine ⟨e, rest, he, h.1.symm, h.2.symm, ?_⟩
      cases hbusy : s.busy <;> cases hbc : e.beforeCompletion <;> simp_all

/-- When the host has no turn: nothing pending, or its next event waits for the completion. -/
theorem hostMoves_eq_none {s : State} :
    hostMoves s = none ↔ s.host = [] ∨ (s.busy = true ∧ ∃ e rest, s.host = e :: rest ∧ e.beforeCompletion = false) := by
  unfold hostMoves
  cases hh : s.host with
  | nil => simp
  | cons e rest =>
    cases hb : s.busy <;> cases hbc : e.beforeCompletion <;> simp [hbc]

/-- Everything a step can be. -/
theorem step_cases {s t : State} (h : step s = .next t) :
    (∃ a s', hostMoves s = some (a, s') ∧ hostPerform a s' = .next t) ∨
      (hostMoves s = none ∧ s.busy = true ∧ completionStep s = .next t) ∨
      (hostMoves s = none ∧ s.busy = false ∧ t = s) := by
  unfold step at h
  split at h
  · next a s' hm => exact .inl ⟨a, s', hm, h⟩
  · next hm =>
    split at h
    · next hb => exact .inr (.inl ⟨hm, hb, h⟩)
    · next hb => exact .inr (.inr ⟨hm, by simpa using hb, (Host.Outcome.next.inj h).symm⟩)

/-- The completion step is that of the decoded command, or IllegalCommand. -/
theorem completionStep_cases {s t : State} (h : completionStep s = .next t) :
    (∃ i, fetch s = .ok i ∧ exec i s = .next t) ∨
      (∃ e, fetch s = .error e ∧ t = s.raiseError .illegalCommand) := by
  unfold completionStep at h
  split at h
  · next i hi => exact .inl ⟨i, hi, h⟩
  · next e he => exact .inr ⟨e, he, (Host.Outcome.next.inj h).symm⟩

/-- Everything a host access can do when it is given a meaning. -/
theorem hostPerform_cases {a : HostAccess} {s t : State} (h : hostPerform a s = .next t) :
    (∃ r, t = s.reply r) ∨ (∃ r v, t = writeReg s r v) ∨
      (∃ addr b, addr < s.buf.size ∧ t = { s with buf := s.buf.write addr b }) ∨ t = s.resetEvent := by
  cases a with
  | regRead offset width =>
    simp only [hostPerform] at h
    split at h
    · exact .inl ⟨_, (Host.Outcome.next.inj h).symm⟩
    · unfold noRegister at h; split at h <;> cases h
  | regWrite offset width v =>
    simp only [hostPerform] at h
    split at h
    · exact .inr (.inl ⟨_, _, (Host.Outcome.next.inj h).symm⟩)
    · unfold noRegister at h; split at h <;> cases h
  | bufRead addr =>
    simp only [hostPerform] at h
    split at h
    · exact .inl ⟨_, (Host.Outcome.next.inj h).symm⟩
    · cases h
  | bufWrite addr b =>
    simp only [hostPerform] at h
    split at h
    · next ha => exact .inr (.inr (.inl ⟨addr, b, ha, (Host.Outcome.next.inj h).symm⟩))
    · cases h
  | reset => exact .inr (.inr (.inr (Host.Outcome.next.inj h).symm))

/-- One step and then `n` more, on any machine. -/
theorem core_run_succ (M : Host.Core) {s t : M.State} (n : Nat) (h : M.step s = .next t) :
    M.run (n + 1) s = M.run n t := by
  simp [Host.Core.run, h]

/-- One step and then `n` more. -/
theorem run_succ_of_step {s t : State} (n : Nat) (h : step s = .next t) :
    Host.Core.run core (n + 1) s = Host.Core.run core n t :=
  core_run_succ core n h

/-- A completion step always answers a next state. -/
theorem completionStep_next (s : State) : ∃ t, completionStep s = .next t := by
  unfold completionStep
  split
  · rw [exec_eq_completeDrawing]
    unfold completeDrawing complete
    split <;> exact ⟨_, rfl⟩
  · exact ⟨_, rfl⟩

end Sys2Proof.Machine
end

