-- ==== Sys2Proof/Laws/Script.lean ====
section
/-! SUPPORT. The pseudo-instructions of the host-script notation: what they expand to, and that the value `expect` names is
what STATUS reads after that outcome. -/

namespace Sys2Proof.Machine

/-- SHARE without its hash operand writes ARG7 = 2 after the operands given. -/
theorem call_share_hash_omitted (noid : Bool) (vs : List Word) (polls : Nat) (h : vs.length < 8) :
    call (.share noid) vs polls =
      operandWrites vs ++ [.wr (.arg 7) 2, .issue (.share noid), .wait polls] := by
  simp [call, defaultWrites, h]

/-- SHARE with all eight operands writes them and nothing else. -/
theorem call_share_hash_given (noid : Bool) (vs : List Word) (polls : Nat) (h : vs.length = 8) :
    call (.share noid) vs polls = operandWrites vs ++ [.issue (.share noid), .wait polls] := by
  simp [call, defaultWrites, h]

/-- STATUS after a completion with the code of `e`, or with OK, is the value `expect` names. -/
theorem finish_statusWord_error (s : State) (e : OpError) : (s.finish e.code).statusWord = expected (some e) := by
  change packStatus false true e.code = expected (some e)
  cases e <;> decide

theorem finish_statusWord_ok (s : State) : (s.finish okCode).statusWord = expected none := by
  change packStatus false true okCode = expected none
  decide

/-- `expect`, run by an idle engine, is one step that reads STATUS. -/
theorem step_expect (s : State) (e : Option OpError) (h : s.busy = false) :
    step (s.withScript (expect e)) = .next { s with host := [], replies := s.replies ++ [.word s.statusWord] } := by
  simp [step, hostMoves, State.withScript, scriptEvents, expect, Stmt.events, later, h, hostPerform, regAccess,
    Reg.offset, Reg.ofOffset, readReg, State.reply, State.statusWord]

/-- A single reply meets `expect e` exactly when it is the value `e` names. -/
theorem meets_expect (s : State) (e : Option OpError) (w : Word) (h : s.replies = [.word w]) :
    s.meets (expect e) = true ↔ w = expected e := by
  simpa [State.meets, expect, Stmt.wants, asListed, h] using eq_comm

end Sys2Proof.Machine
end

