-- ==== Sys2Proof/Tests/Slice0.lean ====
section
/-! SUPPORT. Tests. Expected values are those of 95_test_vectors.md (its vector is named), or words and table values written out
from the spec. At the end, for every statement with hypotheses, a witness that meets them. -/

namespace Sys2Proof.Tests

open Sys2Proof.Machine

/-! ## Helpers -/

/-- The next state of an outcome, if it is one. -/
def nextOf : Host.Outcome State Fault Refusal → Option State
  | .next t => some t
  | .fault _ => none
  | .refused _ => none

/-- The reset state with argument registers, BUF bytes and answers of the random source put in place. -/
def start (args : List Nat) (bytes : List (Nat × List Nat)) (draws : List Nat) : State :=
  { State.reset with
    args := Vector.ofFn fun k => BitVec.ofNat 32 (args.getD k 0)
    buf := bytes.foldl (fun m p => m.writeBytes p.1 (p.2.map (BitVec.ofNat 8))) State.reset.buf
    rng := ⟨draws.map fun d => some (BitVec.ofNat 8 d), 0⟩ }

/-- STATUS and RES0 after an instruction. -/
def outcome (i : Instr) (s : State) : Option (Nat × Nat) :=
  (nextOf (exec i s)).map fun t => (t.statusWord.toNat, t.res[0].toNat)

/-- STATUS, RES0 and `n` bytes of BUF at `a` after an instruction. -/
def output (i : Instr) (s : State) (a n : Nat) : Option (Nat × Nat × List Nat) :=
  (nextOf (exec i s)).map fun t => (t.statusWord.toNat, t.res[0].toNat, (t.buf.readBytes a n).map (·.toNat))

/-- The identifier "my-id". -/
def myId : List Nat := [0x6D, 0x79, 0x2D, 0x69, 0x64]

/-- The header of V35a: "my-id", no hash, threshold 2, share_len 6. -/
def header35a : List Nat := myId ++ [0, 0, 0, 0, 0, 0, 0, 0, 0, 0, 0] ++ [0, 2, 0, 6]

/-- The two shares of V40. -/
def share40 : Nat → List Nat
  | 0 => header35a ++ [0x01, 0xB9, 0xFA, 0x07, 0xE1, 0x85]
  | _ => header35a ++ [0x02, 0xF5, 0x40, 0x9B, 0x45, 0x11]

/-- The descriptor table of V60. -/
def table60 : List Nat := [0, 0, 1, 0, 0, 0, 0, 0x1A, 0, 0, 1, 0x1A, 0, 0, 0, 0x1A]

/-- The start state of V40. -/
def state40 : State :=
  start [2, 2, 0x000, 5, 0x100, 0x010, 5, 0] [(0x000, [0x74, 0x65, 0x73, 0x74, 0]), (0x010, myId)]
    [0xCD, 0x9F, 0x74, 0x95, 0x85]

/-- The start state of V60. -/
def state60 : State :=
  start [0x200, 2, 0x300] [(0x100, share40 0), (0x11A, share40 1), (0x200, table60)] []

/-- The start state of V30. -/
def state30 : State :=
  start [2, 2, 0x000, 5, 0x100] [(0x000, [0x74, 0x65, 0x73, 0x74, 0])] [0xCD, 0x9F, 0x74, 0x95, 0x85]

/-! ## Well-formedness: an ill-formed term for each check -/

theorem test_wf_all_instructions : Instr.wf .gfadd = true ∧ Instr.wf (.share true) = true := by decide

theorem test_bufBytes_zero_refused : Config.bufBytesOk 0 = false := by decide

theorem test_bufBytes_too_large_refused : Config.bufBytesOk (2 ^ 32 + 1) = false := by decide

theorem test_fieldOk_default : Config.fieldOk Config.fieldPoly Config.fieldGen = true := by decide +kernel

/-- x^8 + 1 = (x + 1)^8 is reducible. -/
theorem test_fieldOk_reducible_refused : Config.fieldOk 0x101 0x03 = false := by decide +kernel

/-- Bit 8 must be set. -/
theorem test_fieldOk_degree_refused : Config.fieldOk 0x01B 0x03 = false := by decide +kernel

/-- 0x01 generates nothing but itself. -/
theorem test_fieldOk_generator_refused : Config.fieldOk 0x11B 0x01 = false := by decide +kernel

/-! ## Decoding (30_encoding.md rule R74, V70) -/

theorem test_decode_gfadd : decode 0x00000001 = .ok .gfadd := by decide
theorem test_decode_gfdiv : decode 0x00000004 = .ok .gfdiv := by decide
theorem test_decode_peval : decode 0x00000005 = .ok .peval := by decide
theorem test_decode_generate : decode 0x00000006 = .ok .generate := by decide
theorem test_decode_hdrenc : decode 0x00000007 = .ok .hdrenc := by decide
theorem test_decode_hdrdec : decode 0x00000008 = .ok .hdrdec := by decide
theorem test_decode_share : decode 0b00000000000000000000000000001001 = .ok (.share false) := by decide
theorem test_decode_share_noid : decode 0b00000000000000000000001000001001 = .ok (.share true) := by decide
theorem test_decode_linterp : decode 0x0000000A = .ok .linterp := by decide
theorem test_decode_reconstruct : decode 0b00000000000000000000000000001011 = .ok (.reconstruct false) := by decide
theorem test_decode_reconstruct_lenient :
    decode 0b00000000000000000000000100001011 = .ok (.reconstruct true) := by decide
theorem test_decode_gfsub_gfmul : decode 0x00000002 = .ok .gfsub ∧ decode 0x00000003 = .ok .gfmul := by decide

/-- The illegal words of V70. -/
theorem test_decode_illegal :
    ([0x00000000, 0x0000000C, 0x000000FF, 0x00000101, 0x00000109, 0x0000020B, 0x0000030B, 0x00000403, 0x80000001,
      0xFFFFFFFF] : List Word).all (fun w => (decode w).toOption.isNone) = true := by decide

theorem test_opcode_rows_disjoint :
    opcodeMap.Pairwise (fun r r' => r.pattern &&& r'.mask ≠ r'.pattern ∧ r'.pattern &&& r.mask ≠ r.pattern) := by decide

theorem test_decodeTableWord : decodeTableWord 32 0x10B = some (.reconstruct true) := by decide

theorem test_decodeTableWord_illegal : decodeTableWord 32 0 = none := by decide

/-! ## The tables (10_state.md rules R32, R33, R35) -/

theorem test_default_tables : State.reset.rom.builtFrom Config.fieldPoly Config.fieldGen := by
  unfold Rom.builtFrom
  decide +kernel

/-! ## The commands -/

/-- V10. -/
theorem test_gfadd : outcome .gfadd (start [0x53, 0xCA] [] []) = some (0x2, 0x99) := by decide +kernel

/-- V10: BadOperand, never truncated. -/
theorem test_gfadd_wide : outcome .gfadd (start [0, 0xFFFFFFFF] [] []) = some (0x1102, 0) := by decide +kernel

/-- R92. -/
theorem test_gfsub : outcome .gfsub (start [0x01, 0xFF] [] []) = some (0x2, 0xFE) := by decide +kernel

/-- V11: the sum of the logarithms is 508. -/
theorem test_gfmul_wraps : outcome .gfmul (start [0xF6, 0xF6] [] []) = some (0x2, 0x52) := by decide +kernel

/-- V11. -/
theorem test_gfmul : outcome .gfmul (start [0x57, 0x83] [] []) = some (0x2, 0xC1) := by decide +kernel

/-- V12: the difference of the logarithms is negative. -/
theorem test_gfdiv_wraps : outcome .gfdiv (start [0x01, 0x02] [] []) = some (0x2, 0x8D) := by decide +kernel

/-- V12: the test of the divisor comes first. -/
theorem test_gfdiv_zero_by_zero : outcome .gfdiv (start [0, 0] [] []) = some (0xA02, 0) := by decide +kernel

/-- V20. -/
theorem test_peval : outcome .peval (start [0xFF, 0x100, 3] [(0x100, [0x2A, 0x11, 0x07])] []) = some (0x2, 0xC5) := by
  decide +kernel

/-- V21: InvalidIndex before BadAddress. -/
theorem test_peval_zero : outcome .peval (start [0, 0xFFF, 2] [] []) = some (0xB02, 0) := by decide +kernel

/-- V30. -/
theorem test_generate :
    output .generate state30 0x100 12 =
      some (0x2, 6, [0x01, 0xB9, 0xFA, 0x07, 0xE1, 0x85, 0x02, 0xF5, 0x40, 0x9B, 0x45, 0x11]) := by
  decide +kernel

/-- V33: two draws a secret byte, in order. -/
theorem test_generate_draw_order :
    output .generate (start [3, 4, 0, 2, 0x100] [(0, [0x2A, 0x9C])] [0x11, 0x07, 0, 0]) 0x100 12 =
      some (0x2, 3, [0x01, 0x3C, 0x9C, 0x02, 0x14, 0x9C, 0x03, 0x02, 0x9C, 0x04, 0x1E, 0x9C]) := by
  decide +kernel

/-- V35d: a long identifier keeps its first 16 bytes. -/
theorem test_hdrenc :
    output .hdrenc (start [0x010, 20, 0, 1, 0x0102, 0x100] [(0x010, List.range 20)] []) 0x100 20 =
      some (0x2, 20, List.range 16 ++ [0, 1, 1, 2]) := by
  decide +kernel

/-- V37i: the identifier is written over its source. -/
theorem test_hdrdec_overlap :
    output .hdrdec (start [0x100, 20, 0x104] [(0x100, header35a)] []) 0x104 16 =
      some (0x2, 0, header35a.take 16) := by
  decide +kernel

/-- V40, the second share. -/
theorem test_share : output (.share false) state40 0x11A 26 = some (0x2, 26, share40 1) := by decide +kernel

/-- V41, the first share: SHA-1. -/
theorem test_share_sha1 :
    output (.share false)
      (start [2, 3, 0x000, 3, 0x100, 0x010, 1, 1] [(0x000, [0x61, 0x62, 0x63]), (0x010, [0x6B])]
        ((List.range 23).map (0x10 + ·))) 0x100 44 =
      some (0x2, 44, [0x6B, 0, 0, 0, 0, 0, 0, 0, 0, 0, 0, 0, 0, 0, 0, 0, 0x01, 0x02, 0x00, 0x18] ++
        [0x01, 0x71, 0x73, 0x71, 0xBA, 0x8D, 0x2B, 0x20, 0x50, 0x1E, 0x98, 0x70, 0xA1, 0x22, 0x38, 0x6F, 0x67, 0x70,
          0xE3, 0x4E, 0xBF, 0xF4, 0xFD, 0xBB]) := by
  decide +kernel

/-- V42: SHA-256 of "abc". -/
theorem test_sha256 :
    (sha256 [0x61, 0x62, 0x63]).map (·.toNat) =
      [0xBA, 0x78, 0x16, 0xBF, 0x8F, 0x01, 0xCF, 0xEA, 0x41, 0x41, 0x40, 0xDE, 0x5D, 0xAE, 0x22, 0x23] ++
      [0xB0, 0x03, 0x61, 0xA3, 0x96, 0x17, 0x7A, 0x9C, 0xB4, 0x10, 0xFF, 0x61, 0xF2, 0x00, 0x15, 0xAD] := by
  decide +kernel

/-- V50. -/
theorem test_linterp :
    outcome .linterp (start [0x010, 0x020, 3] [(0x010, [0x03, 0xFF, 0x02]), (0x020, [0x02, 0xC5, 0x14])] []) =
      some (0x2, 0x2A) := by
  decide +kernel

/-- V51: equal x-coordinates. -/
theorem test_linterp_equal :
    outcome .linterp (start [0x010, 0x020, 3] [(0x010, [1, 2, 1]), (0x020, [1, 2, 3])] []) = some (0xA02, 0) := by
  decide +kernel

/-- V60. -/
theorem test_reconstruct :
    output (.reconstruct false) state60 0x300 5 = some (0x2, 5, [0x74, 0x65, 0x73, 0x74, 0]) := by
  decide +kernel

/-- V69 (and V63's policy): with copies of share 0 first, lenient mode skips the duplicate subset. -/
theorem test_reconstruct_lenient :
    output (.reconstruct true)
      { state60 with
        args := #v[0x200, 3, 0x300, 0, 0, 0, 0, 0]
        buf := state60.buf.writeBytes 0x200 ((table60.take 8 ++ table60).map (BitVec.ofNat 8)) } 0x300 5 =
      some (0x2, 5, [0x74, 0x65, 0x73, 0x74, 0]) := by
  decide +kernel

/-! ## Steps and the host -/

/-- STATUS after the first step of a fetched word. -/
def firstStep (w : Nat) : Option Nat :=
  (nextOf (step (State.reset.withFetchWord 32 w))).map fun t => t.statusWord.toNat

/-- V70: every command as the first one after reset, all ARG 0. -/
theorem test_first_steps :
    [0x0, 0x1, 0x2, 0x3, 0x4, 0x5, 0x6, 0x7, 0x8, 0x9, 0x209, 0xA, 0xB, 0x10B, 0x101].map firstStep =
      [0x1002, 0x2, 0x2, 0x2, 0xA02, 0xB02, 0x102, 0x2, 0x302, 0x102, 0x102, 0x2, 0x602, 0x602, 0x1002].map some := by
  decide +kernel

/-- The register part of V71 as a host script, with one poll that reads BUSY. -/
def script71 : List Stmt :=
  [.rd .status, .rd .cmd] ++ call .gfadd [0x12, 0x34] 1 ++ [.rd (.res 0), .rd .cmd, .rd (.arg 0), .rd (.reserved false)]

/-- V71: what the reads return. -/
theorem test_script71 :
    (nextOf (Host.Core.run core 12 (State.reset.withScript script71))).map (fun t => t.replies) =
      some [.word 0, .word 0, .word 0x1, .word 0x2, .word 0x26, .word 0x1, .word 0x12, .word 0] := by
  decide +kernel

/-- R84: the encoding of `call GFMUL 0x53, 0xCA`. -/
theorem test_encodeScript :
    encodeScript (call .gfmul [0x53, 0xCA] 0) =
      [.register 0x10 0x53, .register 0x14 0xCA, .register 0x00 0x3] := by
  decide +kernel

/-- R83: `expect HashMismatch`. -/
theorem test_expected : expected (some .hashMismatch) = 0x00000802 ∧ expected none = 0x00000002 := by decide

/-- R83: SHARE with the hash operand omitted; the values are those of V40's call without its last operand. -/
theorem test_call_share_default_hash :
    encodeScript (call (.share false) [2, 2, 0x000, 5, 0x100, 0x010, 5] 0) =
      [.register 0x10 2, .register 0x14 2, .register 0x18 0, .register 0x1C 5, .register 0x20 0x100,
        .register 0x24 0x10, .register 0x28 5, .register 0x2C 2, .register 0x00 0x9] := by
  decide +kernel

/-- The lines of PR1 about the division by zero and the last GFADD, and a listing that shows another outcome. -/
def scriptPR1 (outcome : OpError) : List Stmt :=
  call .gfdiv [0x57, 0x00] 1 ++ expect (some outcome) ++ call .gfadd [0x57, 0x57] 0 ++ expect none ++
    [.rd (.res 0) (some 0)]

/-- R82, R83: the listing of PR1 is met, and the other one is not. -/
theorem test_expect :
    (nextOf (Host.Core.run core 20 (State.reset.withScript (scriptPR1 .divisionByZero)))).map
        (fun t => (t.meets (scriptPR1 .divisionByZero), t.meets (scriptPR1 .invalidIndex))) = some (true, false) := by
  decide +kernel

theorem test_hostPort_stops :
    hostPerform (.regRead 0x11 4) State.reset = .refused (.registerAccessShape 0x11 4) ∧
      hostPerform (.regRead 0x10 2) State.reset = .refused (.registerAccessShape 0x10 2) ∧
      hostPerform (.regWrite 0x40 4 0) State.reset = .fault (.windowOffset 0x40) ∧
      hostPerform (.bufRead 0x1000) State.reset = .fault (.hostBufAddress 0x1000) :=
  ⟨rfl, rfl, rfl, rfl⟩

/-! ## Witnesses: states and operands that meet the hypotheses of the statements -/

/-- A command word accepted in the reset state. -/
def running (w : Nat) : State := State.reset.withFetchWord 32 w

/-- A running GFADD with a host event pending. -/
def runningWith (e : HostEvent) : State := { running 1 with host := [e] }

theorem default_rom_valid : State.reset.rom.valid :=
  ⟨Config.fieldPoly, Config.fieldGen, test_fieldOk_default, test_default_tables⟩

theorem running_inv (w : Nat) : (running w).Inv where
  sizeOk := (by decide : Config.bufBytesOk Config.bufBytes = true)
  bufWf := by constructor <;> simp [running, State.withFetchWord, State.accept, State.reset]
  romValid := default_rom_valid
  notBoth := by simp [running, State.withFetchWord, State.accept]
  quiet := fun _ => rfl
  codeLegal := (by decide : okCode ∈ legalCodes)

theorem witness_StepKeepsInvariant : ∃ s t, State.Inv s ∧ step s = .next t :=
  ⟨running 1, _, running_inv 1, rfl⟩

theorem witness_StepKeepsTablesAndParameters : ∃ s t, step s = .next t := ⟨running 1, _, rfl⟩

theorem witness_ResetAbandonsRunningCommand :
    ∃ s : State, s.busy = true ∧ s.host = ⟨.reset, true⟩ :: [] := ⟨runningWith ⟨.reset, true⟩, rfl, rfl⟩

theorem witness_HostWriteOfCmdIsAccepted :
    (∃ s : State, s.busy = false ∧ s.host = ⟨.regWrite 0x00 4 0xFFFFFFFF, false⟩ :: []) ∧
      ∃ s : State, s.busy = true ∧ s.host = ⟨.regWrite 0x00 4 0, true⟩ :: [] :=
  ⟨⟨{ State.reset with host := [⟨.regWrite 0x00 4 0xFFFFFFFF, false⟩] }, rfl, rfl⟩,
    ⟨runningWith ⟨.regWrite 0x00 4 0, true⟩, rfl, rfl⟩⟩

theorem witness_BusyHoldsWritesAndBufAccesses :
    (∃ (s : State) (r : Reg), s.busy = true ∧ s.host = ⟨.regRead r.offset 4, true⟩ :: []) ∧
      (∃ s : State, s.Inv ∧ s.busy = true) ∧
      (∃ s : State, s.busy = true ∧ s.host = ⟨.regWrite 0x3C 4 1, true⟩ :: []) ∧
      (∃ s : State, s.busy = true ∧ s.host = ⟨.bufRead 0xFFF, true⟩ :: []) ∧
      ∃ s : State, s.busy = true ∧ s.host = ⟨.bufWrite 0x1000 0, true⟩ :: [] :=
  ⟨⟨runningWith ⟨.regRead 0x3C 4, true⟩, .res 3, rfl, rfl⟩, ⟨running 1, running_inv 1, rfl⟩,
    ⟨runningWith ⟨.regWrite 0x3C 4 1, true⟩, rfl, rfl⟩, ⟨runningWith ⟨.bufRead 0xFFF, true⟩, rfl, rfl⟩,
    ⟨runningWith ⟨.bufWrite 0x1000 0, true⟩, rfl, rfl⟩⟩

/-- An access in an idle state, a reset and a register read in a busy one. -/
theorem witness_RegisterWindowMap :
    (∃ s : State, s.host = ⟨.bufRead 0, false⟩ :: [] ∧ s.busy = false) ∧
      (∃ s : State, s.busy = true ∧ s.host = ⟨.reset, true⟩ :: []) ∧
      ∃ (s : State) (r : Reg), s.busy = true ∧ s.host = ⟨.regRead r.offset 4, true⟩ :: [] :=
  ⟨⟨{ State.reset with host := [⟨.bufRead 0, false⟩] }, rfl, rfl⟩, ⟨runningWith ⟨.reset, true⟩, rfl, rfl⟩,
    ⟨runningWith ⟨.regRead 0x3C 4, true⟩, .res 3, rfl, rfl⟩⟩

/-- Wrong width, wrong alignment, and the first offset outside the window. -/
theorem witness_MisshapenRegisterAccessStops :
    ∀ p ∈ [(0x3C, 2), (0x3D, 4), (0x40, 4)], (p.2 ≠ 4 ∨ p.1 % 4 ≠ 0 ∨ 0x40 ≤ p.1) := by decide

theorem witness_HostBufPortMovesOneByte :
    (∃ s : State, 0xFFF < s.buf.size) ∧ ∃ s : State, s.buf.size ≤ 0x1000 :=
  ⟨⟨State.reset, by decide⟩, ⟨State.reset, by decide⟩⟩

theorem witness_IdleEngineKeepsItsState : ∃ s : State, s.busy = false ∧ s.host = [] := ⟨State.reset, rfl, rfl⟩

theorem witness_AcceptedCommandCompletes : ∃ s : State, s.busy = true := ⟨running 1, rfl⟩

theorem witness_StepRunsDecodedCommand :
    ∃ s : State, s.busy = true ∧ (∀ e ∈ s.host.head?, e.beforeCompletion = false) ∧
      decode s.cmd = .ok (.reconstruct true) :=
  ⟨{ running 0x10B with host := [⟨.regRead 0x04 4, false⟩] }, rfl, by decide, by decide⟩

theorem witness_UnmappedWordIsIllegalCommand :
    ∃ s : State, s.busy = true ∧ (∀ e ∈ s.host.head?, e.beforeCompletion = false) ∧
      ∀ r ∈ opcodeMap, s.cmd &&& r.mask ≠ r.pattern :=
  ⟨running 0x103, rfl, by decide, by decide⟩

theorem witness_ErrorLeavesNoObservableOutput :
    ∃ t, exec .gfdiv State.reset = .next t ∧ t.ecode ≠ 0x00 :=
  ⟨State.reset.raiseError .divisionByZero, by rfl, by decide⟩

theorem witness_UnnamedResultsKept :
    ∃ t, exec .gfadd State.reset = .next t ∧ (3 : Fin 4) ∉ Instr.results .gfadd := ⟨_, rfl, by decide⟩

theorem witness_UnnamedArgumentsIgnored :
    ∀ k ∈ Instr.named .peval, (#v[0, 0, 0, 7, 0, 0, 0, 9] : Vector Word 8)[k] = State.reset.args[k] := by decide

theorem witness_ScalarCommandsFrame :
    ∀ i ∈ ([.gfadd, .gfsub, .gfmul, .gfdiv, .peval, .linterp] : List Instr), ∃ t, exec i State.reset = .next t := by
  intro i hi
  simp only [List.mem_cons, List.not_mem_nil, or_false] at hi
  rcases hi with rfl | rfl | rfl | rfl | rfl | rfl <;> exact ⟨_, rfl⟩

theorem witness_HeaderCommandsFrame :
    (∃ t, exec .hdrenc State.reset = .next t) ∧ ∃ t, exec .hdrdec State.reset = .next t := ⟨⟨_, rfl⟩, ⟨_, rfl⟩⟩

theorem witness_GeneratingCommandsFrame :
    (∃ t, exec .generate state30 = .next t) ∧
      (∃ t, HashAlg.ofId (wordOperand state40 7) = some .noHash ∧ exec (.share false) state40 = .next t) ∧
      ∃ t, HashAlg.ofId (wordOperand (start [2, 2, 0, 5, 0x100, 0x010, 5, 3] [] []) 7) = none ∧
        exec (.share false) (start [2, 2, 0, 5, 0x100, 0x010, 5, 3] [] []) = .next t :=
  ⟨⟨_, rfl⟩, ⟨_, by decide +kernel, rfl⟩, ⟨_, by decide +kernel, rfl⟩⟩

theorem witness_ReconstructFrame : ∃ t, exec (.reconstruct true) state60 = .next t := ⟨_, rfl⟩

theorem witness_GfaddAndGfsubXor :
    (∃ s : State, s.args[0] = (0xFF : Byte).setWidth 32 ∧ s.args[1] = (0x01 : Byte).setWidth 32) ∧
      ∃ s : State, 0xFF < s.args[0].toNat ∨ 0xFF < s.args[1].toNat :=
  ⟨⟨start [0xFF, 0x01] [] [], by decide, by decide⟩, ⟨start [0, 0x100] [] [], by decide⟩⟩

theorem witness_GfmulLooksUpProduct :
    (∃ s : State, s.args[0] = (0x00 : Byte).setWidth 32 ∧ s.args[1] = (0xFF : Byte).setWidth 32) ∧
      (∃ s : State, s.args[0] = (0xF6 : Byte).setWidth 32 ∧ s.args[1] = (0xF6 : Byte).setWidth 32) ∧
      ∃ s : State, 0xFF < s.args[0].toNat ∨ 0xFF < s.args[1].toNat :=
  ⟨⟨start [0, 0xFF] [] [], by decide, by decide⟩, ⟨start [0xF6, 0xF6] [] [], by decide, by decide⟩,
    ⟨start [0x100, 0] [] [], by decide⟩⟩

theorem witness_GfdivLooksUpQuotient :
    (∃ s : State, s.args[0] = (0x00 : Byte).setWidth 32 ∧ s.args[1] = 0) ∧
      (∃ s : State, s.args[0] = 0 ∧ s.args[1] = (0x05 : Byte).setWidth 32) ∧
      (∃ s : State, s.args[0] = (0x01 : Byte).setWidth 32 ∧ s.args[1] = (0xFF : Byte).setWidth 32) ∧
      ∃ s : State, 0xFF < s.args[0].toNat ∨ 0xFF < s.args[1].toNat :=
  ⟨⟨start [0, 0] [] [], by decide, by decide⟩, ⟨start [0, 5] [] [], by decide, by decide⟩,
    ⟨start [1, 0xFF] [] [], by decide, by decide⟩, ⟨start [0x100, 0] [] [], by decide⟩⟩

theorem witness_WideOperandsRaiseBadOperand :
    (∃ s : State, 0xFF < s.args[0].toNat) ∧ ∃ s : State, 0xFFFF < s.args[4].toNat :=
  ⟨⟨start [0x100] [] [], by decide⟩, ⟨start [0, 0, 0, 0, 0x10000] [] [], by decide⟩⟩

theorem witness_ProductIsFieldProduct :
    ∃ (t : Rom) (p : BitVec 9) (g : Byte), Config.fieldOk p g = true ∧ t.builtFrom p g :=
  ⟨_, _, _, test_fieldOk_default, test_default_tables⟩

theorem witness_FieldLawsOfProduct : ∃ t : Rom, t.valid := ⟨_, default_rom_valid⟩

theorem witness_QuotientUndoesProduct : ∃ (t : Rom) (b : Byte), t.valid ∧ b ≠ 0 :=
  ⟨_, 0xFF, default_rom_valid, by decide⟩

theorem witness_PevalResultAndChecks :
    (∃ s : State, s.args[0] = (0xFF : Byte).setWidth 32 ∧ s.args[1].toNat + s.args[2].toNat ≤ s.buf.size) ∧
      (∃ s : State, 0xFF < s.args[0].toNat) ∧ (∃ s : State, s.args[0] = 0) ∧
      ∃ s : State, s.args[0] ≠ 0 ∧ s.args[0].toNat ≤ 0xFF ∧ s.buf.size < s.args[1].toNat + s.args[2].toNat :=
  ⟨⟨start [0xFF, 0x1000, 0] [] [], by decide, by decide⟩, ⟨start [0x100] [] [], by decide⟩,
    ⟨start [] [] [], by decide⟩, ⟨start [1, 0x1001, 0] [] [], by decide, by decide, by decide⟩⟩

theorem state30_answers : state30.rng.answers 5 := by
  intro k hk
  have h : k = 0 ∨ k = 1 ∨ k = 2 ∨ k = 3 ∨ k = 4 := by omega
  rcases h with rfl | rfl | rfl | rfl | rfl <;> rfl

theorem witness_GenerateWritesPayloads :
    ∃ s : State, paramsOk s.args[0].toNat s.args[1].toNat s.args[3].toNat ∧
      s.args[2].toNat + s.args[3].toNat ≤ s.buf.size ∧
      s.args[4].toNat + s.args[1].toNat * (s.args[3].toNat + 1) ≤ s.buf.size ∧
      s.rng.answers (s.args[3].toNat * (s.args[0].toNat - 1)) :=
  ⟨state30, by decide +kernel, by decide +kernel, by decide +kernel, state30_answers⟩

/-- L = 65535, M = 0, M = 255, N < M, N = 255, and an output region one byte too long. -/
theorem witness_GenerateChecksInOrder :
    (∀ a ∈ [[2, 2, 0, 65535], [0, 2, 0, 5], [255, 255, 0, 5], [3, 2, 0, 5], [2, 255, 0, 5]],
      65534 < (start a [] []).args[3].toNat ∨ (start a [] []).args[0].toNat < 1 ∨ 254 < (start a [] []).args[0].toNat ∨
        (start a [] []).args[1].toNat < (start a [] []).args[0].toNat ∨ 254 < (start a [] []).args[1].toNat) ∧
      ∃ s : State, paramsOk s.args[0].toNat s.args[1].toNat s.args[3].toNat ∧
        s.buf.size < s.args[4].toNat + s.args[1].toNat * (s.args[3].toNat + 1) :=
  ⟨by decide +kernel, ⟨start [2, 2, 0, 5, 0xFF5] [] [], by decide +kernel, by decide +kernel⟩⟩

/-- The first draw of V34's last but one row and of V45's is a byte, the next one a failure. -/
def failing (args : List Nat) : State := { start args [] [] with rng := ⟨[some 0xCD, none], 0⟩ }

theorem failing_failsAt (args : List Nat) : (failing args).rng.failsAt 1 := by
  refine ⟨fun k hk => ?_, rfl⟩
  obtain rfl : k = 0 := by omega
  rfl

theorem witness_FailedDrawEndsGeneration :
    (∃ s : State, paramsOk s.args[0].toNat s.args[1].toNat s.args[3].toNat ∧
      s.args[2].toNat + s.args[3].toNat ≤ s.buf.size ∧
      s.args[4].toNat + s.args[1].toNat * (s.args[3].toNat + 1) ≤ s.buf.size ∧
      s.rng.failsAt 1 ∧ 1 < s.args[3].toNat * (s.args[0].toNat - 1)) ∧
    ∃ s : State, HashAlg.ofId s.args[7].toNat = some .sha256 ∧
      paramsOk s.args[0].toNat s.args[1].toNat (s.args[3].toNat + HashAlg.dlen .sha256) ∧
      s.args[2].toNat + s.args[3].toNat ≤ s.buf.size ∧ s.args[5].toNat + s.args[6].toNat ≤ s.buf.size ∧
      s.args[4].toNat + s.args[1].toNat * (21 + (s.args[3].toNat + HashAlg.dlen .sha256)) ≤ s.buf.size ∧
      s.rng.failsAt 1 ∧ 1 < (s.args[3].toNat + HashAlg.dlen .sha256) * (s.args[0].toNat - 1) :=
  ⟨⟨failing [2, 2, 0, 5, 0x100], by decide +kernel, by decide +kernel, by decide +kernel, failing_failsAt _,
      by decide +kernel⟩,
    ⟨failing [2, 2, 0, 0, 0x100, 0x10, 5, 2], by decide +kernel, by decide +kernel, by decide +kernel,
      by decide +kernel, by decide +kernel, failing_failsAt _, by decide +kernel⟩⟩

/-- Identifier lengths 15, 16 and 17. -/
theorem witness_IdentifierFieldTruncatesOrPads :
    (List.replicate 15 (1 : Byte)).length < 16 ∧ 16 ≤ (List.replicate 16 (1 : Byte)).length ∧
      16 ≤ (List.replicate 17 (1 : Byte)).length := by decide

theorem witness_HdrencWritesHeader :
    (∃ s : State, s.args[2].toNat ≤ 0xFF ∧ s.args[3].toNat ≤ 0xFF ∧ s.args[4].toNat ≤ 0xFFFF ∧
      s.args[0].toNat + s.args[1].toNat ≤ s.buf.size ∧ s.args[5].toNat + 20 ≤ s.buf.size) ∧
    (∃ s : State, 0xFF < s.args[2].toNat ∨ 0xFF < s.args[3].toNat ∨ 0xFFFF < s.args[4].toNat) ∧
    ∃ s : State, s.args[2].toNat ≤ 0xFF ∧ s.args[3].toNat ≤ 0xFF ∧ s.args[4].toNat ≤ 0xFFFF ∧
      (s.buf.size < s.args[0].toNat + s.args[1].toNat ∨ s.buf.size < s.args[5].toNat + 20) :=
  ⟨⟨start [0x10, 5, 0xFF, 0xFF, 0xFFFF, 0xFEC] [] [], by decide +kernel⟩,
    ⟨start [0x10, 5, 0, 2, 0x10000, 0x100] [] [], by decide +kernel⟩,
    ⟨start [0x10, 5, 0, 2, 6, 0xFED] [] [], by decide +kernel⟩⟩

theorem witness_HdrdecReadsHeader :
    (∃ s : State, 20 ≤ s.args[1].toNat ∧ s.args[0].toNat + s.args[1].toNat ≤ s.buf.size ∧
      s.args[2].toNat + 16 ≤ s.buf.size) ∧
    (∃ s : State, s.args[1].toNat < 20) ∧
    ∃ s : State, 20 ≤ s.args[1].toNat ∧
      (s.buf.size < s.args[0].toNat + s.args[1].toNat ∨ s.buf.size < s.args[2].toNat + 16) :=
  ⟨⟨start [0x100, 20, 0xFF0] [] [], by decide +kernel⟩, ⟨start [0xFFF, 19, 0x200] [] [], by decide +kernel⟩,
    ⟨start [0x100, 20, 0xFF1] [] [], by decide +kernel⟩⟩

theorem witness_HeaderCodecInverse : (List.replicate 16 (0 : Byte)).length = 16 ∧ 65535 ≤ 65535 := by decide

theorem witness_ShareWritesShares :
    ∃ (s : State) (h : HashAlg) (secret : List Byte), HashAlg.ofId s.args[7].toNat = some h ∧
      paramsOk s.args[0].toNat s.args[1].toNat (s.args[3].toNat + h.dlen) ∧
      s.args[2].toNat + s.args[3].toNat ≤ s.buf.size ∧ s.args[5].toNat + s.args[6].toNat ≤ s.buf.size ∧
      s.args[4].toNat + s.args[1].toNat * (21 + (s.args[3].toNat + h.dlen)) ≤ s.buf.size ∧
      s.rng.answers ((s.args[3].toNat + h.dlen) * (s.args[0].toNat - 1)) ∧
      secret = s.buf.readBytes s.args[2].toNat s.args[3].toNat :=
  ⟨state40, .noHash, _, by decide +kernel, by decide +kernel, by decide +kernel, by decide +kernel, by decide +kernel,
    state30_answers, rfl⟩

/-- Hash ids 3 and 2, the digest-extended lengths at the bound, and each region one byte too long (V45). -/
theorem witness_ShareChecksInOrder :
    (∃ s : State, 2 < s.args[7].toNat) ∧
      (∃ s : State, HashAlg.ofId s.args[7].toNat = some .sha256 ∧
        ¬paramsOk s.args[0].toNat s.args[1].toNat (s.args[3].toNat + HashAlg.dlen .sha256)) ∧
      (∃ s : State, HashAlg.ofId s.args[7].toNat = some .sha256 ∧
        paramsOk s.args[0].toNat s.args[1].toNat (s.args[3].toNat + HashAlg.dlen .sha256) ∧
        s.buf.size < s.args[2].toNat + s.args[3].toNat) ∧
      ∃ s : State, HashAlg.ofId s.args[7].toNat = some .noHash ∧
        paramsOk s.args[0].toNat s.args[1].toNat (s.args[3].toNat + HashAlg.dlen .noHash) ∧
        (s.buf.size < s.args[5].toNat + s.args[6].toNat ∨
          s.buf.size < s.args[4].toNat + s.args[1].toNat * (21 + (s.args[3].toNat + HashAlg.dlen .noHash))) :=
  ⟨⟨start [2, 2, 0, 5, 0x100, 0x10, 5, 3] [] [], by decide +kernel⟩,
    ⟨start [2, 2, 0, 65503, 0x100, 0x10, 5, 2] [] [], by decide +kernel⟩,
    ⟨start [2, 2, 0, 65502, 0x100, 0x10, 5, 2] [] [], by decide +kernel⟩,
    ⟨start [2, 2, 0, 5, 0xFCD, 0x10, 5, 0] [] [], by decide +kernel⟩⟩

theorem witness_LinterpResultAndChecks :
    (∃ s : State, s.args[0].toNat + s.args[2].toNat ≤ s.buf.size ∧ s.args[1].toNat + s.args[2].toNat ≤ s.buf.size ∧
      (s.buf.readBytes s.args[0].toNat s.args[2].toNat).Nodup) ∧
    (∃ s : State, s.args[0].toNat + s.args[2].toNat ≤ s.buf.size ∧ s.args[1].toNat + s.args[2].toNat ≤ s.buf.size ∧
      ¬(s.buf.readBytes s.args[0].toNat s.args[2].toNat).Nodup) ∧
    ∃ s : State, s.buf.size < s.args[0].toNat + s.args[2].toNat ∨ s.buf.size < s.args[1].toNat + s.args[2].toNat :=
  ⟨⟨start [0xFFE, 0x20, 2] [(0xFFE, [1, 2])] [], by decide +kernel⟩,
    ⟨start [0x10, 0x20, 2] [(0x10, [1, 1])] [], by decide +kernel⟩,
    ⟨start [0x10, 0xFFF, 2] [] [], by decide +kernel⟩⟩

theorem witness_InterpolationFailsOnlyOnEqualCoordinates :
    ([1, 1] : List Byte).length = ([5, 5] : List Byte).length ∧ ¬([1, 1] : List Byte).Nodup ∧
      ([1, 2] : List Byte).Nodup ∧ 256 < (List.replicate 257 (0 : Byte)).length := by decide +kernel

theorem witness_InterpolationRecoversConstantTerm :
    ∃ (t : Rom) (u v : List Byte), t.valid ∧ u.length = v.length ∧ u.Nodup ∧
      u.map (fun x => polyValue t x [0x2A, 0x11, 0x07]) = v :=
  ⟨State.reset.rom, [0x03, 0xFF, 0x02], [0x02, 0xC5, 0x14], default_rom_valid, by decide, by decide, by decide +kernel⟩

theorem witness_ReconstructNeedsSharesAndTable :
    (∃ s : State, s.args[1] = 0) ∧
      ∃ s : State, s.args[1] ≠ 0 ∧ s.buf.size < s.args[0].toNat + 8 * s.args[1].toNat :=
  ⟨⟨start [0xFFFFFFFF, 0] [] [], by decide⟩, ⟨start [0xFF8, 2] [] [], by decide, by decide⟩⟩

/-- A table whose second share is shorter than 20 bytes (V64, last row). -/
def shortSecond : State :=
  start [0x200, 2, 0x300] [(0x100, share40 0), (0x200, table60.take 8 ++ [0, 0, 0, 0, 0, 0, 0, 3])] []

theorem witness_ValidationReportsFirstDefect :
    ∃ (s : State) (i : Nat) (e : OpError), s.args[1] ≠ 0 ∧ s.args[0].toNat + 8 * s.args[1].toNat ≤ s.buf.size ∧
      i < s.args[1].toNat ∧ (∀ j, j < i → shareDefect s j = none) ∧ shareDefect s i = some e :=
  ⟨shortSecond, 1, .malformedShare, by decide +kernel, by decide +kernel, by decide +kernel, by decide +kernel,
    by decide +kernel⟩

/-- One share whose header has the given hash id and share_len, threshold 1, and that many zero payload bytes. -/
def oneShare (hash sl : Nat) : State :=
  start [0x200, 1, 0x300]
    [(0x100, [0x78, 0, 0, 0, 0, 0, 0, 0, 0, 0, 0, 0, 0, 0, 0, 0, hash, 1, 0, sl] ++ List.replicate sl 0),
      (0x200, [0, 0, 1, 0, 0, 0, 0, 20 + sl])] []

theorem state60_valid : InputValid state60 :=
  ⟨by decide +kernel, by decide +kernel, by decide +kernel, by decide +kernel⟩

theorem witness_EmptyPayloadAndUnknownHash :
    (∃ s : State, s.args[1] ≠ 0 ∧ s.args[0].toNat + 8 * s.args[1].toNat ≤ s.buf.size ∧
      (∀ i, i < s.args[1].toNat → shareDefect s i = none) ∧ refShareLen s = 0) ∧
      ∃ s : State, InputValid s ∧ 2 < refHash s :=
  ⟨⟨oneShare 0 0, by decide +kernel, by decide +kernel, by decide +kernel, by decide +kernel⟩,
    ⟨oneShare 3 2, ⟨by decide +kernel, by decide +kernel, by decide +kernel, by decide +kernel⟩, by decide +kernel⟩⟩

theorem witness_SearchFollowsLexicographicOrder : ∃ count t : Nat, 0 < count ∧ t ≤ count := ⟨4, 2, by decide, by decide⟩

theorem witness_StrictModeExaminesFirstSubsetOnly :
    ∃ (t : Nat) (pays : List (List Byte)), pays ≠ [] ∧ t ≤ pays.length ∧
      examine State.reset.rom .fips180 .noHash 2 (pays.take t) = .ok .duplicate :=
  ⟨2, [[1, 5], [1, 6]], by decide, by decide, by decide +kernel⟩

/-- Index bytes that coincide, and index bytes that do not. -/
theorem witness_examination :
    ¬(([[1, 5], [1, 6]] : List (List Byte)).map (·.getD 0 0)).Nodup ∧
      (([[1, 5], [2, 6]] : List (List Byte)).map (·.getD 0 0)).Nodup := by decide

theorem witness_ReconstructWithoutHashInterpolates :
    ∃ s : State, InputValid s ∧ refHash s = 0 ∧
      ((List.range (refThreshold s)).map fun i => payloadByte s i 0).Nodup ∧
      s.args[2].toNat + (refShareLen s - 1) ≤ s.buf.size :=
  ⟨state60, state60_valid, by decide +kernel, by decide +kernel, by decide +kernel⟩

/-- With a register RECONSTRUCT does not name changed. -/
def state60' : State := { state60 with args := state60.args.set 3 1 }

theorem next_of_isSome {o : Host.Outcome State Fault Refusal} (h : (nextOf o).isSome = true) : ∃ t, o = .next t := by
  cases o with
  | next t => exact ⟨t, rfl⟩
  | fault f => cases h
  | refused r => cases h

theorem witness_ReconstructIsDeterministic :
    ∃ s s' t t' : State, s.args[3] ≠ s'.args[3] ∧ s.args[0] = s'.args[0] ∧ s.args[1] = s'.args[1] ∧
      s.args[2] = s'.args[2] ∧ s.buf = s'.buf ∧ s.rom = s'.rom ∧ s.digestUnit = s'.digestUnit ∧
      exec (.reconstruct true) s = .next t ∧ exec (.reconstruct true) s' = .next t' := by
  obtain ⟨t, ht⟩ := next_of_isSome (o := exec (.reconstruct true) state60) (by decide +kernel)
  obtain ⟨t', ht'⟩ := next_of_isSome (o := exec (.reconstruct true) state60') (by decide +kernel)
  exact ⟨state60, state60', t, t', by decide +kernel, by decide +kernel, by decide +kernel, by decide +kernel,
    rfl, rfl, rfl, ht, ht'⟩

/-- The state SHARE leaves from the start state of V40. -/
def after40 : State := (nextOf (exec (.share false) state40)).getD State.reset

/-- V60's call on the shares of V40, in the other order. -/
def recon40 : State :=
  { after40 with
    args := #v[0x200, 2, 0x300, 0, 0, 0, 0, 0]
    buf := after40.buf.writeBytes 0x200 ((table60.drop 8 ++ table60.take 8).map (BitVec.ofNat 8)) }

theorem witness_ShareReconstructRoundTrip :
    ∃ (s t u : State) (idx : List Nat), s.rom.valid ∧ exec (.share false) s = .next t ∧ t.ecode = 0x00 ∧
      u.rom = s.rom ∧ u.digestUnit = s.digestUnit ∧ idx.Nodup ∧ (∀ i ∈ idx, i < s.args[1].toNat) ∧
      s.args[0].toNat ≤ idx.length ∧ u.args[1].toNat = idx.length ∧ u.args[0].toNat + 8 * idx.length ≤ u.buf.size ∧
      (∀ k i, idx[k]? = some i →
        shareLen u k = t.res[0].toNat ∧ shareAddr u k + shareLen u k ≤ u.buf.size ∧
          u.buf.readBytes (shareAddr u k) (shareLen u k) =
            t.buf.readBytes (s.args[4].toNat + i * t.res[0].toNat) t.res[0].toNat) ∧
      u.args[2].toNat + s.args[3].toNat ≤ u.buf.size := by
  refine ⟨state40, after40, recon40, [1, 0], default_rom_valid, rfl, by decide +kernel, rfl, rfl, by decide,
    by decide +kernel, by decide +kernel, by decide +kernel, by decide +kernel, ?_, by decide +kernel⟩
  intro k i hk
  match k with
  | 0 =>
    obtain rfl : 1 = i := by simpa using hk
    decide +kernel
  | 1 =>
    obtain rfl : 0 = i := by simpa using hk
    decide +kernel
  | k + 2 => simp at hk

/-! The three kinds of subsets, in strict and in lenient mode. -/

/-- One share of threshold 1 with the given hash id and payload: its candidate is the payload without the index byte. -/
def oneSharePayload (hash : Nat) (payload : List Nat) : State :=
  start [0x200, 1, 0x300]
    [(0x100, [0x78, 0, 0, 0, 0, 0, 0, 0, 0, 0, 0, 0, 0, 0, 0, 0, hash, 1, 0, payload.length] ++ payload),
      (0x200, [0, 0, 1, 0, 0, 0, 0, 20 + payload.length])] []

/-- The digest of the empty sequence (V44), and the same with its last byte changed. -/
def emptyDigest (last : Nat) : List Nat :=
  [0xDA, 0x39, 0xA3, 0xEE, 0x5E, 0x6B, 0x4B, 0x0D, 0x32, 0x55, 0xBF, 0xEF, 0x95, 0x60, 0x18, 0x90, 0xAF, 0xD8, 0x07, last]

theorem oneSharePayload_valid (last : Nat) (h : last = 0x09 ∨ last = 0x08) :
    InputValid (oneSharePayload 1 (1 :: emptyDigest last)) := by
  rcases h with rfl | rfl <;> exact ⟨by decide +kernel, by decide +kernel, by decide +kernel, by decide +kernel⟩

/-- A verified secret, the empty one. -/
theorem emptySecret_yields : Yields (oneSharePayload 1 (1 :: emptyDigest 0x09)) .sha1 [0] [] :=
  ⟨by decide +kernel, ⟨by decide +kernel, by decide +kernel⟩⟩

/-- A candidate whose last digest byte is wrong. -/
theorem lastByte_fails : FailsVerification (oneSharePayload 1 (1 :: emptyDigest 0x08)) .sha1 [0] := by
  refine ⟨by decide +kernel, (emptyDigest 0x08).map (BitVec.ofNat 8), ⟨by decide +kernel, by decide +kernel⟩, ?_⟩
  intro r hr
  have hl := congrArg List.length hr
  have hd : (digest (oneSharePayload 1 (1 :: emptyDigest 0x08)).digestUnit .sha1 r).length = 20 := rfl
  rw [List.length_append, hd, show ((emptyDigest 0x08).map (BitVec.ofNat 8)).length = 20 from rfl] at hl
  obtain rfl : r = [] := List.eq_nil_of_length_eq_zero (by omega)
  revert hr
  decide +kernel

/-- V60 with the table of V63's shape: share 0 twice, and then share 1 or nothing more. -/
def twiceFirst (count : Nat) : State :=
  { state60 with
    args := #v[0x200, BitVec.ofNat 32 count, 0x300, 0, 0, 0, 0, 0]
    buf := state60.buf.writeBytes 0x200 ((table60.take 8 ++ table60).map (BitVec.ofNat 8)) }

theorem twiceFirst_valid (count : Nat) (h : count = 2 ∨ count = 3) : InputValid (twiceFirst count) := by
  rcases h with rfl | rfl <;> exact ⟨by decide +kernel, by decide +kernel, by decide +kernel, by decide +kernel⟩

/-- The secret of V60. -/
def secret60 : List Byte := [0x74, 0x65, 0x73, 0x74, 0]

/-- A verified secret, coinciding index bytes, a failed verification, and a result that ends at the end of BUF or one byte
behind it (V6A). -/
theorem witness_StrictReconstructOutcome :
    (∃ s r, InputValid s ∧ HashAlg.ofId (refHash s) = some .sha1 ∧ Yields s .sha1 (List.range (refThreshold s)) r) ∧
      (∃ s, InputValid s ∧ HashAlg.ofId (refHash s) = some .noHash ∧
        ¬(indexBytes s (List.range (refThreshold s))).Nodup) ∧
      (∃ s, InputValid s ∧ HashAlg.ofId (refHash s) = some .sha1 ∧
        FailsVerification s .sha1 (List.range (refThreshold s))) ∧
      (0xFFB + secret60.length ≤ State.reset.buf.size ∧ State.reset.buf.size < 0xFFC + secret60.length) ∧
      Yields state60 .noHash (List.range (refThreshold state60)) secret60 := by
  refine ⟨⟨_, [], oneSharePayload_valid 0x09 (.inl rfl), by decide +kernel, ?_⟩,
    ⟨_, twiceFirst_valid 2 (.inl rfl), by decide +kernel, by decide +kernel⟩,
    ⟨_, oneSharePayload_valid 0x08 (.inr rfl), by decide +kernel, ?_⟩, by decide +kernel,
    ⟨by decide +kernel, ⟨by decide +kernel, by decide +kernel⟩⟩⟩
  · rw [show refThreshold (oneSharePayload 1 (1 :: emptyDigest 0x09)) = 1 by decide +kernel]
    exact emptySecret_yields
  · rw [show refThreshold (oneSharePayload 1 (1 :: emptyDigest 0x08)) = 1 by decide +kernel]
    exact lastByte_fails

/-- The second subset yields after the first is skipped (V63's shape), and no subset yields. -/
theorem witness_LenientReconstructOutcome :
    (∃ s c, InputValid s ∧ HashAlg.ofId (refHash s) = some .noHash ∧
      (lexSubsets (refThreshold s) (List.range s.args[1].toNat))[1]? = some c ∧
      (∀ c', (lexSubsets (refThreshold s) (List.range s.args[1].toNat))[0]? = some c' → ¬(indexBytes s c').Nodup) ∧
      Yields s .noHash c secret60) ∧
    ∃ s, InputValid s ∧ HashAlg.ofId (refHash s) = some .noHash ∧
      ∀ c ∈ lexSubsets (refThreshold s) (List.range s.args[1].toNat), ¬(indexBytes s c).Nodup :=
  ⟨⟨twiceFirst 3, [0, 2], twiceFirst_valid 3 (.inr rfl), by decide +kernel, by decide +kernel, by decide +kernel,
      ⟨by decide +kernel, ⟨by decide +kernel, by decide +kernel⟩⟩⟩,
    ⟨twiceFirst 2, twiceFirst_valid 2 (.inl rfl), by decide +kernel, by decide +kernel⟩⟩

end Sys2Proof.Tests
end

/-! PROOFS. The family 00_scope.md: digest lengths, where the commands store, the invariant, and the register window. -/

namespace Sys2Proof.Machine

/-! ## Lengths of digests and secrets -/

@[simp] theorem length_wordBytes (w : Word) : (wordBytes w).length = 4 := rfl

@[simp] theorem length_sha1 (m : List Byte) : (sha1 m).length = 20 := rfl

@[simp] theorem length_sha256 (m : List Byte) : (sha256 m).length = 32 := rfl

/-- Both digest units give `dlen` bytes: FIPS 180-4 its five or eight words, an external unit a vector of that size. -/
@[simp] theorem length_digest (u : DigestUnit) (h : HashAlg) (m : List Byte) : (digest u h m).length = h.dlen := by
  cases h with
  | noHash => rfl
  | sha1 =>
    cases u with
    | fips180 => exact length_sha1 m
    | external id => exact Vector.length_toList
  | sha256 =>
    cases u with
    | fips180 => exact length_sha256 m
    | external id => exact Vector.length_toList

@[simp] theorem length_extendSecret (u : DigestUnit) (h : HashAlg) (m : List Byte) :
    (extendSecret u h m).length = m.length + h.dlen := by
  cases h <;> simp [extendSecret, HashAlg.dlen]

/-! ## Lengths of headers and payloads -/

@[simp] theorem length_idField (id : List Byte) : (idField id).length = 16 := by
  simp only [idField, List.length_append, List.length_take, List.length_replicate]
  omega

@[simp] theorem length_encodeHeader (id : List Byte) (h t : Byte) (sl : Nat) : (encodeHeader id h t sl).length = 20 := by
  simp [encodeHeader, be16]

/-- A decoded header's identifier is the identifier field, 16 bytes at most. -/
theorem length_ident_le_of_decodeHeader {b : List Byte} {hdr : Header} (h : decodeHeader b = .ok hdr) :
    hdr.ident.length ≤ 16 := by
  unfold decodeHeader at h
  split at h
  · cases h
    exact List.length_take_le 16 b
  · cases h

/-- One polynomial is drawn for each byte of the secret. -/
theorem length_of_drawPolynomials {m : Nat} {secret : List Byte} {r : Rng} {polys : List (List Byte)}
    (h : (drawPolynomials m secret r).1 = some polys) : polys.length = secret.length := by
  induction secret generalizing r polys with
  | nil => cases h; rfl
  | cons b secret ih =>
    simp only [drawPolynomials] at h
    split at h
    · cases h
    · split at h
      · cases h
      · next hp =>
        cases h
        simp [ih (congrArg Prod.fst hp)]

/-- The generator answers `n` payloads of one byte more than the secret. -/
theorem lengths_of_generate {t : Rom} {m n : Nat} {secret : List Byte} {r : Rng} {outs : List (List Byte)}
    (h : (generate t m n secret r).1 = .ok outs) :
    outs.length = n ∧ ∀ o ∈ outs, o.length = secret.length + 1 := by
  unfold generate at h
  split at h
  · cases h
  · next hp =>
    cases h
    have hlen := length_of_drawPolynomials (congrArg Prod.fst hp)
    simp [payloads, payload, hlen]

/-! ## Every command stores inside BUF -/

/-- Every store of the effects is into a valid region of a memory (R55). -/
def Effects.Fits (fx : Effects) (m : Memory) : Prop := ∀ p ∈ fx.stores, m.region p.1 p.2.length

/-- A single store fits when its region is valid. -/
theorem Effects.fits_single {m : Memory} {a n : Nat} {bs : List Byte} (results : List (Fin 4 × Word))
    (hr : m.region a n) (hn : bs.length ≤ n) : (Effects.mk [(a, bs)] results).Fits m := by
  intro p hp
  obtain rfl := List.mem_singleton.mp hp
  exact (Nat.add_le_add_left hn a).trans hr

/-- Outputs of `stride` bytes written one after another stay inside the region of all of them. -/
theorem consecutive_fits {m : Memory} {dst stride : Nat} {outs : List (List Byte)} (results : List (Fin 4 × Word))
    (hr : m.region dst (outs.length * stride)) (hlen : ∀ o ∈ outs, o.length = stride) :
    (Effects.mk (consecutive dst stride outs) results).Fits m := by
  intro p hp
  obtain ⟨⟨o, i⟩, ho, rfl⟩ := List.mem_map.mp hp
  have hi : i < outs.length := by simpa using List.snd_lt_add_of_mem_zipIdx ho
  calc dst + i * stride + o.length
      = dst + (i + 1) * stride := by rw [hlen o (List.fst_mem_of_mem_zipIdx ho), Nat.succ_mul, Nat.add_assoc]
    _ ≤ dst + outs.length * stride := Nat.add_le_add_left (Nat.mul_le_mul_right stride hi) dst
    _ ≤ m.size := hr

/-- What a scalar command answers when it ends OK: a byte in RES0 and no store (R26). -/
def AnswersByte (x : Except OpError Effects) : Prop := ∀ fx, x = .ok fx → ∃ b, fx = byteResult b

theorem AnswersByte.pure (b : Byte) : AnswersByte (Pure.pure (byteResult b)) :=
  fun _ h => ⟨b, (Except.ok.inj h).symm⟩

theorem AnswersByte.bind {α : Type} {x : Except OpError α} {f : α → Except OpError Effects}
    (hf : ∀ a, AnswersByte (f a)) : AnswersByte (x >>= f) := by
  intro fx h
  obtain ⟨a, -, ha⟩ := bind_eq_ok.mp h
  exact hf a fx ha

theorem AnswersByte.fits {x : Except OpError Effects} (hx : AnswersByte x) {fx : Effects} (h : x = .ok fx)
    (m : Memory) : fx.Fits m := by
  obtain ⟨b, rfl⟩ := hx fx h
  simp [Effects.Fits, byteResult]

theorem evalGfadd_answersByte (s : State) : AnswersByte (evalGfadd s) :=
  .bind fun _ => .bind fun _ => .pure _

theorem evalGfsub_answersByte (s : State) : AnswersByte (evalGfsub s) :=
  .bind fun _ => .bind fun _ => .pure _

theorem evalGfmul_answersByte (s : State) : AnswersByte (evalGfmul s) :=
  .bind fun _ => .bind fun _ => .pure _

theorem evalGfdiv_answersByte (s : State) : AnswersByte (evalGfdiv s) :=
  .bind fun _ => .bind fun _ => .bind fun _ => .pure _

theorem evalPeval_answersByte (s : State) : AnswersByte (evalPeval s) :=
  .bind fun _ => .bind fun _ => .bind fun _ => .bind fun _ => .pure _

theorem evalLinterp_answersByte (s : State) : AnswersByte (evalLinterp s) :=
  .bind fun _ => .bind fun _ => .bind fun _ => .pure _

theorem evalHdrenc_fits {s : State} {fx : Effects} (h : evalHdrenc s = .ok fx) : fx.Fits s.buf := by
  simp only [evalHdrenc, bind_eq_ok] at h
  obtain ⟨id, -, t, -, sl, -, _, -, _, hdst, h⟩ := h
  cases h
  exact Effects.fits_single _ (require_eq_ok.mp hdst) (length_encodeHeader ..).le

theorem evalHdrdec_fits {s : State} {fx : Effects} (h : evalHdrdec s = .ok fx) : fx.Fits s.buf := by
  simp only [evalHdrdec, bind_eq_ok] at h
  obtain ⟨_, -, _, -, _, hdst, hdr, hdec, h⟩ := h
  cases h
  exact Effects.fits_single _ (require_eq_ok.mp hdst) (length_ident_le_of_decodeHeader hdec)

theorem evalReconstruct_fits {lenient : Bool} {s : State} {fx : Effects} (h : evalReconstruct lenient s = .ok fx) :
    fx.Fits s.buf := by
  simp only [evalReconstruct, bind_eq_ok] at h
  obtain ⟨_, -, _, -, ⟨hdr, pays⟩, -, _, -, h⟩ := h
  split at h
  · cases h
  · simp only [bind_eq_ok] at h
    obtain ⟨r, -, _, hdst, h⟩ := h
    cases h
    exact Effects.fits_single _ (require_eq_ok.mp hdst) le_rfl

/-- When GENERATE's checks pass, the whole of its output lies inside BUF (R122). -/
theorem region_of_checkGenerate {s : State} (h : checkGenerate s = .ok ()) :
    s.buf.region (wordOperand s 4) (wordOperand s 1 * (wordOperand s 3 + 1)) := by
  simp only [checkGenerate, bind_eq_ok] at h
  obtain ⟨_, -, _, -, h⟩ := h
  exact require_eq_ok.mp h

/-- When SHARE's checks pass, the whole of its output lies inside BUF (R153). -/
theorem region_of_checkShare {noid : Bool} {s : State} {h : HashAlg} (hc : checkShare noid s = .ok h) :
    s.buf.region (wordOperand s 4) (wordOperand s 1 * (21 + (wordOperand s 3 + h.dlen))) := by
  simp only [checkShare, bind_eq_ok] at hc
  obtain ⟨_, -, hc⟩ := hc
  split at hc
  · cases hc
  · simp only [bind_eq_ok] at hc
    obtain ⟨_, -, _, -, _, -, _, hdst, hc⟩ := hc
    cases hc
    exact require_eq_ok.mp hdst

/-- From a mapped result that is OK, the result before the map is. -/
theorem map_eq_ok {α β : Type} {x : Except OpError α} {f : α → β} {b : β} (h : x.map f = .ok b) :
    ∃ a, x = .ok a ∧ f a = b := by
  cases x with
  | ok a => exact ⟨a, rfl, Except.ok.inj h⟩
  | error e => cases h

theorem evalGenerate_fits {s : State} {fx : Effects} (h : (evalGenerate s).1 = .ok fx) : fx.Fits s.buf := by
  unfold evalGenerate at h
  split at h
  · cases h
  · next hc =>
    obtain ⟨outs, hg, rfl⟩ := map_eq_ok h
    obtain ⟨hn, hlen⟩ := lengths_of_generate hg
    exact consecutive_fits _ (by simpa only [hn] using region_of_checkGenerate hc) (by simpa using hlen)

theorem evalShare_fits {noid : Bool} {s : State} {fx : Effects} (h : (evalShare noid s).1 = .ok fx) :
    fx.Fits s.buf := by
  unfold evalShare at h
  split at h
  · cases h
  · next hc =>
    obtain ⟨outs, hg, rfl⟩ := map_eq_ok h
    obtain ⟨hn, hlen⟩ := lengths_of_generate hg
    refine consecutive_fits _ (by simpa only [List.length_map, hn] using region_of_checkShare hc) fun o ho => ?_
    obtain ⟨p, hp, rfl⟩ := List.mem_map.mp ho
    simp only [shareHeader, List.length_append, length_encodeHeader, hlen p hp, length_extendSecret,
      Memory.length_readBytes]
    omega

/-- Every command that ends OK stores inside BUF (R57). -/
theorem evalInstr_fits {i : Instr} {s : State} {fx : Effects} (h : (evalInstr i s).1 = .ok fx) : fx.Fits s.buf := by
  cases i with
  | gfadd => exact (evalGfadd_answersByte s).fits h s.buf
  | gfsub => exact (evalGfsub_answersByte s).fits h s.buf
  | gfmul => exact (evalGfmul_answersByte s).fits h s.buf
  | gfdiv => exact (evalGfdiv_answersByte s).fits h s.buf
  | peval => exact (evalPeval_answersByte s).fits h s.buf
  | generate => exact evalGenerate_fits h
  | hdrenc => exact evalHdrenc_fits h
  | hdrdec => exact evalHdrdec_fits h
  | share noid => exact evalShare_fits h
  | linterp => exact (evalLinterp_answersByte s).fits h s.buf
  | reconstruct lenient => exact evalReconstruct_fits h

/-! ## The invariant -/

/-- A completion with an outcome code keeps the invariant: DONE is set and BUSY is not. -/
theorem State.Inv.finish {s : State} (h : s.Inv) {c : Byte} (hc : c ∈ legalCodes) : (s.finish c).Inv :=
  { sizeOk := h.sizeOk, bufWf := h.bufWf, romValid := h.romValid, notBoth := by simp, quiet := by simp, codeLegal := hc }

theorem State.Inv.raiseError {s : State} (h : s.Inv) (e : OpError) : (s.raiseError e).Inv :=
  h.finish e.code_legal

/-- BUF and the result registers may be replaced, BUF by one of the same size in canonical form. -/
theorem State.Inv.withBuf {s : State} (h : s.Inv) {m : Memory} (hsize : m.size = s.buf.size) (hwf : m.wf)
    (res : Vector Word 4) : ({ s with buf := m, res := res } : State).Inv :=
  { h with sizeOk := hsize ▸ h.sizeOk, bufWf := hwf }

theorem State.Inv.completeOk {s : State} (h : s.Inv) {fx : Effects} (hfx : fx.Fits s.buf) : (s.completeOk fx).Inv :=
  (h.withBuf (Memory.storeAll_size _ _) (Memory.wf_storeAll h.bufWf hfx) _).finish okCode_legal

theorem State.Inv.accept {s : State} (h : s.Inv) (w : Word) : (s.accept w).Inv :=
  { h with notBoth := by simp, quiet := by simp, codeLegal := okCode_legal }

theorem State.Inv.writeReg {s : State} (h : s.Inv) (r : Reg) (v : Word) : (writeReg s r v).Inv := by
  cases r with
  | cmd => exact h.accept v
  | status => exact h
  | reserved second => exact h
  | arg k => exact { h with }
  | res k => exact h

/-- Reset leaves BUF as it is or forgets its contents; either is in canonical form. -/
theorem State.Inv.resetEvent {s : State} (h : s.Inv) : s.resetEvent.Inv := by
  refine { sizeOk := ?_, bufWf := ?_, romValid := h.romValid, notBoth := by simp, quiet := by simp,
           codeLegal := okCode_legal }
  · rw [State.resetEvent_buf]
    split
    · exact h.sizeOk
    · exact h.sizeOk
  · rw [State.resetEvent_buf]
    split
    · exact h.bufWf
    · exact Memory.wf_forget _

theorem hostPerform_keeps_inv {a : HostAccess} {s t : State} (h : s.Inv) (ht : hostPerform a s = .next t) : t.Inv := by
  obtain ⟨r, rfl⟩ | ⟨r, v, rfl⟩ | ⟨addr, b, ha, rfl⟩ | rfl := hostPerform_cases ht
  · exact { h with }
  · exact h.writeReg r v
  · exact h.withBuf (Memory.write_size s.buf addr b) (Memory.wf_write addr b h.bufWf ha) s.res
  · exact h.resetEvent

theorem exec_keeps_inv {i : Instr} {s t : State} (h : s.Inv) (ht : exec i s = .next t) : t.Inv := by
  have hrng : ({ s with rng := (evalInstr i s).2 } : State).Inv := { h with }
  obtain ⟨fx, hfx, rfl⟩ | ⟨e, -, rfl⟩ := exec_cases ht
  · have hfits := evalInstr_fits hfx
    exact hrng.completeOk hfits
  · exact hrng.raiseError e

theorem completionStep_keeps_inv {s t : State} (h : s.Inv) (ht : completionStep s = .next t) : t.Inv := by
  obtain ⟨i, -, hi⟩ | ⟨_, -, rfl⟩ := completionStep_cases ht
  · exact exec_keeps_inv h hi
  · exact h.raiseError _

theorem step_keeps_inv {s t : State} (h : s.Inv) (ht : step s = .next t) : t.Inv := by
  obtain ⟨a, s', hm, ha⟩ | ⟨-, -, hc⟩ | ⟨-, -, rfl⟩ := step_cases ht
  · obtain ⟨e, rest, -, -, rfl, -⟩ := hostMoves_eq_some hm
    have hrest : ({ s with host := rest } : State).Inv := { h with }
    exact hostPerform_keeps_inv hrest ha
  · exact completionStep_keeps_inv h hc
  · exact h

/-! ## The parameters of the machine -/

/-- Two states of one machine: the same tables, digest unit and size of BUF (R39). -/
def State.SameMachine (s t : State) : Prop :=
  t.rom = s.rom ∧ t.digestUnit = s.digestUnit ∧ t.buf.size = s.buf.size

theorem writeReg_sameMachine (s : State) (r : Reg) (v : Word) : s.SameMachine (writeReg s r v) := by
  cases r <;> exact ⟨rfl, rfl, rfl⟩

theorem resetEvent_sameMachine (s : State) : s.SameMachine s.resetEvent := by
  refine ⟨rfl, rfl, ?_⟩
  rw [State.resetEvent_buf]
  split
  · rfl
  · exact Memory.forget_size _

theorem hostPerform_sameMachine {a : HostAccess} {s t : State} (ht : hostPerform a s = .next t) : s.SameMachine t := by
  obtain ⟨r, rfl⟩ | ⟨r, v, rfl⟩ | ⟨addr, b, -, rfl⟩ | rfl := hostPerform_cases ht
  · exact ⟨rfl, rfl, rfl⟩
  · exact writeReg_sameMachine s r v
  · exact ⟨rfl, rfl, Memory.write_size ..⟩
  · exact resetEvent_sameMachine s

theorem exec_sameMachine {i : Instr} {s t : State} (ht : exec i s = .next t) : s.SameMachine t := by
  obtain ⟨fx, -, rfl⟩ | ⟨e, -, rfl⟩ := exec_cases ht
  · exact ⟨rfl, rfl, Memory.storeAll_size ..⟩
  · exact ⟨rfl, rfl, rfl⟩

theorem completionStep_sameMachine {s t : State} (ht : completionStep s = .next t) : s.SameMachine t := by
  obtain ⟨i, -, hi⟩ | ⟨_, -, rfl⟩ := completionStep_cases ht
  · exact exec_sameMachine hi
  · exact ⟨rfl, rfl, rfl⟩

theorem step_sameMachine {s t : State} (ht : step s = .next t) : s.SameMachine t := by
  obtain ⟨a, s', hm, ha⟩ | ⟨-, -, hc⟩ | ⟨-, -, rfl⟩ := step_cases ht
  · obtain ⟨e, rest, -, -, rfl, -⟩ := hostMoves_eq_some hm
    have hkeep := hostPerform_sameMachine ha
    exact hkeep
  · exact completionStep_sameMachine hc
  · exact ⟨rfl, rfl, rfl⟩

/-! ## The register window -/

/-- The sixteen offsets are distinct: each names its own location (R21). -/
@[simp] theorem Reg.ofOffset_offset (r : Reg) : Reg.ofOffset r.offset = some r := by
  cases r with
  | cmd => rfl
  | status => rfl
  | reserved second => cases second <;> rfl
  | arg k => fin_cases k <;> rfl
  | res k => fin_cases k <;> rfl

@[simp] theorem regAccess_offset (r : Reg) : regAccess r.offset 4 = some r := by
  simp [regAccess]

theorem hostPerform_regRead (s : State) (r : Reg) :
    hostPerform (.regRead r.offset 4) s = .next (s.reply (.word (readReg s r))) := by
  simp [hostPerform]

theorem hostPerform_regWrite (s : State) (r : Reg) (v : Word) :
    hostPerform (.regWrite r.offset 4 v) s = .next (writeReg s r v) := by
  simp [hostPerform]

/-- A step performs the host's next access when it is the host's turn. -/
theorem step_of_hostTurn {s : State} {e : HostEvent} {rest : List HostEvent} (hs : s.host = e :: rest)
    (hturn : s.busy = false ∨ e.beforeCompletion = true) :
    step s = hostPerform e.access { s with host := rest } := by
  have hm : hostMoves s = some (e.access, { s with host := rest }) := by
    rcases hturn with hb | hb <;> simp [hostMoves, hs, hb]
  simp only [step, hm]

/-- A reset or a read of a location is not held, so its place before the completion counts (R30, R42). -/
theorem beforeCompletion_of_reset_or_regRead {a : HostAccess} (h : a = .reset ∨ ∃ r : Reg, a = .regRead r.offset 4) :
    (HostEvent.mk a true).beforeCompletion = true := by
  obtain rfl | ⟨r, rfl⟩ := h
  · rfl
  · simp [HostEvent.beforeCompletion, HostAccess.notHeld]

end Sys2Proof.Machine

namespace Sys2Proof

open Machine

/-- Settles O46, by cases on the algorithm and the digest unit. -/
theorem digestHasItsLength : Obligations.DigestHasItsLength :=
  length_digest

/-- Settles O2: the reset state's tables are the default ones, which the pair of R10 builds. -/
theorem resetMeetsInvariant : Obligations.ResetMeetsInvariant where
  sizeOk := by decide
  bufWf := State.reset_wf
  romValid := Tests.default_rom_valid
  notBoth := by simp [State.reset]
  quiet := fun _ => rfl
  codeLegal := okCode_legal

/-- Settles O3, by cases on what a step can be; a command keeps BUF canonical because all its stores lie inside BUF. -/
theorem stepKeepsInvariant : Obligations.StepKeepsInvariant :=
  fun _ _ => step_keeps_inv

/-- Settles O4, by cases on what a step can be. -/
theorem stepKeepsTablesAndParameters : Obligations.StepKeepsTablesAndParameters :=
  fun _ _ => step_sameMachine

/-- Settles O8: every access of the window is one to a location by its offset, and the host's turn is that of `hostMoves`. -/
theorem registerWindowMap : Obligations.RegisterWindowMap := by
  intro s
  refine ⟨hostPerform_regRead s .cmd, hostPerform_regRead s .status, hostPerform_regRead s (.reserved false),
    hostPerform_regRead s (.reserved true), fun k => hostPerform_regRead s (.arg k),
    fun k => hostPerform_regRead s (.res k), hostPerform_regWrite s .status, hostPerform_regWrite s (.reserved false),
    hostPerform_regWrite s (.reserved true), fun v k => hostPerform_regWrite s (.arg k) v,
    fun v k => hostPerform_regWrite s (.res k) v, hostPerform_regWrite s .cmd, ?_⟩
  rintro a early rest hs (hidle | ⟨rfl, ha⟩)
  · exact step_of_hostTurn hs (.inl hidle)
  · exact step_of_hostTurn hs (.inr (beforeCompletion_of_reset_or_regRead ha))

end Sys2Proof

/-! PROOFS. The family 10_state.md: the register window and STATUS, whose turn a step is, what every command has in common,
and the frame of each command. -/

namespace Sys2Proof.Machine

/-! ## Accesses to the register window -/

/-- An access names a location exactly when it is 32 bits wide and at the location's offset (R28). -/
theorem regAccess_eq_some {offset width : Nat} {r : Reg} :
    regAccess offset width = some r ↔ width = 4 ∧ offset = r.offset := by
  constructor
  · intro h
    unfold regAccess at h
    split at h
    · next hw =>
      refine ⟨hw, ?_⟩
      unfold Reg.ofOffset at h
      split at h <;> cases h <;> rfl
    · cases h
  · rintro ⟨rfl, rfl⟩
    exact regAccess_offset r

/-- Every location lies inside the window at a multiple of 4 (R21). -/
theorem Reg.offset_aligned (r : Reg) : r.offset % 4 = 0 ∧ r.offset < 0x40 := by
  cases r with
  | cmd => decide
  | status => decide
  | reserved second => cases second <;> decide
  | arg k => simp only [Reg.offset]; omega
  | res k => simp only [Reg.offset]; omega

theorem regAccess_misshapen {offset width : Nat} (h : width ≠ 4 ∨ offset % 4 ≠ 0 ∨ 0x40 ≤ offset) :
    regAccess offset width = none := by
  rw [Option.eq_none_iff_forall_ne_some]
  intro r hr
  obtain ⟨rfl, rfl⟩ := regAccess_eq_some.mp hr
  have := r.offset_aligned
  omega

theorem readReg_withHost (s : State) (r : Reg) (rest : List HostEvent) :
    readReg { s with host := rest } r = readReg s r := by
  cases r <;> rfl

/-! ## STATUS -/

theorem getLsbD_packStatus (busy done : Bool) (ecode : Byte) (i : Nat) :
    (packStatus busy done ecode).getLsbD i =
      if i = 0 then busy else if i = 1 then done else if i < 8 then false else ecode.getLsbD (i - 8) := by
  simp only [packStatus, BitVec.getLsbD_append, BitVec.getLsbD_ofBool, BitVec.getLsbD_zero]
  rcases i with _ | _ | i
  · simp
  · simp
  · by_cases h : i < 6
    · simp [h]
    · have hbits : ecode.getLsbD (i - 6) = true → i - 6 < 8 := BitVec.lt_of_getLsbD
      have h8 : ¬ i + 1 + 1 < 8 := by omega
      simpa [h, h8] using hbits

/-- Bits 7:2 and 31:16 of STATUS are 0, and bits 15:8 are ECODE (R23). -/
theorem extractLsb'_packStatus (busy done : Bool) (ecode : Byte) :
    (packStatus busy done ecode).extractLsb' 2 6 = 0 ∧ (packStatus busy done ecode).extractLsb' 8 8 = ecode ∧
      (packStatus busy done ecode).extractLsb' 16 16 = 0 := by
  refine ⟨BitVec.eq_of_getLsbD_eq fun i hi => ?_, BitVec.eq_of_getLsbD_eq fun i hi => ?_,
    BitVec.eq_of_getLsbD_eq fun i hi => ?_⟩
  · simp [getLsbD_packStatus, show 2 + i ≠ 1 by omega, show 2 + i < 8 by omega]
  · simp [getLsbD_packStatus, show 8 + i ≠ 1 by omega, hi]
  · simp [getLsbD_packStatus, show 16 + i ≠ 1 by omega, show ¬16 + i < 8 by omega, show 8 ≤ 16 + i - 8 by omega]

/-- While a command runs, DONE is 0 and ECODE is 0x00 (R22, R30). -/
theorem State.Inv.statusWord_of_busy {s : State} (h : s.Inv) (hb : s.busy = true) : s.statusWord = 0x00000001 := by
  have hd : s.done = false := by simpa [hb] using h.notBoth
  simp only [State.statusWord, hb, hd, h.quiet hd]
  decide

/-! ## Reset -/

/-- Reset leaves the values of R40 in every register. -/
theorem State.resetEvent_registers (s : State) :
    s.resetEvent.cmd = 0 ∧ s.resetEvent.statusWord = 0 ∧ (∀ k : Fin 8, s.resetEvent.args[k] = 0) ∧
      ∀ k : Fin 4, s.resetEvent.res[k] = 0 := by
  refine ⟨rfl, ?_, ?_, ?_⟩
  · simp only [State.statusWord, State.resetEvent_busy, State.resetEvent_done, State.resetEvent_ecode]
    decide
  · simp
  · simp

/-! ## Whose turn a step is -/

/-- A step is the completion step when a command runs and no event comes before its completion. -/
theorem step_of_engineTurn {s : State} (hb : s.busy = true)
    (hturn : ∀ e ∈ s.host.head?, e.beforeCompletion = false) : step s = completionStep s := by
  have hm : hostMoves s = none := by
    rw [hostMoves_eq_none]
    cases hh : s.host with
    | nil => exact .inl rfl
    | cons e rest => exact .inr ⟨hb, e, rest, rfl, hturn e (by simp [hh])⟩
  simp [step, hm, hb]

/-- A held access waits for the completion step wherever its event is placed (R30). -/
theorem step_of_heldAccess {s : State} {a : HostAccess} {early : Bool} {rest : List HostEvent} (hb : s.busy = true)
    (hs : s.host = ⟨a, early⟩ :: rest) (hheld : a.notHeld = false) : step s = completionStep s :=
  step_of_engineTurn hb (by simp [hs, HostEvent.beforeCompletion, hheld])

/-- A register read placed before the completion answers at once (R30). -/
theorem step_of_earlyRead {s : State} {r : Reg} {rest : List HostEvent}
    (hs : s.host = ⟨.regRead r.offset 4, true⟩ :: rest) :
    step s = .next { s with host := rest, replies := s.replies ++ [.word (readReg s r)] } := by
  rw [step_of_hostTurn hs (.inr (beforeCompletion_of_reset_or_regRead (.inr ⟨r, rfl⟩))), hostPerform_regRead,
    readReg_withHost]
  rfl

/-- A reset placed before the completion is the next step (R242). -/
theorem step_of_earlyReset {s : State} {rest : List HostEvent} (hs : s.host = ⟨.reset, true⟩ :: rest) :
    step s = .next ({ s with host := rest } : State).resetEvent :=
  step_of_hostTurn hs (.inr rfl)

/-- Only a reset or a read of a location comes before the completion (R30, R42). -/
theorem beforeCompletion_cases {e : HostEvent} (h : e.beforeCompletion = true) :
    e = ⟨.reset, true⟩ ∨ ∃ r : Reg, e = ⟨.regRead r.offset 4, true⟩ := by
  obtain ⟨a, early⟩ := e
  obtain ⟨rfl, ha⟩ : early = true ∧ a.notHeld = true := by simpa [HostEvent.beforeCompletion] using h
  cases a with
  | regRead offset width =>
    obtain ⟨r, hr⟩ := Option.isSome_iff_exists.mp ha
    obtain ⟨rfl, rfl⟩ := regAccess_eq_some.mp hr
    exact .inr ⟨r, rfl⟩
  | regWrite offset width v => cases ha
  | bufRead addr => cases ha
  | bufWrite addr b => cases ha
  | reset => exact .inl rfl

/-! ## What every completion has in common -/

/-- `t` is `s` with its command completed: idle and done with an outcome code, and CMD, the ARG registers, the tables, the
parameters and the host's side as they were (R24, R223). -/
structure State.CompletesTo (s t : State) : Prop where
  idle : t.busy = false
  done : t.done = true
  code : t.ecode ∈ legalCodes
  cmd : t.cmd = s.cmd
  args : t.args = s.args
  rom : t.rom = s.rom
  digestUnit : t.digestUnit = s.digestUnit
  size : t.buf.size = s.buf.size
  host : t.host = s.host
  replies : t.replies = s.replies

theorem exec_next (i : Instr) (s : State) : ∃ t, exec i s = .next t := by
  rw [exec_eq_completeDrawing, completeDrawing]
  cases (evalInstr i s).1 with
  | ok fx => exact ⟨_, rfl⟩
  | error e => exact ⟨_, rfl⟩

theorem exec_completesTo {i : Instr} {s t : State} (h : exec i s = .next t) : s.CompletesTo t := by
  obtain ⟨fx, -, rfl⟩ | ⟨e, -, rfl⟩ := exec_cases h
  · exact ⟨rfl, rfl, okCode_legal, rfl, rfl, rfl, rfl, Memory.storeAll_size .., rfl, rfl⟩
  · exact ⟨rfl, rfl, e.code_legal, rfl, rfl, rfl, rfl, rfl, rfl, rfl⟩

theorem completionStep_completesTo {s t : State} (h : completionStep s = .next t) : s.CompletesTo t := by
  obtain ⟨i, -, hi⟩ | ⟨_, -, rfl⟩ := completionStep_cases h
  · exact exec_completesTo hi
  · exact ⟨rfl, rfl, OpError.illegalCommand.code_legal, rfl, rfl, rfl, rfl, rfl, rfl, rfl⟩

/-- In the engine's turn the step is the completion step, which leaves the engine idle and done (R24). -/
theorem engineTurn_completes {s : State} (hb : s.busy = true)
    (hturn : ∀ e ∈ s.host.head?, e.beforeCompletion = false) :
    ∃ t, step s = .next t ∧ t.busy = false ∧ completionStep s = .next t ∧ t.done = true := by
  obtain ⟨t, ht⟩ := completionStep_next s
  have hc := completionStep_completesTo ht
  exact ⟨t, (step_of_engineTurn hb hturn).trans ht, hc.idle, ht, hc.done⟩

/-- A running command completes after the register reads that come before its completion, unless a reset is among the
events that do (R255, R242). -/
theorem busy_completes {s : State} (hb : s.busy = true) :
    ∃ (n : Nat) (u t : State), n ≤ s.host.length ∧ Host.Core.run core n s = .next u ∧
      u = { s with host := s.host.drop n, replies := u.replies } ∧ step u = .next t ∧ t.busy = false ∧
      ((completionStep u = .next t ∧ t.done = true) ∨ ∃ rest, u.host = ⟨.reset, true⟩ :: rest) := by
  induction hh : s.host generalizing s with
  | nil =>
    obtain ⟨t, hstep, hidle, hdone⟩ := engineTurn_completes hb (by simp [hh])
    exact ⟨0, s, t, le_rfl, rfl, by simp [← hh], hstep, hidle, .inl hdone⟩
  | cons e rest ih =>
    cases he : e.beforeCompletion with
    | false =>
      obtain ⟨t, hstep, hidle, hdone⟩ := engineTurn_completes hb (by simp [hh, he])
      exact ⟨0, s, t, Nat.zero_le _, rfl, by simp [← hh], hstep, hidle, .inl hdone⟩
    | true =>
      obtain rfl | ⟨r, rfl⟩ := beforeCompletion_cases he
      · exact ⟨0, s, _, Nat.zero_le _, rfl, by simp [← hh], step_of_earlyReset hh, rfl, .inr ⟨rest, hh⟩⟩
      · have hread := step_of_earlyRead hh
        obtain ⟨n, u, t, hn, hrun, hu, hend⟩ :=
          ih (s := { s with host := rest, replies := s.replies ++ [.word (readReg s r)] }) hb rfl
        exact ⟨n + 1, u, t, Nat.succ_le_succ hn, (run_succ_of_step n hread).trans hrun, hu, hend⟩

end Sys2Proof.Machine

namespace Sys2Proof

open Machine

/-- Settles O1: the reset state's fields, one by one. -/
theorem resetLeavesRegistersZeroAndIdle : Obligations.ResetLeavesRegistersZeroAndIdle :=
  ⟨rfl, by decide, rfl, rfl, rfl, by decide, by decide⟩

/-- Settles O5: a reset, and an early reset event as the next step, put the values of R40 into the registers. -/
theorem resetAbandonsRunningCommand : Obligations.ResetAbandonsRunningCommand := by
  constructor
  · intro s
    exact ⟨s.resetEvent, rfl, rfl, s.resetEvent_registers⟩
  · intro s rest hb hs
    obtain ⟨hcmd, hstatus, hargs, hres⟩ := ({ s with host := rest } : State).resetEvent_registers
    exact ⟨_, step_of_earlyReset hs, rfl, by simp [hb], rfl, hcmd, hstatus, hargs, hres, rfl, rfl⟩

/-- Settles O6: the host's turn while idle, the engine's while busy, and the read of the location CMD. -/
theorem hostWriteOfCmdIsAccepted : Obligations.HostWriteOfCmdIsAccepted :=
  ⟨fun _ w _ _ hidle hs => (step_of_hostTurn hs (.inl hidle)).trans (hostPerform_regWrite _ .cmd w),
    fun _ _ _ _ hb hs => step_of_heldAccess hb hs rfl,
    fun s => hostPerform_regRead s .cmd⟩

/-- Settles O7: a read placed early is the host's turn, and a held access leaves the turn to the engine. -/
theorem busyHoldsWritesAndBufAccesses : Obligations.BusyHoldsWritesAndBufAccesses := by
  refine ⟨fun s r rest _ hs => step_of_earlyRead hs, fun s hinv hb => hinv.statusWord_of_busy hb, ?_⟩
  intro s a early rest hb hs ha
  have hheld : a.notHeld = false := by
    obtain ⟨_, _, _, rfl⟩ | ⟨_, rfl⟩ | ⟨_, _, rfl⟩ := ha <;> rfl
  have hstep := step_of_heldAccess hb hs hheld
  obtain ⟨t, ht⟩ := completionStep_next s
  have hc := completionStep_completesTo ht
  exact ⟨hstep, t, hstep.trans ht, hc.idle, hc.host⟩

/-- Settles O9, field by field of the packed word. -/
theorem statusWordFields : Obligations.StatusWordFields :=
  fun s => ⟨getLsbD_packStatus .., getLsbD_packStatus .., extractLsb'_packStatus s.busy s.done s.ecode⟩

/-- Settles O10: such an access names no location. -/
theorem misshapenRegisterAccessStops : Obligations.MisshapenRegisterAccessStops := by
  intro s offset width v h
  simp [hostPerform, regAccess_misshapen h, noRegister]

/-- Settles O13, by induction on the pending events. -/
theorem acceptedCommandCompletes : Obligations.AcceptedCommandCompletes :=
  fun _ => busy_completes

/-- Settles O17: in the engine's turn the completion step runs what `fetch` decodes. -/
theorem stepRunsDecodedCommand : Obligations.StepRunsDecodedCommand := by
  intro s i hb hturn hdec
  rw [step_of_engineTurn hb hturn, completionStep, fetch, hdec]

/-- Settles O19: a completion always answers a next state, and it keeps what `CompletesTo` lists. -/
theorem everyCommandCompletes : Obligations.EveryCommandCompletes := by
  intro i s
  obtain ⟨t, ht⟩ := exec_next i s
  have hc := exec_completesTo ht
  exact ⟨t, ht, hc.idle, hc.done, hc.code, hc.cmd, hc.args, hc.rom, hc.digestUnit, hc.size, hc.host, hc.replies⟩

end Sys2Proof

/-! PROOFS. The family 10_state.md, continued: what each command answers when it ends OK, the registers it does not name, and
the frame of each command. -/

namespace Sys2Proof.Machine

/-! ## What a command answers when it ends OK -/

theorem evalHdrenc_eq_ok {s : State} {fx : Effects} (h : evalHdrenc s = .ok fx) :
    ∃ bs, bs.length = 20 ∧ fx = ⟨[(wordOperand s 5, bs)], [(0, 20)]⟩ := by
  simp only [evalHdrenc, bind_eq_ok] at h
  obtain ⟨hash, -, t, -, sl, -, _, -, _, -, h⟩ := h
  cases h
  exact ⟨_, length_encodeHeader .., rfl⟩

theorem evalHdrdec_eq_ok {s : State} {fx : Effects} (h : evalHdrdec s = .ok fx) :
    ∃ bs r0 r1 r2, bs.length ≤ 16 ∧ fx = ⟨[(wordOperand s 2, bs)], [(0, r0), (1, r1), (2, r2)]⟩ := by
  simp only [evalHdrdec, bind_eq_ok] at h
  obtain ⟨_, -, _, -, _, -, hdr, hdec, h⟩ := h
  cases h
  exact ⟨_, _, _, _, length_ident_le_of_decodeHeader hdec, rfl⟩

theorem evalGenerate_eq_ok {s : State} {fx : Effects} (h : (evalGenerate s).1 = .ok fx) :
    ∃ outs, outs.length = wordOperand s 1 ∧ (∀ o ∈ outs, o.length = wordOperand s 3 + 1) ∧
      fx = generateEffects s outs := by
  unfold evalGenerate at h
  split at h
  · cases h
  · obtain ⟨outs, hg, rfl⟩ := map_eq_ok h
    obtain ⟨hn, hlen⟩ := lengths_of_generate hg
    exact ⟨outs, hn, by simpa using hlen, rfl⟩

/-- SHARE's checks answer the algorithm its hash operand names (R151). -/
theorem ofId_of_checkShare {noid : Bool} {s : State} {h : HashAlg} (hc : checkShare noid s = .ok h) :
    HashAlg.ofId (wordOperand s 7) = some h := by
  simp only [checkShare, bind_eq_ok] at hc
  obtain ⟨_, -, hc⟩ := hc
  split at hc
  · cases hc
  · next hid =>
    simp only [bind_eq_ok] at hc
    obtain ⟨_, -, _, -, _, -, _, -, hc⟩ := hc
    cases hc
    exact hid

theorem evalShare_eq_ok {noid : Bool} {s : State} {fx : Effects} (h : (evalShare noid s).1 = .ok fx) :
    ∃ alg outs, HashAlg.ofId (wordOperand s 7) = some alg ∧ outs.length = wordOperand s 1 ∧
      (∀ o ∈ outs, o.length = wordOperand s 3 + alg.dlen + 1) ∧ fx = shareEffects s alg outs := by
  unfold evalShare at h
  split at h
  · cases h
  · next alg hc =>
    obtain ⟨outs, hg, rfl⟩ := map_eq_ok h
    obtain ⟨hn, hlen⟩ := lengths_of_generate hg
    exact ⟨alg, outs, ofId_of_checkShare hc, hn, by simpa using hlen, rfl⟩

/-- SHARE with an unknown hash id ends with its first checks, before any draw (R151). -/
theorem evalShare_unknownHash {noid : Bool} {s : State} (h : HashAlg.ofId (wordOperand s 7) = none) :
    evalShare noid s = (.error .invalidParameters, s.rng) := by
  have hc : checkShare noid s = .error .invalidParameters := by
    simp [checkShare, h]
  simp [evalShare, hc]

/-! ### The length of RECONSTRUCT's result -/

/-- The share length of a header is a 16-bit number (R135). -/
theorem shareLen_lt_of_decodeHeader {b : List Byte} {hdr : Header} (h : decodeHeader b = .ok hdr) :
    hdr.shareLen < 2 ^ 16 := by
  unfold decodeHeader at h
  split at h
  · next hash t hi lo _ _ =>
    cases h
    have := hi.isLt
    have := lo.isLt
    simp only
    omega
  · cases h

theorem shareLen_lt_of_validateShares {m : Memory} {tptr count : Nat} {hdr : Header} {pays : List (List Byte)}
    (h : validateShares m tptr count = .ok (hdr, pays)) : hdr.shareLen < 2 ^ 16 := by
  unfold validateShares at h
  split at h
  · cases h
  · simp only [firstShare, bind_eq_ok] at h
    obtain ⟨_, ⟨_, -, hdr', hdec, _, -, p, -, hp⟩, ps, -, h⟩ := h
    cases hp
    cases h
    exact shareLen_lt_of_decodeHeader hdec

theorem length_of_candidateFrom {t : Rom} {pays : List (List Byte)} {ps : List Nat} {cand : List Byte}
    (h : candidateFrom t pays ps = .ok cand) : cand.length = ps.length := by
  induction ps generalizing cand with
  | nil => cases h; rfl
  | cons p ps ih =>
    simp only [candidateFrom, bind_eq_ok] at h
    obtain ⟨b, -, bs, hbs, h⟩ := h
    cases h
    simp [ih hbs]

/-- An accepted candidate is the result, without its digest where it has one (R191). -/
theorem length_le_of_verify {u : DigestUnit} {alg : HashAlg} {cand r : List Byte}
    (h : verify u alg cand = .accept r) : r.length ≤ cand.length := by
  unfold verify at h
  split at h
  · cases h; exact le_rfl
  · dsimp only at h
    split at h
    · cases h; exact List.length_take_le' ..
    · cases h

theorem length_le_of_examine {t : Rom} {u : DigestUnit} {alg : HashAlg} {sl : Nat} {pays : List (List Byte)}
    {r : List Byte} (h : examine t u alg sl pays = .ok (.accept r)) : r.length ≤ sl - 1 := by
  unfold examine at h
  split at h
  · simp only [bind_eq_ok] at h
    obtain ⟨cand, hcand, h⟩ := h
    calc r.length ≤ cand.length := length_le_of_verify (Except.ok.inj h)
      _ = sl - 1 := by simpa using length_of_candidateFrom hcand
  · cases h

/-- Only an accepting examination ends the search with a result (R193, R194). -/
theorem settles_eq_ok {lenient : Bool} {v : Verdict} {r : List Byte} (h : settles lenient v = some (.ok r)) :
    v = .accept r := by
  cases v with
  | accept r' => cases h; rfl
  | duplicate => cases lenient <;> cases h
  | mismatch => cases lenient <;> cases h

/-- A search that ends OK has accepted some subset's result. -/
theorem searchFrom_eq_ok {ex : List Nat → Except OpError Verdict} {lenient : Bool} {count t fuel : Nat} {c : List Nat}
    {r : List Byte} (h : searchFrom ex lenient count t fuel c = .ok r) : ∃ c', ex c' = .ok (.accept r) := by
  induction fuel generalizing c with
  | zero => cases h
  | succ fuel ih =>
    simp only [searchFrom, bind_eq_ok] at h
    obtain ⟨v, hv, h⟩ := h
    split at h
    · next r' hr' =>
      subst h
      exact ⟨c, settles_eq_ok hr' ▸ hv⟩
    · split at h
      · cases h
      · exact ih h

theorem evalReconstruct_eq_ok {lenient : Bool} {s : State} {fx : Effects} (h : evalReconstruct lenient s = .ok fx) :
    ∃ r : List Byte, r.length < 2 ^ 16 ∧ fx = ⟨[(wordOperand s 2, r)], [(0, BitVec.ofNat 32 r.length)]⟩ := by
  simp only [evalReconstruct, bind_eq_ok] at h
  obtain ⟨_, -, _, -, ⟨hdr, pays⟩, hval, _, -, h⟩ := h
  split at h
  · cases h
  · simp only [bind_eq_ok] at h
    obtain ⟨r, hr, _, -, h⟩ := h
    cases h
    obtain ⟨c, hc⟩ := searchFrom_eq_ok hr
    have hle := length_le_of_examine hc
    have hlt := shareLen_lt_of_validateShares hval
    exact ⟨r, by omega, rfl⟩

/-! ## Result registers that are not named -/

/-- A write to some result registers leaves the others. -/
theorem getElem_writeResults_of_notMem {res : Vector Word 4} {results : List (Fin 4 × Word)} {k : Fin 4}
    (h : k ∉ results.map Prod.fst) : (writeResults res results)[k] = res[k] := by
  induction results generalizing res with
  | nil => rfl
  | cons p ps ih =>
    obtain ⟨hk, hks⟩ : k ≠ p.1 ∧ k ∉ ps.map Prod.fst := by simpa using h
    have hne : (p.1 : Nat) ≠ k := fun he => hk (Fin.ext he.symm)
    exact (ih hks).trans (Vector.getElem_set_ne _ _ hne)

theorem getElem_zero_writeResults (res : Vector Word 4) (v : Word) : (writeResults res [(0, v)])[0] = v :=
  Vector.getElem_set_self _

theorem AnswersByte.results {x : Except OpError Effects} (hx : AnswersByte x) {fx : Effects} (h : x = .ok fx) :
    fx.results.map Prod.fst = [0] := by
  obtain ⟨b, rfl⟩ := hx fx h
  rfl

/-- A command that ends OK writes the result registers of its row of the operand table (R77). -/
theorem evalInstr_results {i : Instr} {s : State} {fx : Effects} (h : (evalInstr i s).1 = .ok fx) :
    fx.results.map Prod.fst = i.results := by
  cases i with
  | gfadd => exact (evalGfadd_answersByte s).results h
  | gfsub => exact (evalGfsub_answersByte s).results h
  | gfmul => exact (evalGfmul_answersByte s).results h
  | gfdiv => exact (evalGfdiv_answersByte s).results h
  | peval => exact (evalPeval_answersByte s).results h
  | generate => obtain ⟨_, -, -, rfl⟩ := evalGenerate_eq_ok h; rfl
  | hdrenc => obtain ⟨_, -, rfl⟩ := evalHdrenc_eq_ok h; rfl
  | hdrdec => obtain ⟨_, _, _, _, -, rfl⟩ := evalHdrdec_eq_ok h; rfl
  | share noid => obtain ⟨_, _, -, -, -, rfl⟩ := evalShare_eq_ok h; rfl
  | linterp => exact (evalLinterp_answersByte s).results h
  | reconstruct lenient => obtain ⟨_, -, rfl⟩ := evalReconstruct_eq_ok h; rfl

theorem exec_keeps_unnamed_result {i : Instr} {s t : State} (h : exec i s = .next t) {k : Fin 4} (hk : k ∉ i.results) :
    t.res[k] = s.res[k] := by
  obtain ⟨fx, hfx, rfl⟩ | ⟨e, -, rfl⟩ := exec_cases h
  · exact getElem_writeResults_of_notMem (evalInstr_results hfx ▸ hk)
  · rfl

/-! ## Argument registers that are not named -/

/-- Completion passes the argument registers through. -/
theorem completeDrawing_withArgs (s : State) (args : Vector Word 8) (p : Except OpError Effects × Rng) :
    completeDrawing { s with args := args } p = withArgs args (completeDrawing s p) := by
  obtain ⟨x, r⟩ := p
  cases x <;> rfl

/-- An operand depends on its own argument register only (R78). -/
theorem operands_withArgs {s : State} {args : Vector Word 8} {k : Fin 8} (h : args[k] = s.args[k]) :
    wordOperand { s with args := args } k = wordOperand s k ∧ byteOperand { s with args := args } k = byteOperand s k ∧
      halfOperand { s with args := args } k = halfOperand s k := by
  have harg : ({ s with args := args } : State).arg k = s.arg k := h
  unfold byteOperand halfOperand wordOperand
  rw [harg]
  exact ⟨rfl, rfl, rfl⟩

/-- A command's evaluation reads no other argument register than those it names (R25, R77). -/
theorem evalInstr_withArgs {i : Instr} {s : State} {args : Vector Word 8} (h : ∀ k ∈ i.named, args[k] = s.args[k]) :
    evalInstr i { s with args := args } = evalInstr i s := by
  have word k (hk : k ∈ i.named) := (operands_withArgs (h k hk)).1
  have byte k (hk : k ∈ i.named) := (operands_withArgs (h k hk)).2.1
  have half k (hk : k ∈ i.named) := (operands_withArgs (h k hk)).2.2
  cases i with
  | gfadd => simp only [evalInstr, evalGfadd, byte 0 (by decide), byte 1 (by decide)]
  | gfsub => simp only [evalInstr, evalGfsub, byte 0 (by decide), byte 1 (by decide)]
  | gfmul => simp only [evalInstr, evalGfmul, byte 0 (by decide), byte 1 (by decide)]
  | gfdiv => simp only [evalInstr, evalGfdiv, byte 0 (by decide), byte 1 (by decide)]
  | peval =>
    simp only [evalInstr, evalPeval]
    rw [byte 0 (by decide), word 1 (by decide), word 2 (by decide)]
  | generate =>
    have heffects : generateEffects { s with args := args } = generateEffects s := by
      funext outs
      unfold generateEffects
      rw [word 1 (by decide), word 3 (by decide), word 4 (by decide)]
    simp only [evalInstr, evalGenerate, checkGenerate, heffects]
    rw [word 0 (by decide), word 1 (by decide), word 2 (by decide), word 3 (by decide), word 4 (by decide)]
  | hdrenc =>
    simp only [evalInstr, evalHdrenc]
    rw [word 0 (by decide), word 1 (by decide), byte 2 (by decide), byte 3 (by decide), half 4 (by decide),
      word 5 (by decide)]
  | hdrdec =>
    simp only [evalInstr, evalHdrdec]
    rw [word 0 (by decide), word 1 (by decide), word 2 (by decide)]
  | share noid =>
    have hall : args = s.args := Vector.ext fun k hk => h ⟨k, hk⟩ (List.mem_finRange _)
    rw [hall]
  | linterp =>
    simp only [evalInstr, evalLinterp]
    rw [word 0 (by decide), word 1 (by decide), word 2 (by decide)]
  | reconstruct lenient =>
    simp only [evalInstr, evalReconstruct]
    rw [word 0 (by simp [Instr.named]), word 1 (by simp [Instr.named]), word 2 (by simp [Instr.named])]
/-! ## BUF outside the stores -/

/-- An address outside everything a command stores reads as before, whatever the outcome. -/
theorem exec_read_outside {i : Instr} {s t : State} {a : Nat} (h : exec i s = .next t)
    (hout : ∀ fx, (evalInstr i s).1 = .ok fx → ∀ p ∈ fx.stores, a < p.1 ∨ p.1 + p.2.length ≤ a) :
    t.buf.read a = s.buf.read a := by
  obtain ⟨fx, hfx, rfl⟩ | ⟨e, -, rfl⟩ := exec_cases h
  · exact Memory.read_storeAll_outside (hout fx hfx)
  · rfl

/-- Outputs of `stride` bytes written one after another lie in the region from `dst` to the end of the last. -/
theorem bounds_of_mem_consecutive {dst stride : Nat} {outs : List (List Byte)} (hlen : ∀ o ∈ outs, o.length = stride)
    {p : Nat × List Byte} (hp : p ∈ consecutive dst stride outs) :
    dst ≤ p.1 ∧ p.1 + p.2.length ≤ dst + outs.length * stride := by
  constructor
  · obtain ⟨q, -, rfl⟩ := List.mem_map.mp hp
    exact Nat.le_add_right ..
  · exact consecutive_fits (m := ⟨dst + outs.length * stride, 0, []⟩) [] le_rfl hlen p hp

/-- The shares of SHARE lie in the region of all of them (R157). -/
theorem bounds_of_mem_shareEffects {s : State} {alg : HashAlg} {outs : List (List Byte)}
    (hlen : ∀ o ∈ outs, o.length = wordOperand s 3 + alg.dlen + 1) {p : Nat × List Byte}
    (hp : p ∈ (shareEffects s alg outs).stores) :
    wordOperand s 4 ≤ p.1 ∧
      p.1 + p.2.length ≤ wordOperand s 4 + outs.length * (21 + (wordOperand s 3 + alg.dlen)) := by
  have hshare : ∀ o ∈ outs.map (shareHeader s alg ++ ·), o.length = 21 + (wordOperand s 3 + alg.dlen) := by
    intro o ho
    obtain ⟨q, hq, rfl⟩ := List.mem_map.mp ho
    rw [List.length_append, shareHeader, length_encodeHeader, hlen q hq]
    omega
  simpa using bounds_of_mem_consecutive hshare hp

theorem exec_rng {i : Instr} {s t : State} (h : exec i s = .next t) : t.rng = (evalInstr i s).2 := by
  obtain ⟨fx, -, rfl⟩ | ⟨e, -, rfl⟩ := exec_cases h <;> rfl

/-- The commands whose whole result is a byte in RES0 (R77, R78). -/
theorem evalInstr_scalar {i : Instr} (hi : i ∈ ([.gfadd, .gfsub, .gfmul, .gfdiv, .peval, .linterp] : List Instr))
    (s : State) : AnswersByte (evalInstr i s).1 ∧ (evalInstr i s).2 = s.rng ∧ i.results = [0] := by
  simp only [List.mem_cons, List.not_mem_nil, or_false] at hi
  obtain rfl | rfl | rfl | rfl | rfl | rfl := hi
  · exact ⟨evalGfadd_answersByte s, rfl, rfl⟩
  · exact ⟨evalGfsub_answersByte s, rfl, rfl⟩
  · exact ⟨evalGfmul_answersByte s, rfl, rfl⟩
  · exact ⟨evalGfdiv_answersByte s, rfl, rfl⟩
  · exact ⟨evalPeval_answersByte s, rfl, rfl⟩
  · exact ⟨evalLinterp_answersByte s, rfl, rfl⟩

end Sys2Proof.Machine

namespace Sys2Proof

open Machine

/-- Settles O22: what is written is the command's row of the operand table. -/
theorem unnamedResultsKept : Obligations.UnnamedResultsKept :=
  fun _ _ _ h _ hk => exec_keeps_unnamed_result h hk

/-- Settles O23: evaluation reads the named registers only, and completion passes the others through. -/
theorem unnamedArgumentsIgnored : Obligations.UnnamedArgumentsIgnored := by
  intro i s args h
  rw [exec_eq_completeDrawing, exec_eq_completeDrawing, evalInstr_withArgs h, completeDrawing_withArgs]

/-- Settles O24: a scalar command's only effect is a byte in RES0. -/
theorem scalarCommandsFrame : Obligations.ScalarCommandsFrame := by
  intro i hi s t h
  obtain ⟨hbyte, hrng, hres⟩ := evalInstr_scalar hi s
  have hbuf : t.buf = s.buf := by
    obtain ⟨fx, hfx, rfl⟩ | ⟨e, -, rfl⟩ := exec_cases h
    · obtain ⟨b, rfl⟩ := hbyte fx hfx
      rfl
    · rfl
  have hc := exec_completesTo h
  exact ⟨hc.cmd, hc.args, exec_keeps_unnamed_result h (k := 1) (by simp [hres]),
    exec_keeps_unnamed_result h (k := 2) (by simp [hres]), exec_keeps_unnamed_result h (k := 3) (by simp [hres]),
    hbuf, fun a => by rw [hbuf], hc.rom, hc.digestUnit, (exec_rng h).trans hrng, hc.host, hc.replies⟩

/-- Settles O25: each stores one field of known length at a known address. -/
theorem headerCommandsFrame : Obligations.HeaderCommandsFrame := by
  constructor
  · intro s t h
    have hc := exec_completesTo h
    refine ⟨hc.cmd, hc.args, exec_keeps_unnamed_result h (k := 1) (by decide),
      exec_keeps_unnamed_result h (k := 2) (by decide), exec_keeps_unnamed_result h (k := 3) (by decide), ?_,
      hc.rom, hc.digestUnit, exec_rng h, hc.host, hc.replies⟩
    intro a ha
    refine exec_read_outside h fun fx hfx => ?_
    obtain ⟨bs, hlen, rfl⟩ := evalHdrenc_eq_ok hfx
    simpa [hlen] using ha
  · intro s t h
    have hc := exec_completesTo h
    refine ⟨hc.cmd, hc.args, exec_keeps_unnamed_result h (k := 3) (by decide), ?_,
      hc.rom, hc.digestUnit, exec_rng h, hc.host, hc.replies⟩
    intro a ha
    refine exec_read_outside h fun fx hfx => ?_
    obtain ⟨bs, r0, r1, r2, hlen, rfl⟩ := evalHdrdec_eq_ok hfx
    simp only [List.forall_mem_singleton]
    omega

/-- Settles O26: the outputs lie one after another in one region, and an unknown hash id is an error before any draw. -/
theorem generatingCommandsFrame : Obligations.GeneratingCommandsFrame := by
  refine ⟨?_, ?_, ?_⟩
  · intro s t h
    have hc := exec_completesTo h
    refine ⟨hc.cmd, hc.args, exec_keeps_unnamed_result h (k := 2) (by decide),
      exec_keeps_unnamed_result h (k := 3) (by decide), fun a ha => exec_read_outside h fun fx hfx p hp => ?_,
      hc.rom, hc.digestUnit, hc.host, hc.replies⟩
    obtain ⟨outs, hn, hlen, rfl⟩ := evalGenerate_eq_ok hfx
    have hbounds := bounds_of_mem_consecutive hlen hp
    rw [hn] at hbounds
    omega
  · intro noid s t alg hid h
    have hc := exec_completesTo h
    refine ⟨hc.cmd, hc.args, exec_keeps_unnamed_result h (k := 2) (by simp [Instr.results]),
      exec_keeps_unnamed_result h (k := 3) (by simp [Instr.results]), fun a ha => exec_read_outside h fun fx hfx p hp => ?_,
      hc.rom, hc.digestUnit, hc.host, hc.replies⟩
    obtain ⟨alg', outs, hid', hn, hlen, rfl⟩ := evalShare_eq_ok hfx
    obtain rfl : alg = alg' := Option.some.inj (hid.symm.trans hid')
    have hbounds := bounds_of_mem_shareEffects hlen hp
    rw [hn] at hbounds
    omega
  · intro noid s t hid h
    have hc := exec_completesTo h
    have ht : exec (.share noid) s = .next (s.raiseError .invalidParameters) := by
      rw [exec_eq_completeDrawing, evalInstr, evalShare_unknownHash hid]
      rfl
    obtain rfl : s.raiseError .invalidParameters = t := Host.Outcome.next.inj (ht.symm.trans h)
    exact ⟨rfl, rfl, rfl, rfl, rfl, rfl, rfl, rfl, rfl⟩

/-- Settles O27: the one store is the result, whose length RES0 holds because it fits in 32 bits. -/
theorem reconstructFrame : Obligations.ReconstructFrame := by
  intro lenient s t h
  have hc := exec_completesTo h
  refine ⟨hc.cmd, hc.args, exec_keeps_unnamed_result h (k := 1) (by simp [Instr.results]),
    exec_keeps_unnamed_result h (k := 2) (by simp [Instr.results]),
    exec_keeps_unnamed_result h (k := 3) (by simp [Instr.results]), ?_, ?_,
    hc.rom, hc.digestUnit, exec_rng h, hc.host, hc.replies⟩
  · intro a ha
    obtain ⟨fx, hfx, rfl⟩ | ⟨e, -, rfl⟩ := exec_cases h
    · obtain ⟨r, hr, rfl⟩ := evalReconstruct_eq_ok hfx
      have hlen : (BitVec.ofNat 32 r.length).toNat = r.length := by simp; omega
      simp only [State.completeOk_res, getElem_zero_writeResults, hlen] at ha
      exact Memory.read_storeAll_outside (by simpa using ha)
    · rfl
  · intro hcode
    obtain ⟨fx, -, rfl⟩ | ⟨e, -, rfl⟩ := exec_cases h
    · exact absurd rfl hcode
    · exact ⟨rfl, rfl⟩

end Sys2Proof

/-! PROOFS. The family 10_state.md, continued: the engine's product. Bytes are read as polynomials over GF(2), and the field
product becomes the product of the quotient ring by FIELD_POLY. -/

namespace Sys2Proof.Machine

/-! ## Bit vectors as polynomials over GF(2) -/

/-- The polynomial over GF(2) whose coefficient of x^i is bit i (R32). -/
noncomputable def bitPoly {n : Nat} (v : BitVec n) : Polynomial (ZMod 2) :=
  ∑ i ∈ Finset.range n, if v.getLsbD i then Polynomial.X ^ i else 0

@[simp] theorem coeff_bitPoly {n : Nat} (v : BitVec n) (i : Nat) :
    (bitPoly v).coeff i = if v.getLsbD i then 1 else 0 := by
  have hterm (j : Nat) : (if v.getLsbD j then (Polynomial.X ^ j : Polynomial (ZMod 2)) else 0).coeff i =
      if i = j then (if v.getLsbD j then 1 else 0) else 0 := by
    by_cases hj : v.getLsbD j <;> simp [hj, Polynomial.coeff_X_pow]
  simp only [bitPoly, Polynomial.finsetSum_coeff, hterm, Finset.sum_ite_eq, Finset.mem_range]
  by_cases hi : i < n
  · simp [hi]
  · simp [hi, BitVec.getLsbD_of_ge v i (Nat.not_lt.mp hi)]

theorem bitPoly_injective {n : Nat} {v w : BitVec n} (h : bitPoly v = bitPoly w) : v = w := by
  apply BitVec.eq_of_getLsbD_eq
  intro i _
  have hi := congrArg (Polynomial.coeff · i) h
  simp only [coeff_bitPoly] at hi
  revert hi
  cases v.getLsbD i <;> cases w.getLsbD i <;> decide

@[simp] theorem bitPoly_zero (n : Nat) : bitPoly (0#n) = 0 := by
  ext i
  simp

@[simp] theorem bitPoly_one : bitPoly (1#8) = 1 := by
  simp [bitPoly]

@[simp] theorem bitPoly_xor {n : Nat} (v w : BitVec n) : bitPoly (v ^^^ w) = bitPoly v + bitPoly w := by
  ext i
  simp only [coeff_bitPoly, Polynomial.coeff_add, BitVec.getLsbD_xor]
  cases v.getLsbD i <;> cases w.getLsbD i <;> decide

/-- Bits that are all 0 may be cut off, and zero bits may be added. -/
theorem bitPoly_setWidth {n m : Nat} {v : BitVec n} (h : ∀ i, m ≤ i → v.getLsbD i = false) :
    bitPoly (v.setWidth m) = bitPoly v := by
  ext i
  by_cases hi : i < m
  · simp [hi]
  · simp [hi, h i (Nat.not_lt.mp hi)]

/-- A shift that loses no bit multiplies by a power of x. -/
theorem bitPoly_shiftLeft {n k : Nat} {v : BitVec n} (h : ∀ i, n ≤ i + k → v.getLsbD i = false) :
    bitPoly (v <<< k) = Polynomial.X ^ k * bitPoly v := by
  ext i
  rw [Polynomial.coeff_X_pow_mul', coeff_bitPoly, coeff_bitPoly, BitVec.getLsbD_shiftLeft]
  by_cases hk : k ≤ i
  · by_cases hi : i < n
    · simp [hk, hi, Nat.not_lt.mpr hk]
    · simp [hi, h (i - k) (by omega)]
  · simp [hk, Nat.not_le.mp hk]

/-- A polynomial of `n` bits has degree below `n`. -/
theorem degree_bitPoly_lt {n : Nat} (v : BitVec n) : (bitPoly v).degree < n := by
  rw [Polynomial.degree_lt_iff_coeff_zero]
  intro i hi
  simp [BitVec.getLsbD_of_ge v i hi]

/-- A vector widened and shifted inside the new width. -/
theorem bitPoly_setWidth_shiftLeft {n m k : Nat} (v : BitVec n) (h : n + k ≤ m) :
    bitPoly (v.setWidth m <<< k) = Polynomial.X ^ k * bitPoly v := by
  rw [bitPoly_shiftLeft, bitPoly_setWidth]
  · intro i hi
    exact BitVec.getLsbD_of_ge v i (by omega)
  · intro i hi
    simp [BitVec.getLsbD_of_ge v i (by omega)]

/-! ## The carry-less product -/

theorem bitPoly_clmul (a b : Byte) : bitPoly (clmul a b) = bitPoly a * bitPoly b := by
  have hfold (n : Nat) (hn : n ≤ 8) :
      bitPoly ((List.range n).foldl (fun acc i => if b.getLsbD i then acc ^^^ (a.setWidth 16 <<< i) else acc) 0) =
        bitPoly a * ∑ i ∈ Finset.range n, if b.getLsbD i then Polynomial.X ^ i else 0 := by
    induction n with
    | zero => simp
    | succ n ih =>
      rw [List.range_succ, List.foldl_append, Finset.sum_range_succ, mul_add, ← ih (by omega)]
      cases hb : b.getLsbD n with
      | false => simp [hb]
      | true => simp [hb, bitPoly_setWidth_shiftLeft a (show 8 + n ≤ 16 by omega), mul_comm]
  exact hfold 8 le_rfl

/-! ## Reduction modulo FIELD_POLY -/

/-- One step of the reduction: the term x^i is cancelled with a multiple of FIELD_POLY (R32). -/
def cancelTerm (p : BitVec 9) (v : BitVec 16) (i : Nat) : BitVec 16 :=
  if v.getLsbD i then v ^^^ (p.setWidth 16 <<< (i - 8)) else v

theorem polyReduce_eq_foldl (p : BitVec 9) (v : BitVec 16) :
    polyReduce p v = ((((List.range 8).map (8 + ·)).reverse.foldl (cancelTerm p) v).setWidth 8) := rfl

theorem mk_bitPoly_cancelTerm (p : BitVec 9) (v : BitVec 16) {i : Nat} (hi : i < 16) :
    AdjoinRoot.mk (bitPoly p) (bitPoly (cancelTerm p v i)) = AdjoinRoot.mk (bitPoly p) (bitPoly v) := by
  unfold cancelTerm
  split
  · simp [bitPoly_setWidth_shiftLeft p (show 9 + (i - 8) ≤ 16 by omega)]
  · rfl

/-- The step clears bit `i` and leaves the bits above clear, FIELD_POLY having degree 8. -/
theorem getLsbD_cancelTerm {p : BitVec 9} (hp : p.getLsbD 8 = true) {v : BitVec 16} {i : Nat} (h8 : 8 ≤ i) (hi : i < 16)
    (h : ∀ j, i + 1 ≤ j → v.getLsbD j = false) (j : Nat) (hj : i ≤ j) : (cancelTerm p v i).getLsbD j = false := by
  unfold cancelTerm
  obtain rfl | hlt := hj.eq_or_lt
  · split
    · next hv =>
      rw [BitVec.getLsbD_xor, BitVec.getLsbD_shiftLeft, BitVec.getLsbD_setWidth, show i - (i - 8) = 8 by omega, hv, hp]
      simp [hi]
    · next hv => simpa using hv
  · have hpj : p.getLsbD (j - (i - 8)) = false := BitVec.getLsbD_of_ge p _ (by omega)
    split
    · simp [h j hlt, hpj]
    · exact h j hlt

/-- The steps from x^(8 + n − 1) down to x^8 leave a polynomial of degree below 8 in the same residue class. -/
theorem foldl_cancelTerm {p : BitVec 9} (hp : p.getLsbD 8 = true) {n : Nat} (hn : n ≤ 8) {v : BitVec 16}
    (h : ∀ j, 8 + n ≤ j → v.getLsbD j = false) :
    (∀ j, 8 ≤ j → (((List.range n).map (8 + ·)).reverse.foldl (cancelTerm p) v).getLsbD j = false) ∧
      AdjoinRoot.mk (bitPoly p) (bitPoly (((List.range n).map (8 + ·)).reverse.foldl (cancelTerm p) v)) =
        AdjoinRoot.mk (bitPoly p) (bitPoly v) := by
  induction n generalizing v with
  | zero => exact ⟨h, rfl⟩
  | succ n ih =>
    rw [List.range_succ, List.map_append, List.reverse_append]
    have hclear := getLsbD_cancelTerm hp (Nat.le_add_right 8 n) (by omega) h
    obtain ⟨hlow, hmk⟩ := ih (by omega) hclear
    exact ⟨hlow, hmk.trans (mk_bitPoly_cancelTerm p v (by omega))⟩

/-! ## Bytes in the quotient ring -/

/-- The residue class of a byte modulo FIELD_POLY. -/
noncomputable def residue (p : BitVec 9) (a : Byte) : AdjoinRoot (bitPoly p) :=
  AdjoinRoot.mk (bitPoly p) (bitPoly a)

@[simp] theorem residue_zero (p : BitVec 9) : residue p 0#8 = 0 := by simp [residue]

@[simp] theorem residue_one (p : BitVec 9) : residue p 1#8 = 1 := by simp [residue]

@[simp] theorem residue_xor (p : BitVec 9) (a b : Byte) : residue p (a ^^^ b) = residue p a + residue p b := by
  simp [residue]

/-- A FIELD_POLY of degree 8 separates the bytes: two of them differ by a polynomial of lower degree. -/
theorem residue_injective {p : BitVec 9} (hp : p.getLsbD 8 = true) : Function.Injective (residue p) := by
  intro a b h
  rw [residue, residue, AdjoinRoot.mk_eq_mk] at h
  have hdeg : (8 : WithBot Nat) ≤ (bitPoly p).degree :=
    Polynomial.le_degree_of_ne_zero (by simp [hp])
  have hlt : (bitPoly a - bitPoly b).degree < (bitPoly p).degree :=
    
    (Polynomial.degree_sub_le _ _).trans_lt ((max_lt (degree_bitPoly_lt a) (degree_bitPoly_lt b)).trans_le hdeg)
  exact bitPoly_injective (sub_eq_zero.mp (Polynomial.eq_zero_of_dvd_of_degree_lt h hlt))

/-- The product of R32 is the product of the quotient ring. -/
theorem residue_fieldProd {p : BitVec 9} (hp : p.getLsbD 8 = true) (a b : Byte) :
    residue p (fieldProd p a b) = residue p a * residue p b := by
  obtain ⟨hlow, hmk⟩ := foldl_cancelTerm hp le_rfl (v := clmul a b) fun j hj => BitVec.getLsbD_of_ge _ j hj
  rw [residue, fieldProd, polyReduce_eq_foldl, bitPoly_setWidth hlow, hmk, bitPoly_clmul, map_mul]
  rfl

theorem residue_fieldPow {p : BitVec 9} (hp : p.getLsbD 8 = true) (g : Byte) (n : Nat) :
    residue p (fieldPow p g n) = residue p g ^ n := by
  induction n with
  | zero => exact residue_one p
  | succ n ih => rw [fieldPow, residue_fieldProd hp, ih, pow_succ]

/-! ## The powers of FIELD_GEN -/

theorem degree_of_fieldOk {p : BitVec 9} {g : Byte} (h : Config.fieldOk p g = true) : p.getLsbD 8 = true := by
  simp only [Config.fieldOk, irreducible8, Bool.and_eq_true] at h
  exact h.1.1

theorem Rom.expMod_mod (t : Rom) (n : Nat) : t.expMod (n % 255) = t.expMod n := by
  simp [Rom.expMod]

section

variable {t : Rom} {p : BitVec 9} {g : Byte}

/-- In the tables of a pair a nonzero byte is the power of FIELD_GEN its logarithm says. -/
theorem Rom.builtFrom.fieldPow_logAt (ht : t.builtFrom p g) {v : Byte} (hv : v ≠ 0) : fieldPow p g (t.logAt v) = v := by
  obtain ⟨hexp, hlog⟩ := ht
  obtain ⟨hlt, hv'⟩ := hlog v hv
  rw [← hexp _ hlt, hv']

theorem Rom.builtFrom.expMod_eq (ht : t.builtFrom p g) (n : Nat) : t.expMod n = fieldPow p g (n % 255) := by
  rw [← Rom.expMod_mod, ht.1 _ (Nat.mod_lt n (by decide))]

/-- Every exponent below 255 is the logarithm of a nonzero byte: there are 255 of either, and LOG is one-to-one. -/
theorem Rom.builtFrom.exists_logAt (ht : t.builtFrom p g) {k : Nat} (hk : k < 255) :
    ∃ v : Byte, v ≠ 0 ∧ t.logAt v = k := by
  have hne (i : Fin 255) : BitVec.ofNat 8 (i + 1) ≠ 0 := by
    have := i.isLt
    bv_omega
  have hinj : Function.Injective fun i : Fin 255 =>
      (⟨t.logAt (BitVec.ofNat 8 (i + 1)), (ht.2 _ (hne i)).1⟩ : Fin 255) := by
    intro i j hij
    have hlog := congrArg (fieldPow p g) (Fin.mk.inj hij)
    rw [ht.fieldPow_logAt (hne i), ht.fieldPow_logAt (hne j)] at hlog
    have := congrArg BitVec.toNat hlog
    simp only [BitVec.toNat_ofNat] at this
    omega
  obtain ⟨i, hi⟩ := Finite.surjective_of_injective hinj ⟨k, hk⟩
  exact ⟨_, hne i, Fin.mk.inj hi⟩

/-- A nonzero byte is a power of FIELD_GEN, in the quotient ring too. -/
theorem Rom.builtFrom.residue_eq_pow (hp : p.getLsbD 8 = true) (ht : t.builtFrom p g) {v : Byte} (hv : v ≠ 0) :
    residue p v = residue p g ^ t.logAt v := by
  rw [← residue_fieldPow hp, ht.fieldPow_logAt hv]

theorem Rom.builtFrom.pow_ne_zero (hp : p.getLsbD 8 = true) (ht : t.builtFrom p g) {k : Nat} (hk : k < 255) :
    residue p g ^ k ≠ 0 := by
  obtain ⟨v, hv, rfl⟩ := ht.exists_logAt hk
  rw [← ht.residue_eq_pow hp hv, ← residue_zero]
  exact (residue_injective hp).ne hv

theorem Rom.builtFrom.pow_injective (hp : p.getLsbD 8 = true) (ht : t.builtFrom p g) {j k : Nat} (hj : j < 255)
    (hk : k < 255) (h : residue p g ^ j = residue p g ^ k) : j = k := by
  obtain ⟨v, hv, rfl⟩ := ht.exists_logAt hj
  obtain ⟨w, hw, rfl⟩ := ht.exists_logAt hk
  rw [← ht.residue_eq_pow hp hv, ← ht.residue_eq_pow hp hw] at h
  rw [residue_injective hp h]

/-- FIELD_GEN is invertible: 1 + g is a power of g other than 1, and so g divides 1. -/
theorem Rom.builtFrom.isUnit_gen (hp : p.getLsbD 8 = true) (ht : t.builtFrom p g) : IsUnit (residue p g) := by
  have hne : 1#8 ^^^ g ≠ 0 := by
    intro h
    obtain rfl : 1#8 = g := BitVec.xor_eq_zero_iff.mp h
    have : (1 : Nat) = 0 := ht.pow_injective hp (by decide) (by decide) (by simp)
    omega
  have hsum := ht.residue_eq_pow hp hne
  rw [residue_xor, residue_one] at hsum
  cases hk : t.logAt (1#8 ^^^ g) with
  | zero =>
    rw [hk, pow_zero, add_eq_left] at hsum
    exact absurd hsum (by simpa using ht.pow_ne_zero hp (show 1 < 255 by decide))
  | succ m =>
    rw [hk, pow_succ] at hsum
    refine IsUnit.of_mul_eq_one (residue p g ^ m - 1) ?_
    linear_combination -hsum

/-- The order of FIELD_GEN divides 255. -/
theorem Rom.builtFrom.pow_255 (hp : p.getLsbD 8 = true) (ht : t.builtFrom p g) : residue p g ^ 255 = 1 := by
  have hunit := ht.isUnit_gen hp
  have hone : (1 : AdjoinRoot (bitPoly p)) ≠ 0 := by simpa using ht.pow_ne_zero hp (show 0 < 255 by decide)
  have hne : fieldPow p g 255 ≠ 0 := by
    intro h
    have hpow := residue_fieldPow hp g 255
    rw [h] at hpow
    have hzero : residue p g ^ 255 = 0 := hpow.symm.trans (residue_zero p)
    obtain ⟨c, hc⟩ := (hunit.pow 255).exists_right_inv
    rw [hzero, zero_mul] at hc
    exact hone hc.symm
  obtain ⟨hlt, -⟩ := ht.2 _ hne
  have hpow : residue p g ^ 255 = residue p g ^ t.logAt (fieldPow p g 255) := by
    rw [← residue_fieldPow hp, ht.residue_eq_pow hp hne]
  generalize t.logAt (fieldPow p g 255) = k at hlt hpow
  cases k with
  | zero => simpa using hpow
  | succ k =>
    have hcancel : residue p g ^ (255 - (k + 1)) = residue p g ^ 0 := by
      apply (hunit.pow (k + 1)).mul_left_cancel
      rw [← pow_add, ← pow_add, Nat.add_sub_cancel' hlt.le, hpow]
    have := ht.pow_injective hp (by omega) (by decide) hcancel
    omega

/-- The engine's product is the product of the quotient ring. -/
theorem Rom.builtFrom.residue_gfMul (hp : p.getLsbD 8 = true) (ht : t.builtFrom p g) (a b : Byte) :
    residue p (gfMul t a b) = residue p a * residue p b := by
  unfold gfMul
  split
  · next h => obtain rfl | rfl := h <;> simp
  · next h =>
    obtain ⟨ha, hb⟩ := not_or.mp h
    calc residue p (t.expMod (t.logAt a + t.logAt b))
        = residue p g ^ ((t.logAt a + t.logAt b) % 255) := by rw [ht.expMod_eq, residue_fieldPow hp]
      _ = residue p g ^ (t.logAt a + t.logAt b) := (pow_eq_pow_mod _ (ht.pow_255 hp)).symm
      _ = residue p a * residue p b := by rw [pow_add, ht.residue_eq_pow hp ha, ht.residue_eq_pow hp hb]

end

end Sys2Proof.Machine

namespace Sys2Proof

open Machine

/-- Settles O32: both products are the product of the quotient ring by FIELD_POLY, where FIELD_GEN has an order dividing
255. -/
theorem productIsFieldProduct : Obligations.ProductIsFieldProduct := by
  intro t p g hok ht a b
  have hp := degree_of_fieldOk hok
  apply residue_injective hp
  rw [ht.residue_gfMul hp, residue_fieldProd hp]

end Sys2Proof

/-! PROOFS. The family 20_memory.md: the host's byte-wide BUF port. -/

namespace Sys2Proof.Machine

/-! ## Accesses to BUF -/

section

variable {s : State} {addr : Nat}

theorem hostPerform_bufRead (h : addr < s.buf.size) :
    hostPerform (.bufRead addr) s = .next (s.reply (.byte (s.buf.read addr))) :=
  if_pos h

theorem hostPerform_bufWrite (b : Byte) (h : addr < s.buf.size) :
    hostPerform (.bufWrite addr b) s = .next { s with buf := s.buf.write addr b } :=
  if_pos h

theorem hostPerform_bufRead_outside (h : s.buf.size ≤ addr) :
    hostPerform (.bufRead addr) s = .fault (.hostBufAddress addr) :=
  if_neg h.not_gt

theorem hostPerform_bufWrite_outside (b : Byte) (h : s.buf.size ≤ addr) :
    hostPerform (.bufWrite addr b) s = .fault (.hostBufAddress addr) :=
  if_neg h.not_gt

end

end Sys2Proof.Machine

namespace Sys2Proof

open Machine

/-- Settles O11: the bound decides between the access and the fault, and a read after the write gives the new byte at its
address and the earlier byte elsewhere. -/
theorem hostBufPortMovesOneByte : Obligations.HostBufPortMovesOneByte := by
  refine ⟨fun s addr h => hostPerform_bufRead h, fun s addr b h => ?_, fun s addr b h => ?_⟩
  · exact ⟨_, hostPerform_bufWrite b h, Memory.read_write_same .., fun a ha => Memory.read_write_other ha, rfl,
      Memory.write_size ..⟩
  · exact ⟨hostPerform_bufRead_outside h, hostPerform_bufWrite_outside b h⟩

end Sys2Proof

/-! PROOFS. The family 30_encoding.md: command words. A word is the packing of its fields, so the decoder inverts the
encoder; a row of the opcode map leaves at most one bit of a word open, so it stands for one or two words. -/

namespace Sys2Proof

/-! ## The decoder inverts the encoder -/

section

variable {w : Word} {i j : Instr} {op : Byte}

theorem extractLsb'_one (w : Word) (k : Nat) : w.extractLsb' k 1 = BitVec.ofBool (w.getLsbD k) := by
  ext b hb
  obtain rfl : b = 0 := by omega
  simp

/-- A word whose reserved field is 0 is the packing of its other fields. -/
theorem packWord_fields (hz : zeroField w = 0) (hop : opField w = op.toNat) :
    packWord op (lenField w) (noidField w) = w := by
  have hz' : w.extractLsb' 10 22 = 0#22 := hz
  have hop' : w.extractLsb' 0 8 = op := BitVec.eq_of_toNat_eq hop
  calc packWord op (lenField w) (noidField w)
      = w.extractLsb' 10 22 ++ w.extractLsb' 9 1 ++ w.extractLsb' 8 1 ++ w.extractLsb' 0 8 := by
        rw [packWord, extractLsb'_one, extractLsb'_one, hop', hz', noidField, lenField]
    _ = w := by
        rw [BitVec.extractLsb'_append_extractLsb'_eq_extractLsb' (by rfl : 10 = 9 + 1),
          BitVec.extractLsb'_append_extractLsb'_eq_extractLsb' (by rfl : 9 = 8 + 1),
          BitVec.extractLsb'_append_extractLsb'_eq_extractLsb' (by rfl : 8 = 0 + 8), BitVec.extractLsb'_eq_self]

theorem decodePlain_eq_ok :
    decodePlain w i = .ok j ↔ lenField w = false ∧ noidField w = false ∧ i = j := by
  unfold decodePlain
  cases lenField w <;> cases noidField w <;> simp

theorem decodeShare_eq_ok : decodeShare w = .ok j ↔ lenField w = false ∧ .share (noidField w) = j := by
  unfold decodeShare
  cases lenField w <;> simp

theorem decodeReconstruct_eq_ok :
    decodeReconstruct w = .ok j ↔ noidField w = false ∧ .reconstruct (lenField w) = j := by
  unfold decodeReconstruct
  cases noidField w <;> simp

/-- The rows whose commands have no flag. -/
theorem encode_of_decodePlain (hz : zeroField w = 0) (hop : opField w = op.toNat)
    (he : encode i = packWord op false false) (h : decodePlain w i = .ok j) : encode j = w := by
  obtain ⟨hlen, hnoid, rfl⟩ := decodePlain_eq_ok.mp h
  rw [he, ← packWord_fields hz hop, hlen, hnoid]

/-- No word but the encoding of `i` decodes to `i`: each row of the decoder fixes every field of the word. -/
theorem encode_of_decode (h : decode w = .ok i) : encode i = w := by
  unfold decode at h
  split at h
  case isFalse => cases h
  case isTrue hz =>
    split at h
    case h_9 hop => -- SHARE
      obtain ⟨hlen, rfl⟩ := decodeShare_eq_ok.mp h
      rw [encode, ← hlen, packWord_fields (op := 0x09) hz hop]
    case h_11 hop => -- RECONSTRUCT
      obtain ⟨hnoid, rfl⟩ := decodeReconstruct_eq_ok.mp h
      rw [encode, ← hnoid, packWord_fields (op := 0x0B) hz hop]
    case h_12 => cases h -- an unassigned operation code
    all_goals exact encode_of_decodePlain hz ‹_› rfl h

end

theorem Laws.RoundTrip.all : ∀ i : Instr, Statement i
  | .gfadd => gfadd
  | .gfsub => gfsub
  | .gfmul => gfmul
  | .gfdiv => gfdiv
  | .peval => peval
  | .generate => generate
  | .hdrenc => hdrenc
  | .hdrdec => hdrdec
  | .share noid => share noid
  | .linterp => linterp
  | .reconstruct lenient => reconstruct lenient

theorem decode_encode (i : Instr) : decode (encode i) = .ok i := (Laws.RoundTrip.all i).1

theorem decode_eq_ok_iff {w : Word} {i : Instr} : decode w = .ok i ↔ encode i = w := by
  constructor
  · exact encode_of_decode
  · rintro rfl
    exact decode_encode i

/-! ## The legal words -/

/-- The thirteen instructions, in the order of the opcode map (R74). -/
def instructions : List Instr :=
  [.gfadd, .gfsub, .gfmul, .gfdiv, .peval, .generate, .hdrenc, .hdrdec, .share false, .share true, .linterp,
    .reconstruct false, .reconstruct true]

theorem mem_instructions (i : Instr) : i ∈ instructions := by
  cases i with
  | share noid => cases noid <;> decide
  | reconstruct lenient => cases lenient <;> decide
  | _ => decide

theorem exists_decode_iff {w : Word} : (∃ i, decode w = .ok i) ↔ w ∈ instructions.map encode := by
  simp only [decode_eq_ok_iff, List.mem_map, mem_instructions, true_and]

theorem map_encode_instructions :
    instructions.map encode =
      [0x00000001, 0x00000002, 0x00000003, 0x00000004, 0x00000005, 0x00000006, 0x00000007, 0x00000008, 0x00000009,
        0x00000209, 0x0000000A, 0x0000000B, 0x0000010B] := rfl

/-! ## The opcode map -/

section

variable {w : Word} {r r' : OpcodeRow}

/-- Under a mask that leaves at most one bit open a word is the pattern, or the pattern with that bit set. -/
theorem eq_or_eq_of_and_eq {m p : Word} (hm : ~~~m = 0 ∨ ∃ k < 32, ~~~m = BitVec.twoPow 32 k) (h : w &&& m = p) :
    w = p ∨ w = p ||| ~~~m := by
  have hw : w = p ||| (w &&& ~~~m) := by
    rw [← h, ← BitVec.and_or_distrib_left, BitVec.or_not_self, BitVec.and_allOnes]
  obtain h0 | ⟨k, -, hk⟩ := hm
  · left
    simpa [h0] using hw
  · rw [hk, BitVec.and_twoPow] at hw
    rw [hk]
    split at hw
    · exact .inr hw
    · exact .inl (by simpa using hw)

/-- The mask of every row leaves at most one bit open: bit 9 in SHARE's, bit 8 in RECONSTRUCT's (R72). -/
theorem mask_of_mem_opcodeMap :
    ∀ r ∈ opcodeMap, ~~~r.mask = 0 ∨ ∃ k < 32, ~~~r.mask = BitVec.twoPow 32 k := by decide

/-- The one or two words a row stands for are encodings of the row's instructions. -/
theorem encode_rowWords :
    ∀ r ∈ opcodeMap, ∀ w ∈ [r.pattern, r.pattern ||| ~~~r.mask],
      ∃ i ∈ instructions, encode i = w ∧ i.mnemonic = r.mnemonic := by
  simp only [opcodeMap, List.forall_mem_cons, List.not_mem_nil, false_imp_iff, implies_true, and_true]
  and_intros <;> decide

theorem exists_decode_of_selects (hr : r ∈ opcodeMap) (h : r.selects w = true) :
    ∃ i, decode w = .ok i ∧ i.mnemonic = r.mnemonic := by
  have hw := eq_or_eq_of_and_eq (mask_of_mem_opcodeMap r hr) (beq_iff_eq.mp h)
  obtain ⟨i, -, rfl, hm⟩ := encode_rowWords r hr w (by simpa using hw)
  exact ⟨i, decode_encode i, hm⟩

theorem row_eq_of_mnemonic_eq :
    ∀ r ∈ opcodeMap, ∀ r' ∈ opcodeMap, r.mnemonic = r'.mnemonic → r = r' := by decide

theorem selects_of_decode {i : Instr} (hr : r ∈ opcodeMap) (hi : decode w = .ok i) (hm : i.mnemonic = r.mnemonic) :
    r.selects w = true := by
  obtain ⟨-, r', hr', hm', hsel⟩ := Laws.RoundTrip.all i
  rwa [row_eq_of_mnemonic_eq r hr r' hr' (hm.symm.trans hm'.symm), ← encode_of_decode hi]

theorem selects_iff (hr : r ∈ opcodeMap) :
    r.selects w = true ↔ ∃ i, decode w = .ok i ∧ i.mnemonic = r.mnemonic :=
  ⟨exists_decode_of_selects hr, fun ⟨_, hi, hm⟩ => selects_of_decode hr hi hm⟩

/-- No word selects two rows: it decodes to one instruction, which has one mnemonic. -/
theorem row_unique (hr : r ∈ opcodeMap) (hr' : r' ∈ opcodeMap) (h : r.selects w = true) (h' : r'.selects w = true) :
    r = r' := by
  obtain ⟨i, hi, hm⟩ := exists_decode_of_selects hr h
  obtain ⟨i', hi', hm'⟩ := exists_decode_of_selects hr' h'
  obtain rfl : i = i' := Except.ok.inj (hi.symm.trans hi')
  exact row_eq_of_mnemonic_eq r hr r' hr' (hm.symm.trans hm')

end

/-- Settles O14: a decoded word is the packing of its fields, and an encoding decodes to its instruction. -/
theorem decodeAndEncodeAgree : Obligations.DecodeAndEncodeAgree :=
  fun _ _ => decode_eq_ok_iff

/-- Settles O15: a row stands for one or two words, which decode to the row's instructions; the legal words are the
encodings of the thirteen instructions. -/
theorem decoderFollowsOpcodeMap : Obligations.DecoderFollowsOpcodeMap := by
  refine ⟨fun w r hr => selects_iff hr, fun w r hr r' hr' => row_unique hr hr', fun w => ?_⟩
  rw [exists_decode_iff, map_encode_instructions]

/-- Settles O16: each word is the encoding of its command. -/
theorem sampleWordsDecode : Obligations.SampleWordsDecode :=
  ⟨decode_encode .gfadd, decode_encode .gfsub, decode_encode .gfmul, decode_encode .gfdiv, decode_encode .peval,
    decode_encode .generate, decode_encode .hdrenc, decode_encode .hdrdec, decode_encode (.share false),
    decode_encode (.share true), decode_encode .linterp, decode_encode (.reconstruct false),
    decode_encode (.reconstruct true)⟩

end Sys2Proof

/-! PROOFS. The family 40_field_arithmetic.md: the bytes under the engine's operations are a field, and the interpolator is
Lagrange interpolation over it. -/

namespace Sys2Proof.Machine

/-! ## The bytes are a field -/

theorem bitPoly_two : bitPoly (2#8) = Polynomial.X := by
  simp [bitPoly, Finset.sum_range_succ, BitVec.getLsbD_ofNat, Nat.testBit]

/-- Every residue class is that of a byte: a sum of powers of x. -/
theorem residue_surjective {p : BitVec 9} (hp : p.getLsbD 8 = true) : Function.Surjective (residue p) := by
  intro y
  obtain ⟨f, rfl⟩ := AdjoinRoot.mk_surjective y
  induction f using Polynomial.induction_on' with
  | add f g hf hg =>
    obtain ⟨a, ha⟩ := hf
    obtain ⟨b, hb⟩ := hg
    exact ⟨a ^^^ b, by rw [residue_xor, ha, hb, map_add]⟩
  | monomial n c =>
    obtain rfl | rfl : c = 0 ∨ c = 1 := by
      revert c
      decide
    · exact ⟨0#8, by simp⟩
    · exact ⟨fieldPow p 2#8 n, by
        rw [residue_fieldPow hp, residue, bitPoly_two, ← map_pow, Polynomial.X_pow_eq_monomial]⟩

section

variable {t : Rom} {p : BitVec 9} {g : Byte}

theorem Rom.builtFrom.residue_expMod (hp : p.getLsbD 8 = true) (ht : t.builtFrom p g) (n : Nat) :
    residue p (t.expMod n) = residue p g ^ n := by
  rw [ht.expMod_eq, residue_fieldPow hp, ← pow_eq_pow_mod _ (ht.pow_255 hp)]

/-- The quotient times the divisor is the dividend: the exponent of the product is 255 too large, and 255 is the order. -/
theorem Rom.builtFrom.residue_gfQuot_mul (hp : p.getLsbD 8 = true) (ht : t.builtFrom p g) (a : Byte) {b : Byte}
    (hb : b ≠ 0) : residue p (gfQuot t a b) * residue p b = residue p a := by
  unfold gfQuot
  split
  · next ha => simp [ha]
  · next ha =>
    obtain ⟨hlog, -⟩ := ht.2 b hb
    calc residue p (t.expMod (t.logAt a + 255 - t.logAt b)) * residue p b
        = residue p g ^ (t.logAt a + 255 - t.logAt b) * residue p g ^ t.logAt b := by
          rw [ht.residue_expMod hp, ht.residue_eq_pow hp hb]
      _ = residue p g ^ t.logAt a * residue p g ^ 255 := by
          rw [← pow_add, ← pow_add, Nat.sub_add_cancel (by omega)]
      _ = residue p a := by rw [ht.pow_255 hp, mul_one, ht.residue_eq_pow hp ha]

/-- The quotient ring by FIELD_POLY is a field: a nonzero class is that of a byte, a power of the invertible FIELD_GEN. -/
theorem Rom.builtFrom.isField (hp : p.getLsbD 8 = true) (ht : t.builtFrom p g) : IsField (AdjoinRoot (bitPoly p)) where
  exists_pair_ne := ⟨residue p 0#8, residue p 1#8, (residue_injective hp).ne (by decide)⟩
  mul_comm := mul_comm
  mul_inv_cancel := by
    intro y hy
    obtain ⟨a, rfl⟩ := residue_surjective hp y
    have ha : a ≠ 0 := by
      rintro rfl
      exact hy (residue_zero p)
    rw [ht.residue_eq_pow hp ha]
    exact ((ht.isUnit_gen hp).pow _).exists_right_inv

end

/-- A reading of the bytes as the elements of a field, with the engine's operations as the field's. -/
structure FieldReading (t : Rom) (K : Type) [Field K] where
  toElem : Byte ≃ K
  map_zero : toElem 0 = 0
  map_one : toElem 1 = 1
  map_add : ∀ a b, toElem (gfAdd a b) = toElem a + toElem b
  map_mul : ∀ a b, toElem (gfMul t a b) = toElem a * toElem b
  map_quot : ∀ a b, b ≠ 0 → toElem (gfQuot t a b) = toElem a / toElem b

/-- The tables of a valid pair make the bytes the field of R32, the quotient ring by FIELD_POLY. -/
theorem Rom.valid.exists_fieldReading {t : Rom} (h : t.valid) :
    ∃ (K : Type) (_ : Field K), Nonempty (FieldReading t K) := by
  obtain ⟨p, g, hok, ht⟩ := h
  have hp := degree_of_fieldOk hok
  let field := (ht.isField hp).toField
  refine ⟨AdjoinRoot (bitPoly p), field, ⟨{
    toElem := Equiv.ofBijective (residue p) ⟨residue_injective hp, residue_surjective hp⟩
    map_zero := residue_zero p
    map_one := residue_one p
    map_add := residue_xor p
    map_mul := ht.residue_gfMul hp
    map_quot := fun a b hb => ?_ }⟩⟩
  have hne : residue p b ≠ 0 := by
    rw [← residue_zero]
    exact (residue_injective hp).ne hb
  exact eq_div_of_mul_eq hne (ht.residue_gfQuot_mul hp a hb)

namespace FieldReading

variable {t : Rom} {K : Type} [Field K] (φ : FieldReading t K)

theorem injective : Function.Injective φ.toElem := φ.toElem.injective

@[simp] theorem toElem_zero : φ.toElem 0#8 = 0 := φ.map_zero

theorem map_eq_zero {a : Byte} : φ.toElem a = 0 ↔ a = 0 := by
  rw [← φ.map_zero]
  exact φ.injective.eq_iff

/-- Sum and difference are one operation (R95). -/
theorem map_add_eq_sub (a b : Byte) : φ.toElem (gfAdd a b) = φ.toElem a - φ.toElem b := by
  rw [eq_sub_iff_add_eq, ← φ.map_add]
  simp [gfAdd]

/-- The quotient times the divisor is the dividend. -/
theorem gfMul_gfQuot (φ : FieldReading t K) (a : Byte) {b : Byte} (hb : b ≠ 0) : gfMul t (gfQuot t a b) b = a := by
  apply φ.injective
  rw [φ.map_mul, φ.map_quot a b hb, div_mul_cancel₀ _ (φ.map_eq_zero.not.mpr hb)]

theorem one_gfMul (φ : FieldReading t K) (a : Byte) : gfMul t 1 a = a := by
  apply φ.injective
  rw [φ.map_mul, φ.map_one, one_mul]

/-- A nonzero factor may be cancelled. -/
theorem gfMul_right_cancel (φ : FieldReading t K) {a b c : Byte} (hb : b ≠ 0) (h : gfMul t a b = gfMul t c b) :
    a = c := by
  apply φ.injective
  have h' := congrArg φ.toElem h
  rw [φ.map_mul, φ.map_mul] at h'
  exact mul_right_cancel₀ (φ.map_eq_zero.not.mpr hb) h'

end FieldReading

theorem gfDiv_of_ne_zero (t : Rom) (a : Byte) {b : Byte} (hb : b ≠ 0) : gfDiv t a b = .ok (gfQuot t a b) :=
  if_neg hb

theorem gfDiv_zero (t : Rom) (a : Byte) : gfDiv t a 0 = .error .divisionByZero := rfl

/-! ## Commands with two byte operands -/

section

variable {s : State} {k : Fin 8} {a b : Byte}

/-- An operand register that holds a zero-extended byte holds a legal operand. -/
theorem byteOperand_setWidth (h : s.arg k = b.setWidth 32) : byteOperand s k = .ok b := by
  have hle : wordOperand s k ≤ 0xFF := by
    have := b.isLt
    simp only [wordOperand, h, BitVec.toNat_setWidth]
    omega
  rw [byteOperand_ok hle, h]
  simp

/-- What the four commands of the arithmetic engine have in common: two byte operands, then the operation (R91 to R94). -/
def withBytes (s : State) (f : Byte → Byte → Except OpError Effects) : Except OpError Effects := do
  let a ← byteOperand s 0
  let b ← byteOperand s 1
  f a b

theorem withBytes_ok {f : Byte → Byte → Except OpError Effects} (ha : s.args[0] = a.setWidth 32)
    (hb : s.args[1] = b.setWidth 32) : withBytes s f = f a b := by
  rw [withBytes, byteOperand_setWidth (k := 0) ha, byteOperand_setWidth (k := 1) hb]
  rfl

theorem withBytes_wide {f : Byte → Byte → Except OpError Effects}
    (h : 0xFF < s.args[0].toNat ∨ 0xFF < s.args[1].toNat) : withBytes s f = .error .badOperand := by
  obtain h | h := h
  · rw [withBytes, byteOperand_wide (k := 0) h]
    rfl
  · rw [withBytes, byteOperand_wide (k := 1) h]
    unfold byteOperand
    split <;> rfl

end

theorem exec_gfadd (s : State) :
    exec .gfadd s = complete s (withBytes s fun a b => .ok (byteResult (a ^^^ b))) := rfl

theorem exec_gfsub (s : State) :
    exec .gfsub s = complete s (withBytes s fun a b => .ok (byteResult (a ^^^ b))) := rfl

theorem exec_gfmul (s : State) :
    exec .gfmul s = complete s (withBytes s fun a b => .ok (byteResult (gfMul s.rom a b))) := rfl

theorem exec_gfdiv (s : State) :
    exec .gfdiv s = complete s (withBytes s fun a b => (gfDiv s.rom a b).map byteResult) := rfl

/-- A completion whose result is a byte writes RES0, zero-extended, and the status (R26, R223). -/
theorem complete_byteResult (s : State) (b : Byte) :
    complete s (.ok (byteResult b)) =
      .next { s with res := s.res.set 0 (b.setWidth 32), busy := false, done := true, ecode := 0x00 } := rfl

/-! ## The loops of the interpolator -/

theorem gfAdd_eq_zero {a b : Byte} : gfAdd a b = 0 ↔ a = b := BitVec.xor_eq_zero_iff

/-- The entries at other positions than `i`, without their indices. -/
def entriesBut (i : Nat) (l : List (Byte × Nat)) : List Byte := (l.filter (·.2 ≠ i)).map Prod.fst

theorem entriesBut_cons (i : Nat) (q : Byte × Nat) (l : List (Byte × Nat)) :
    entriesBut i (q :: l) = if q.2 = i then entriesBut i l else q.1 :: entriesBut i l := by
  by_cases h : q.2 = i <;> simp [entriesBut, h]

theorem entriesBut_zipIdx (u : List Byte) (k i : Nat) : entriesBut (k + i) (u.zipIdx k) = u.eraseIdx i := by
  induction u generalizing k i with
  | nil => rfl
  | cons x u ih =>
    rw [List.zipIdx_cons, entriesBut_cons]
    cases i with
    | zero =>
      have hall : (u.zipIdx (k + 1)).filter (·.2 ≠ k) = u.zipIdx (k + 1) := by
        rw [List.filter_eq_self]
        intro q hq
        have := List.le_snd_of_mem_zipIdx hq
        rw [decide_eq_true_eq]
        omega
      rw [if_pos (Nat.add_zero k).symm, Nat.add_zero, entriesBut, hall, List.zipIdx_map_fst, List.eraseIdx_cons_zero]
    | succ i => simp [← ih (k + 1) i, Nat.add_right_comm, Nat.add_assoc]

/-- The basis value of a point with x-coordinate `ui` against the x-coordinates of the others, from `b` on (R171). -/
def basisByte (t : Rom) (ui b : Byte) (others : List Byte) : Byte :=
  others.foldl (fun b uj => gfMul t b (gfQuot t uj (gfAdd uj ui))) b

/-- The basis loop divides by 0 when another point has the same x-coordinate, and has a value otherwise. -/
theorem basisLoop_eq (t : Rom) (i : Nat) (ui b : Byte) (l : List (Byte × Nat)) :
    basisLoop t i ui b l =
      if ui ∈ entriesBut i l then .error .divisionByZero else .ok (basisByte t ui b (entriesBut i l)) := by
  induction l generalizing b with
  | nil => rfl
  | cons q l ih =>
    obtain ⟨uj, j⟩ := q
    rw [basisLoop, entriesBut_cons]
    by_cases hj : j = i
    · rw [if_pos hj, if_pos hj, ih]
    · rw [if_neg hj, if_neg hj]
      by_cases hu : uj = ui
      · rw [gfAdd_eq_zero.mpr hu, gfDiv_zero, if_pos (List.mem_cons.mpr (.inl hu.symm))]
        rfl
      · have hmem : ui ∈ uj :: entriesBut i l ↔ ui ∈ entriesBut i l := by simp [Ne.symm hu]
        rw [gfDiv_of_ne_zero t uj (gfAdd_eq_zero.not.mpr hu)]
        simp only [hmem]
        exact ih _

/-- The terms of the interpolation (R171), summed from `acc` on. -/
def interpByte (t : Rom) (u : List Byte) (acc : Byte) (l : List ((Byte × Byte) × Nat)) : Byte :=
  l.foldl (fun acc e => gfAdd acc (gfMul t (basisByte t e.1.1 1 (u.eraseIdx e.2)) e.1.2)) acc

/-- The sum divides by 0 when one of its points shares its x-coordinate with another, and has a value otherwise. -/
theorem interpLoop_eq (t : Rom) (u : List Byte) (acc : Byte) (l : List ((Byte × Byte) × Nat)) :
    interpLoop t u acc l =
      if ∃ e ∈ l, e.1.1 ∈ u.eraseIdx e.2 then .error .divisionByZero else .ok (interpByte t u acc l) := by
  induction l generalizing acc with
  | nil => simp [interpLoop, interpByte]
  | cons e l ih =>
    obtain ⟨⟨ui, vi⟩, i⟩ := e
    have hbut : entriesBut i u.zipIdx = u.eraseIdx i := by simpa using entriesBut_zipIdx u 0 i
    rw [interpLoop, basisLoop_eq, hbut]
    by_cases hui : ui ∈ u.eraseIdx i
    · rw [if_pos hui, if_pos ⟨_, List.mem_cons_self, hui⟩]
      rfl
    · have hex : (∃ e ∈ ((ui, vi), i) :: l, e.1.1 ∈ u.eraseIdx e.2) ↔ ∃ e ∈ l, e.1.1 ∈ u.eraseIdx e.2 := by
        simp [hui]
      rw [if_neg hui]
      simp only [hex]
      exact ih _

theorem not_nodup_iff_exists_mem_eraseIdx {α : Type} {u : List α} :
    ¬u.Nodup ↔ ∃ (i : Nat) (h : i < u.length), u[i] ∈ u.eraseIdx i := by
  simp only [List.nodup_iff_injective_getElem, Function.Injective, List.mem_eraseIdx_iff_getElem, Fin.forall_iff,
    Fin.mk.injEq, not_forall, ← exists_prop]
  constructor
  · rintro ⟨i, hi, j, hj, he, hne⟩
    exact ⟨i, hi, j, hj, Ne.symm hne, he.symm⟩
  · rintro ⟨i, hi, j, hj, hne, he⟩
    exact ⟨i, hi, j, hj, he.symm, Ne.symm hne⟩

/-- Interpolation has a value exactly for distinct x-coordinates (R168). -/
theorem interp0_eq (t : Rom) {u v : List Byte} (h : u.length = v.length) :
    interp0 t u v = if u.Nodup then .ok (interpByte t u 0 (u.zip v).zipIdx) else .error .divisionByZero := by
  have hpoints : (∃ e ∈ (u.zip v).zipIdx, e.1.1 ∈ u.eraseIdx e.2) ↔ ¬u.Nodup := by
    rw [List.exists_mem_zipIdx', not_nodup_iff_exists_mem_eraseIdx]
    simp [← h]
  rw [interp0, interpLoop_eq]
  simp only [hpoints, ite_not]

theorem length_le_of_nodup {u : List Byte} (h : u.Nodup) : u.length ≤ 256 := by
  simpa using (h.map fun _ _ => BitVec.eq_of_toFin_eq).length_le_card

/-- Values at distinct points are those of a function. -/
theorem exists_map_eq {u v : List Byte} (hu : u.Nodup) (h : u.length = v.length) : ∃ f : Byte → Byte, u.map f = v := by
  refine ⟨fun x => v.getD (u.idxOf x) 0, List.ext_getElem (by simpa using h) fun i hi hi' => ?_⟩
  simp [hu.idxOf_getElem, hi']

/-! ## Polynomials with byte coefficients -/

namespace FieldReading

open Polynomial

variable {t : Rom} {K : Type} [Field K] (φ : FieldReading t K)

theorem toElem_gfPow (x : Byte) (k : Nat) : φ.toElem (gfPow t x k) = φ.toElem x ^ k := by
  induction k with
  | zero => rw [gfPow, φ.map_one, pow_zero]
  | succ k ih => rw [gfPow, φ.map_mul, ih, pow_succ]

/-- The polynomial whose coefficients a list of bytes gives, the constant term first (R113). -/
noncomputable def poly : List Byte → K[X]
  | [] => 0
  | b :: c => C (φ.toElem b) + X * poly c

theorem coeff_poly (c : List Byte) (i : Nat) : (φ.poly c).coeff i = φ.toElem (c.getD i 0) := by
  induction c generalizing i with
  | nil => simp [poly]
  | cons b c ih =>
    cases i with
    | zero => simp [poly]
    | succ i => simp [poly, ih]

theorem degree_poly_lt (c : List Byte) : (φ.poly c).degree < c.length := by
  rw [degree_lt_iff_coeff_zero]
  intro i hi
  rw [coeff_poly, List.getD_eq_default _ _ hi, φ.map_zero]

/-- Every polynomial of degree below `n` is that of `n` bytes. -/
theorem exists_poly_eq {n : Nat} {P : K[X]} (hP : P.degree < n) : ∃ c : List Byte, c.length = n ∧ φ.poly c = P := by
  refine ⟨(List.range n).map fun i => φ.toElem.symm (P.coeff i), by simp, ?_⟩
  ext i
  rw [coeff_poly]
  by_cases hi : i < n
  · simp [List.getD_eq_getElem?_getD, hi]
  · have hzero := (degree_lt_iff_coeff_zero P n).mp hP i (Nat.not_lt.mp hi)
    simp [List.getD_eq_getElem?_getD, hi, hzero]

theorem poly_injective {c c' : List Byte} (hlen : c.length = c'.length) (h : φ.poly c = φ.poly c') : c = c' := by
  refine List.ext_getElem hlen fun i hi hi' => ?_
  have hcoeff := congrArg (coeff · i) h
  simpa [coeff_poly, hi, hi', φ.injective.eq_iff] using hcoeff

theorem eval_poly (x : Byte) (c : List Byte) : (φ.poly c).eval (φ.toElem x) = φ.toElem (polyValue t x c) := by
  have hfold (k : Nat) : φ.toElem ((c.zipIdx k).foldr (fun p acc => gfAdd (gfMul t p.1 (gfPow t x p.2)) acc) 0) =
      φ.toElem x ^ k * (φ.poly c).eval (φ.toElem x) := by
    induction c generalizing k with
    | nil => simp [poly]
    | cons b c ih =>
      simp only [List.zipIdx_cons, List.foldr_cons, φ.map_add, φ.map_mul, toElem_gfPow, ih, poly, eval_add, eval_mul,
        eval_C, eval_X]
      ring
  simpa [polyValue] using (hfold 0).symm

theorem eval_zero_poly (c : List Byte) : (φ.poly c).eval 0 = φ.toElem (c.headD 0) := by
  rw [← coeff_zero_eq_eval_zero, coeff_poly]
  cases c <;> rfl

/-! ## The interpolator is Lagrange interpolation -/

theorem toElem_basisByte {ui : Byte} {others : List Byte} (h : ui ∉ others) (b : Byte) :
    φ.toElem (basisByte t ui b others) =
      φ.toElem b * (others.map fun uj => φ.toElem uj / (φ.toElem uj - φ.toElem ui)).prod := by
  induction others generalizing b with
  | nil => simp [basisByte]
  | cons uj others ih =>
    obtain ⟨hne, hmem⟩ := not_or.mp (List.mem_cons.not.mp h)
    have hdiv : gfAdd uj ui ≠ 0 := gfAdd_eq_zero.not.mpr (Ne.symm hne)
    calc φ.toElem (basisByte t ui b (uj :: others))
        = φ.toElem (gfMul t b (gfQuot t uj (gfAdd uj ui))) *
            (others.map fun uj => φ.toElem uj / (φ.toElem uj - φ.toElem ui)).prod := ih hmem _
      _ = _ := by
        rw [φ.map_mul, φ.map_quot _ _ hdiv, φ.map_add_eq_sub, List.map_cons, List.prod_cons, mul_assoc]

/-- The value at 0 of the Lagrange basis polynomial of a point (R169). -/
theorem eval_zero_basis {u : List Byte} (hu : u.Nodup) (ui : Byte) :
    (Lagrange.basis u.toFinset φ.toElem ui).eval 0 = φ.toElem (basisByte t ui 1 (u.erase ui)) := by
  have herase : u.toFinset.erase ui = (u.erase ui).toFinset := by
    ext x
    simp [hu.mem_erase_iff]
  rw [Lagrange.basis, eval_prod, herase, List.prod_toFinset _ (hu.erase ui),
    φ.toElem_basisByte fun hmem => (hu.mem_erase_iff.mp hmem).1 rfl, φ.map_one, one_mul]
  refine congrArg List.prod (List.map_congr_left fun uj _ => ?_)
  rw [Lagrange.basisDivisor, eval_mul, eval_C, eval_sub, eval_X, eval_C, zero_sub, inv_mul_eq_div, ← neg_sub,
    neg_div_neg_eq]

theorem toElem_interpByte (u : List Byte) (acc : Byte) (l : List ((Byte × Byte) × Nat)) :
    φ.toElem (interpByte t u acc l) =
      φ.toElem acc + (l.map fun e => φ.toElem (basisByte t e.1.1 1 (u.eraseIdx e.2)) * φ.toElem e.1.2).sum := by
  induction l generalizing acc with
  | nil => simp [interpByte]
  | cons e l ih =>
    rw [interpByte, List.foldl_cons, ← interpByte, ih, φ.map_add, φ.map_mul, List.map_cons, List.sum_cons, add_assoc]

/-- The interpolated byte is the value at 0 of the Lagrange polynomial through the points. -/
theorem eval_zero_interpolate {u : List Byte} (hu : u.Nodup) (f : Byte → Byte) :
    (Lagrange.interpolate u.toFinset φ.toElem fun x => φ.toElem (f x)).eval 0 =
      φ.toElem (interpByte t u 0 (u.zip (u.map f)).zipIdx) := by
  rw [Lagrange.interpolate_apply, eval_finsetSum, List.sum_toFinset _ hu, toElem_interpByte, φ.map_zero, zero_add]
  have hmap : (u.zip (u.map f)).zipIdx.map (fun e => φ.toElem (basisByte t e.1.1 1 (u.eraseIdx e.2)) * φ.toElem e.1.2) =
      u.map fun ui => φ.toElem (basisByte t ui 1 (u.erase ui)) * φ.toElem (f ui) := by
    refine List.ext_getElem (by simp) fun i hi _ => ?_
    have hi' : i < u.length := by simpa using hi
    simp [hu.erase_getElem i hi']
  rw [hmap]
  refine congrArg List.sum (List.map_congr_left fun ui _ => ?_)
  rw [eval_mul, eval_C, φ.eval_zero_basis hu, mul_comm]

/-- Interpolation through the values of a polynomial with at most as many coefficients as points gives its constant
term. -/
theorem interp0_of_poly (φ : FieldReading t K) {u c : List Byte} (hu : u.Nodup) (hc : c.length ≤ u.length) :
    interp0 t u (u.map fun x => polyValue t x c) = .ok (c.headD 0) := by
  rw [interp0_eq t (by simp), if_pos hu, Except.ok.injEq]
  apply φ.injective
  have hdeg : (φ.poly c).degree < u.toFinset.card := by
    rw [List.toFinset_card_of_nodup hu]
    exact (φ.degree_poly_lt c).trans_le (by exact_mod_cast hc)
  rw [← φ.eval_zero_interpolate hu, ← φ.eval_zero_poly,
    ← Lagrange.eq_interpolate_of_eval_eq _ φ.injective.injOn hdeg fun x _ => φ.eval_poly x c]

/-- Some polynomial with as many coefficients as points takes given values there. -/
theorem exists_polyValue_eq (φ : FieldReading t K) {u : List Byte} (hu : u.Nodup) (f : Byte → Byte) :
    ∃ c : List Byte, c.length = u.length ∧ ∀ x ∈ u, polyValue t x c = f x := by
  have hinj : Set.InjOn φ.toElem u.toFinset := φ.injective.injOn
  have hdeg := Lagrange.degree_interpolate_lt (fun x => φ.toElem (f x)) hinj
  rw [List.toFinset_card_of_nodup hu] at hdeg
  obtain ⟨c, hlen, hc⟩ := φ.exists_poly_eq hdeg
  refine ⟨c, hlen, fun x hx => φ.injective ?_⟩
  rw [← φ.eval_poly, hc, Lagrange.eval_interpolate_at_node _ hinj (List.mem_toFinset.mpr hx)]

/-- Two polynomials with no more coefficients than points that agree on the points are the same. -/
theorem eq_of_polyValue_eq (φ : FieldReading t K) {u c c' : List Byte} (hu : u.Nodup) (hc : c.length = u.length)
    (hc' : c'.length = u.length) (h : ∀ x ∈ u, polyValue t x c = polyValue t x c') : c = c' := by
  have hcard := List.toFinset_card_of_nodup hu
  apply φ.poly_injective (hc.trans hc'.symm)
  refine eq_of_degrees_lt_of_eval_index_eq u.toFinset φ.injective.injOn ?_ ?_ fun x hx => ?_
  · rw [hcard, ← hc]
    exact φ.degree_poly_lt c
  · rw [hcard, ← hc']
    exact φ.degree_poly_lt c'
  · rw [φ.eval_poly, φ.eval_poly, h x (List.mem_toFinset.mp hx)]

end FieldReading

end Sys2Proof.Machine

namespace Sys2Proof

open Machine

/-- Settles O33: the bytes are a field, whose laws these are. -/
theorem fieldLawsOfProduct : Obligations.FieldLawsOfProduct := by
  intro t ht a b c
  obtain ⟨K, _, ⟨φ⟩⟩ := ht.exists_fieldReading
  refine ⟨φ.injective ?_, φ.injective ?_, φ.injective ?_, φ.one_gfMul a, φ.injective ?_, φ.injective ?_,
    φ.injective ?_, fun h => ?_⟩
  · simp only [φ.map_mul, mul_comm]
  · simp only [φ.map_mul, mul_assoc]
  · rw [φ.map_mul, φ.map_one, mul_one]
  · rw [φ.map_mul, φ.map_zero, mul_zero]
  · rw [φ.map_mul, φ.map_zero, zero_mul]
  · simp only [φ.map_mul, φ.map_add, mul_add]
  · have hprod := φ.map_eq_zero.mpr h
    rw [φ.map_mul, mul_eq_zero] at hprod
    exact hprod.imp φ.map_eq_zero.mp φ.map_eq_zero.mp

/-- Settles O34: a nonzero factor cancels, so a product with it determines the other factor. -/
theorem quotientUndoesProduct : Obligations.QuotientUndoesProduct := by
  intro t ht a b hb
  obtain ⟨K, _, ⟨φ⟩⟩ := ht.exists_fieldReading
  have hquot (c : Byte) := φ.gfMul_gfQuot c hb
  simp only [gfDiv_of_ne_zero t _ hb, Except.ok.injEq]
  exact ⟨⟨_, rfl, hquot a, fun c hc => φ.gfMul_right_cancel hb (hc.trans (hquot a).symm)⟩,
    φ.gfMul_right_cancel hb (hquot _), φ.gfMul_right_cancel hb ((hquot b).trans (φ.one_gfMul b).symm)⟩

/-- Settles O48: a divisor is 0 exactly where two x-coordinates are equal, and there are 256 bytes only. -/
theorem interpolationFailsOnlyOnEqualCoordinates : Obligations.InterpolationFailsOnlyOnEqualCoordinates := by
  intro t u v h
  rw [interp0_eq t h]
  by_cases hu : u.Nodup
  · have := length_le_of_nodup hu
    simp [hu, this]
  · simp [hu]

/-- Settles O49: interpolation is that of Lagrange, over the field of the bytes. -/
theorem interpolationRecoversConstantTerm : Obligations.InterpolationRecoversConstantTerm := by
  intro t u v ht hlen hu
  obtain ⟨K, _, ⟨φ⟩⟩ := ht.exists_fieldReading
  constructor
  · obtain ⟨f, rfl⟩ := exists_map_eq hu hlen
    obtain ⟨c, hc, hval⟩ := φ.exists_polyValue_eq hu f
    rw [← List.map_congr_left hval]
    exact ⟨c, hc, rfl, φ.interp0_of_poly hu hc.le,
      fun c' hc' h => φ.eq_of_polyValue_eq hu hc' hc (List.map_inj_left.mp h)⟩
  · rintro c hc rfl
    exact φ.interp0_of_poly hu hc

/-- Settles O28: both commands are the xor of two byte operands. -/
theorem gfaddAndGfsubXor : Obligations.GfaddAndGfsubXor := by
  constructor
  · intro s a b ha hb
    rw [exec_gfadd, exec_gfsub, withBytes_ok ha hb, complete_byteResult]
    exact ⟨rfl, rfl⟩
  · intro s h
    rw [exec_gfadd, exec_gfsub, withBytes_wide h]
    exact ⟨rfl, rfl⟩

/-- Settles O29, by the cases of the product. -/
theorem gfmulLooksUpProduct : Obligations.GfmulLooksUpProduct := by
  refine ⟨fun s a b ha hb h0 => ?_, fun s a b ha hb ha0 hb0 => ?_, fun s h => ?_⟩
  · rw [exec_gfmul, withBytes_ok ha hb, gfMul, if_pos h0, complete_byteResult]
    rfl
  · rw [exec_gfmul, withBytes_ok ha hb, gfMul, if_neg (not_or.mpr ⟨ha0, hb0⟩), complete_byteResult]
    rfl
  · rw [exec_gfmul, withBytes_wide h]
    rfl

/-- Settles O30, by the cases of the quotient: the divisor is tested first. -/
theorem gfdivLooksUpQuotient : Obligations.GfdivLooksUpQuotient := by
  refine ⟨fun s a ha hb => ?_, fun s b ha hb hb0 => ?_, fun s a b ha hb ha0 hb0 => ?_, fun s h => ?_⟩
  · rw [exec_gfdiv, withBytes_ok (b := 0) ha hb, gfDiv_zero]
    rfl
  · rw [exec_gfdiv, withBytes_ok (a := 0) ha hb, gfDiv_of_ne_zero _ _ hb0, gfQuot, if_pos rfl, Except.map,
      complete_byteResult]
    rfl
  · rw [exec_gfdiv, withBytes_ok ha hb, gfDiv_of_ne_zero _ _ hb0, gfQuot, if_neg ha0, Except.map,
      complete_byteResult]
    rfl
  · rw [exec_gfdiv, withBytes_wide h]
    rfl

end Sys2Proof

/-! PROOFS. The family 41_polynomial_evaluator.md: the running-power loop, and the command PEVAL. -/

namespace Sys2Proof.Machine

/-! ## The running-power loop -/

/-- The terms of `polyValue` with the exponents counted from `k` on (R113). -/
def polyValueFrom (t : Rom) (x : Byte) (k : Nat) (c : List Byte) : Byte :=
  (c.zipIdx k).foldr (fun p acc => gfAdd (gfMul t p.1 (gfPow t x p.2)) acc) 0

theorem polyValueFrom_zero (t : Rom) (x : Byte) (c : List Byte) : polyValueFrom t x 0 c = polyValue t x c := rfl

theorem polyValueFrom_cons (t : Rom) (x : Byte) (k : Nat) (b : Byte) (c : List Byte) :
    polyValueFrom t x k (b :: c) = gfAdd (gfMul t b (gfPow t x k)) (polyValueFrom t x (k + 1) c) := rfl

/-- Once the running power has reached `x^k`, the loop adds the terms from exponent `k` on to its sum (R115). -/
theorem polyLoop_gfPow (t : Rom) (x sum : Byte) (k : Nat) (c : List Byte) :
    polyLoop t x sum (gfPow t x k) c = gfAdd sum (polyValueFrom t x k c) := by
  induction c generalizing sum k with
  | nil => exact BitVec.xor_zero.symm
  | cons b c ih =>
    calc polyLoop t x sum (gfPow t x k) (b :: c)
        = polyLoop t x (gfAdd sum (gfMul t b (gfPow t x k))) (gfPow t x (k + 1)) c := rfl
      _ = gfAdd (gfAdd sum (gfMul t b (gfPow t x k))) (polyValueFrom t x (k + 1) c) := ih _ _
      _ = gfAdd sum (polyValueFrom t x k (b :: c)) := by
        rw [polyValueFrom_cons]
        exact BitVec.xor_assoc _ _ _

/-! ## The command PEVAL -/

theorem exec_peval (s : State) : exec .peval s = complete s (evalPeval s) := rfl

/-- A register whose value is a byte's holds a zero-extended byte. -/
theorem exists_eq_setWidth_of_le {w : Word} (h : w.toNat ≤ 0xFF) : ∃ x : Byte, w = x.setWidth 32 :=
  ⟨w.setWidth 8, by bv_omega⟩

/-- After a part that answers OK, the sequence goes on with its answer. -/
theorem ok_bind {α β : Type} (a : α) (f : α → Except OpError β) : (Except.ok a >>= f) = f a := rfl

theorem peval_of_ne_zero (t : Rom) {x : Byte} (hx : x ≠ 0) (c : List Byte) : peval t x c = .ok (polySum t x c) :=
  if_neg hx

section

variable {s : State} {x : Byte}

/-- The first check of PEVAL (R111). -/
theorem evalPeval_of_wide (h : 0xFF < s.args[0].toNat) : evalPeval s = .error .badOperand := by
  rw [evalPeval, byteOperand_wide (k := 0) h]
  rfl

/-- With a byte in ARG0, PEVAL tests the point, then the coefficient region, and then evaluates (R111, R112). -/
theorem evalPeval_of_byte (h : s.args[0] = x.setWidth 32) :
    evalPeval s =
      if x = 0 then .error .invalidIndex
      else if s.args[1].toNat + s.args[2].toNat ≤ s.buf.size then
        .ok (byteResult (polySum s.rom x (s.buf.readBytes s.args[1].toNat s.args[2].toNat)))
      else .error .badAddress := by
  rw [evalPeval, byteOperand_setWidth (k := 0) h]
  simp only [ok_bind, require_bind]
  by_cases hx : x = 0
  · rw [if_neg (not_not_intro hx), if_pos hx]
  · rw [if_pos hx, if_neg hx, peval_of_ne_zero _ hx]
    rfl

end

end Sys2Proof.Machine

namespace Sys2Proof

open Machine

/-- Settles O36: the loop starts with the sum 0 and the power x^0. -/
theorem pevalComputesPolynomial : Obligations.PevalComputesPolynomial := by
  intro t x c
  calc polySum t x c
      = gfAdd 0 (polyValueFrom t x 0 c) := polyLoop_gfPow t x 0 0 c
    _ = polyValue t x c := by
      rw [polyValueFrom_zero]
      exact BitVec.zero_xor

/-- Settles O35, by the checks in order: operand, point, region. -/
theorem pevalResultAndChecks : Obligations.PevalResultAndChecks := by
  refine ⟨fun s x hx hx0 hr => ?_, fun s hwide => ?_, fun s hzero => ?_, fun s hne hle hr => ?_⟩
  · rw [exec_peval, evalPeval_of_byte hx, if_neg hx0, if_pos hr, complete_byteResult]
  · rw [exec_peval, evalPeval_of_wide hwide]
    rfl
  · rw [exec_peval, evalPeval_of_byte (x := 0) hzero, if_pos rfl]
    rfl
  · obtain ⟨x, hx⟩ := exists_eq_setWidth_of_le hle
    have hx0 : x ≠ 0 := by
      rintro rfl
      exact hne hx
    rw [exec_peval, evalPeval_of_byte hx, if_neg hx0, if_neg (Nat.not_le.mpr hr)]
    rfl

end Sys2Proof

/-! PROOFS. The family 42_share_generator.md: stores one after another read back, and the command GENERATE. -/

namespace Sys2Proof.Machine

/-! ## Outputs one after another in BUF -/

/-- A region that no store touches reads as before. -/
theorem Memory.readBytes_storeAll_outside {m : Memory} {a n : Nat} {ps : List (Nat × List Byte)}
    (h : ∀ p ∈ ps, a + n ≤ p.1 ∨ p.1 + p.2.length ≤ a) : (m.storeAll ps).readBytes a n = m.readBytes a n := by
  refine List.map_congr_left fun k hk => Memory.read_storeAll_outside fun p hp => ?_
  have hkn := List.mem_range.mp hk
  have hp := h p hp
  omega

/-- Of stores into regions that rise without overlap, each reads back as written. -/
theorem Memory.readBytes_storeAll_of_mem {m : Memory} {ps : List (Nat × List Byte)}
    (h : ps.Pairwise fun p q => p.1 + p.2.length ≤ q.1) {p : Nat × List Byte} (hp : p ∈ ps) :
    (m.storeAll ps).readBytes p.1 p.2.length = p.2 := by
  induction ps generalizing m with
  | nil => cases hp
  | cons q ps ih =>
    obtain ⟨hq, hps⟩ := List.pairwise_cons.mp h
    rw [Memory.storeAll_cons]
    obtain rfl | hp := List.mem_cons.mp hp
    · rw [Memory.readBytes_storeAll_outside fun p' hp' => .inl (hq p' hp'), Memory.readBytes_writeBytes]
    · exact ih hps hp

section

variable {dst stride : Nat} {outs : List (List Byte)}

theorem getElem_consecutive {i : Nat} (hi : i < (consecutive dst stride outs).length) :
    (consecutive dst stride outs)[i] = (dst + i * stride, outs[i]'(by simpa [consecutive] using hi)) := by
  simp [consecutive]

/-- Outputs of `stride` bytes each rise without overlap (R126). -/
theorem pairwise_consecutive (hlen : ∀ o ∈ outs, o.length = stride) :
    (consecutive dst stride outs).Pairwise fun p q => p.1 + p.2.length ≤ q.1 := by
  rw [List.pairwise_iff_getElem]
  intro i j hi hj hij
  rw [getElem_consecutive, getElem_consecutive, hlen _ (List.getElem_mem _)]
  calc dst + i * stride + stride
      = dst + (i + 1) * stride := by rw [Nat.succ_mul, Nat.add_assoc]
    _ ≤ dst + j * stride := Nat.add_le_add_left (Nat.mul_le_mul_right stride hij) dst

/-- Output `i` stands at `dst + i × stride` (R126, 44_share_creation.md R157). -/
theorem Memory.readBytes_storeAll_consecutive (m : Memory) (hlen : ∀ o ∈ outs, o.length = stride) {i : Nat}
    (hi : i < outs.length) :
    (m.storeAll (consecutive dst stride outs)).readBytes (dst + i * stride) stride = outs[i] := by
  have hi' : i < (consecutive dst stride outs).length := by simpa [consecutive] using hi
  have hread := Memory.readBytes_storeAll_of_mem (m := m) (pairwise_consecutive (dst := dst) hlen) (List.getElem_mem hi')
  rwa [getElem_consecutive, hlen _ (List.getElem_mem _)] at hread

end

/-- Two numbers written to RES0 and RES1 read back when they fit in 32 bits. -/
theorem toNat_writeResults_pair (res : Vector Word 4) {v w : Nat} (hv : v < 2 ^ 32) (hw : w < 2 ^ 32) :
    (writeResults res [(0, BitVec.ofNat 32 v), (1, BitVec.ofNat 32 w)])[0].toNat = v ∧
      (writeResults res [(0, BitVec.ofNat 32 v), (1, BitVec.ofNat 32 w)])[1].toNat = w := by
  simpa [writeResults] using And.intro hv hw

/-! ## The payloads of the draws -/

/-- The payloads of a secret for the answers the port is going to give, in index order (R126, R130). -/
def Rng.payloadsOf (r : Rng) (t : Rom) (m n : Nat) (secret : List Byte) : List (List Byte) :=
  (List.range n).map fun i => r.payloadOf t m secret (BitVec.ofNat 8 (i + 1))

@[simp] theorem length_payloadsOf (r : Rng) (t : Rom) (m n : Nat) (secret : List Byte) :
    (r.payloadsOf t m n secret).length = n := by
  simp [Rng.payloadsOf]

theorem getElem_payloadsOf {r : Rng} {t : Rom} {m n : Nat} {secret : List Byte} {i : Nat}
    (hi : i < (r.payloadsOf t m n secret).length) :
    (r.payloadsOf t m n secret)[i] = r.payloadOf t m secret (BitVec.ofNat 8 (i + 1)) := by
  simp [Rng.payloadsOf]

theorem length_of_mem_payloadsOf {r : Rng} {t : Rom} {m n : Nat} {secret o : List Byte}
    (ho : o ∈ r.payloadsOf t m n secret) : o.length = secret.length + 1 := by
  obtain ⟨i, -, rfl⟩ := List.mem_map.mp ho
  simp [Rng.payloadOf]

/-- When every request is answered with a byte, the generator gives all payloads and has made `(m - 1)` requests for each
byte of the secret (R124, R130). -/
theorem generate_answers (t : Rom) {m : Nat} (n : Nat) {secret : List Byte} {r : Rng}
    (h : r.answers (secret.length * (m - 1))) :
    generate t m n secret r = (.ok (r.payloadsOf t m n secret), r.advance (secret.length * (m - 1))) := by
  rw [generate, drawPolynomials_answers h]
  simp [payloads, payload, Rng.payloadsOf, Rng.payloadOf]

/-! ## The command GENERATE -/

section

variable {s : State}

/-- The checks of GENERATE: the parameters, and after them the two regions (R121, R122). -/
theorem checkGenerate_eq (s : State) :
    checkGenerate s =
      if paramsOk (wordOperand s 0) (wordOperand s 1) (wordOperand s 3) then
        if s.buf.region (wordOperand s 2) (wordOperand s 3) ∧
            s.buf.region (wordOperand s 4) (wordOperand s 1 * (wordOperand s 3 + 1)) then .ok ()
        else .error .badAddress
      else .error .invalidParameters := by
  rw [checkGenerate, require_bind, require_bind, ite_and (P := s.buf.region (wordOperand s 2) (wordOperand s 3))]
  rfl

/-- A failed check ends GENERATE before any draw (R121, R122, R124). -/
theorem exec_generate_of_check_error {e : OpError} (h : checkGenerate s = .error e) :
    exec .generate s = .next (s.raiseError e) := by
  rw [exec_eq_completeDrawing, evalInstr, evalGenerate, h]
  rfl

/-- GENERATE after its checks, with every request answered with a byte (R127). -/
theorem exec_generate_answers (h : checkGenerate s = .ok ())
    (hr : s.rng.answers (wordOperand s 3 * (wordOperand s 0 - 1))) :
    exec .generate s =
      .next (({ s with rng := s.rng.advance (wordOperand s 3 * (wordOperand s 0 - 1)) } : State).completeOk
        (generateEffects s (s.rng.payloadsOf s.rom (wordOperand s 0) (wordOperand s 1)
          (s.buf.readBytes (wordOperand s 2) (wordOperand s 3))))) := by
  have hg := generate_answers s.rom (wordOperand s 1)
    (secret := s.buf.readBytes (wordOperand s 2) (wordOperand s 3)) (by simpa using hr)
  rw [exec_eq_completeDrawing, evalInstr, evalGenerate, h]
  simp only [hg, Memory.length_readBytes]
  rfl

end

end Sys2Proof.Machine

namespace Sys2Proof

open Machine

/-- Settles O37: the payloads are stored one after another, so each reads back where it was put; the rest of BUF is the frame
of the generating commands. -/
theorem generateWritesPayloads : Obligations.GenerateWritesPayloads := by
  intro s hparams hsecret hdst hr
  have hcheck : checkGenerate s = .ok () :=
    (checkGenerate_eq s).trans ((if_pos hparams).trans (if_pos ⟨hsecret, hdst⟩))
  have hexec := exec_generate_answers hcheck hr
  obtain ⟨-, -, -, -, hframe, -⟩ := generatingCommandsFrame.1 s _ hexec
  have hlen : s.args[3].toNat + 1 < 2 ^ 32 := by omega
  obtain ⟨hres0, hres1⟩ := toNat_writeResults_pair s.res hlen s.args[1].isLt
  refine ⟨_, hexec, rfl, rfl, rfl, hres0, hres1, rfl, fun i hi => ?_, hframe⟩
  exact (Memory.readBytes_storeAll_consecutive s.buf (fun o ho => by simpa using length_of_mem_payloadsOf ho)
    (hi.trans_eq (length_payloadsOf ..).symm)).trans (getElem_payloadsOf _)

/-- Settles O38, by the checks in order: parameters, then regions. -/
theorem generateChecksInOrder : Obligations.GenerateChecksInOrder := by
  constructor
  · intro s hbad
    have hparams : ¬paramsOk s.args[0].toNat s.args[1].toNat s.args[3].toNat := by omega
    exact exec_generate_of_check_error ((checkGenerate_eq s).trans (if_neg hparams))
  · intro s hparams hbad
    have hregions : ¬(s.buf.region (wordOperand s 2) (wordOperand s 3) ∧
        s.buf.region (wordOperand s 4) (wordOperand s 1 * (wordOperand s 3 + 1))) := by
      rintro ⟨hsecret, hdst⟩
      exact hbad.elim (Nat.not_lt.mpr hsecret) (Nat.not_lt.mpr hdst)
    exact exec_generate_of_check_error ((checkGenerate_eq s).trans ((if_pos hparams).trans (if_neg hregions)))

end Sys2Proof

/-! PROOFS. The family 43_header_codec.md: the header codec's two functions, and the commands HDRENC and HDRDEC. -/

namespace Sys2Proof.Machine

/-! ## The identifier field -/

section

variable {id : List Byte}

theorem idField_of_le (h : 16 ≤ id.length) : idField id = id.take 16 := by
  simp [idField, Nat.sub_eq_zero_of_le h]

theorem idField_of_lt (h : id.length < 16) : idField id = id ++ List.replicate (16 - id.length) 0 := by
  rw [idField, List.take_of_length_le h.le]

/-- An identifier of the field's length is the field (R142). -/
theorem idField_of_length_eq (h : id.length = 16) : idField id = id := by
  rw [idField_of_le h.ge, List.take_of_length_le h.le]

end

/-! ## Big-endian pairs -/

/-- `BE16` gives back the two bytes of a pair (R14). -/
theorem be16_pair (hi lo : Byte) : be16 (256 * hi.toNat + lo.toNat) = [hi, lo] := by
  have hhi : BitVec.ofNat 8 ((256 * hi.toNat + lo.toNat) / 256) = hi := by bv_omega
  have hlo : BitVec.ofNat 8 (256 * hi.toNat + lo.toNat) = lo := by bv_omega
  rw [be16, hhi, hlo]

/-- A 16-bit number is the pair of the bytes `BE16` gives (R14). -/
theorem pair_be16 {v : Nat} (h : v ≤ 65535) :
    256 * (BitVec.ofNat 8 (v / 256)).toNat + (BitVec.ofNat 8 v).toNat = v := by
  simp only [BitVec.toNat_ofNat]
  omega

/-- `BE16` of a register's value: its second lowest byte, then its lowest (R14). -/
theorem be16_toNat (w : Word) : be16 w.toNat = [w.extractLsb' 8 8, w.extractLsb' 0 8] := by
  rw [be16, BitVec.extractLsb', BitVec.extractLsb', Nat.shiftRight_eq_div_pow, Nat.shiftRight_zero]

/-! ## The two functions -/

/-- A header is the identifier field, two bytes and a pair (R135). -/
theorem encodeHeader_eq (id : List Byte) (h t : Byte) (sl : Nat) :
    encodeHeader id h t sl = idField id ++ h :: t :: be16 sl := by
  simp [encodeHeader]

/-- Bytes given in their four parts decode to the fields (R141). -/
theorem decodeHeader_parts {ident : List Byte} (hlen : ident.length = 16) (h t hi lo : Byte) :
    decodeHeader (ident ++ [h, t, hi, lo]) = .ok ⟨ident, h, t, 256 * hi.toNat + lo.toNat⟩ := by
  rw [decodeHeader, List.drop_left' hlen, List.take_left' hlen]

/-! ## Bytes in BUF -/

/-- A region in two parts. -/
theorem Memory.readBytes_add (m : Memory) (a n k : Nat) :
    m.readBytes a (n + k) = m.readBytes a n ++ m.readBytes (a + n) k := by
  simp [Memory.readBytes, List.range_add, Nat.add_assoc]

/-- The header at an address is the identifier field and four bytes (R135). -/
theorem Memory.decodeHeader_readBytes (m : Memory) (a : Nat) :
    decodeHeader (m.readBytes a 20) =
      .ok ⟨m.readBytes a 16, m.read (a + 16), m.read (a + 17),
        256 * (m.read (a + 18)).toNat + (m.read (a + 19)).toNat⟩ := by
  rw [m.readBytes_add a 16 4]
  exact decodeHeader_parts (m.length_readBytes a 16) _ _ _ _

/-- The only store of a command reads back as written. -/
theorem Memory.readBytes_storeAll_single (m : Memory) (a : Nat) {n : Nat} {bs : List Byte} (h : bs.length = n) :
    (m.storeAll [(a, bs)]).readBytes a n = bs := by
  rw [← h]
  exact m.readBytes_writeBytes a bs

/-- Values written to RES0, RES1 and RES2 read back. -/
theorem getElem_writeResults_triple (res : Vector Word 4) (u v w : Word) :
    (writeResults res [(0, u), (1, v), (2, w)])[0] = u ∧ (writeResults res [(0, u), (1, v), (2, w)])[1] = v ∧
      (writeResults res [(0, u), (1, v), (2, w)])[2] = w := by
  simp [writeResults]

/-! ## The commands HDRENC and HDRDEC -/

/-- Of two regions one is invalid when its sum exceeds the size of BUF (R55). -/
theorem Memory.not_regions_iff {m : Memory} {a n b k : Nat} :
    ¬(m.region a n ∧ m.region b k) ↔ m.size < a + n ∨ m.size < b + k := by
  rw [not_and_or, Nat.not_le, Nat.not_le]

theorem exec_hdrenc (s : State) : exec .hdrenc s = complete s (evalHdrenc s) := rfl

theorem exec_hdrdec (s : State) : exec .hdrdec s = complete s (evalHdrdec s) := rfl

section

variable {s : State}

/-- A byte operand raises nothing but BadOperand, so what follows raises that whatever the operand is. -/
theorem byteOperand_bind_badOperand {α : Type} {k : Fin 8} {f : Byte → Except OpError α}
    (h : ∀ b, f b = .error .badOperand) : (byteOperand s k >>= f) = .error .badOperand := by
  unfold byteOperand
  split
  · exact h _
  · rfl

/-- A wide operand ends HDRENC, whichever of the three it is (R138). -/
theorem evalHdrenc_of_wide (h : 0xFF < wordOperand s 2 ∨ 0xFF < wordOperand s 3 ∨ 0xFFFF < wordOperand s 4) :
    evalHdrenc s = .error .badOperand := by
  unfold evalHdrenc
  obtain hh | ht | hsl := h
  · rw [byteOperand_wide hh]
    rfl
  · refine byteOperand_bind_badOperand fun _ => ?_
    rw [byteOperand_wide ht]
    rfl
  · refine byteOperand_bind_badOperand fun _ => byteOperand_bind_badOperand fun _ => ?_
    rw [halfOperand_wide hsl]
    rfl

/-- With its operands in range HDRENC tests the two regions, and then encodes (R138, R139). -/
theorem evalHdrenc_of_operands (hh : wordOperand s 2 ≤ 0xFF) (ht : wordOperand s 3 ≤ 0xFF)
    (hsl : wordOperand s 4 ≤ 0xFFFF) :
    evalHdrenc s =
      if s.buf.region (wordOperand s 0) (wordOperand s 1) ∧ s.buf.region (wordOperand s 5) 20 then
        .ok ⟨[(wordOperand s 5, encodeHeader (s.buf.readBytes (wordOperand s 0) (wordOperand s 1))
          ((s.arg 2).setWidth 8) ((s.arg 3).setWidth 8) (wordOperand s 4))], [(0, 20)]⟩
      else .error .badAddress := by
  rw [evalHdrenc, byteOperand_ok hh, byteOperand_ok ht, halfOperand_ok hsl]
  simp only [ok_bind, require_bind]
  rw [ite_and]
  rfl

/-- The first check of HDRDEC (R141). -/
theorem evalHdrdec_of_short (h : wordOperand s 1 < 20) : evalHdrdec s = .error .malformedHeader := by
  rw [evalHdrdec, require_bind, if_neg (Nat.not_le.mpr h)]

/-- With 20 bytes or more HDRDEC tests the two regions, and then decodes (R141). -/
theorem evalHdrdec_of_le (h : 20 ≤ wordOperand s 1) :
    evalHdrdec s =
      if s.buf.region (wordOperand s 0) (wordOperand s 1) ∧ s.buf.region (wordOperand s 2) 16 then
        .ok ⟨[(wordOperand s 2, s.buf.readBytes (wordOperand s 0) 16)],
          [(0, (s.buf.read (wordOperand s 0 + 16)).setWidth 32), (1, (s.buf.read (wordOperand s 0 + 17)).setWidth 32),
            (2, BitVec.ofNat 32 (256 * (s.buf.read (wordOperand s 0 + 18)).toNat +
              (s.buf.read (wordOperand s 0 + 19)).toNat))]⟩
      else .error .badAddress := by
  rw [evalHdrdec, require_bind, if_pos h, require_bind, require_bind, Memory.decodeHeader_readBytes, ite_and]
  rfl

end

end Sys2Proof.Machine

namespace Sys2Proof

open Machine

/-- Settles O40, by the two cases of the length. -/
theorem identifierFieldTruncatesOrPads : Obligations.IdentifierFieldTruncatesOrPads :=
  fun id => ⟨idField_of_le, idField_of_lt, length_idField id⟩

/-- Settles O43: both functions say how the four parts stand one after another, and a pair is a 16-bit number. -/
theorem headerCodecInverse : Obligations.HeaderCodecInverse := by
  constructor
  · intro id h t hi lo hid
    rw [encodeHeader_eq, idField_of_length_eq hid, be16_pair]
  · intro id h t sl hsl
    calc decodeHeader (encodeHeader id h t sl)
        = decodeHeader (idField id ++ [h, t, BitVec.ofNat 8 (sl / 256), BitVec.ofNat 8 sl]) := by
          rw [encodeHeader_eq, be16]
      _ = .ok ⟨idField id, h, t, sl⟩ := by
          rw [decodeHeader_parts (length_idField id), pair_be16 hsl]

/-- Settles O41, by the checks in order: operands, then regions; the frame is that of the header commands. -/
theorem hdrencWritesHeader : Obligations.HdrencWritesHeader := by
  refine ⟨fun s hh ht hsl hsrc hdst => ?_, fun s hwide => ?_, fun s hh ht hsl hbad => ?_⟩
  · have heval := (evalHdrenc_of_operands hh ht hsl).trans (if_pos ⟨hsrc, hdst⟩)
    have hexec := (exec_hdrenc s).trans (congrArg (complete s) heval)
    obtain ⟨-, -, -, -, -, hframe, -⟩ := headerCommandsFrame.1 s _ hexec
    refine ⟨_, hexec, rfl, rfl, rfl, rfl, ?_, hframe⟩
    calc _ = encodeHeader (s.buf.readBytes s.args[0].toNat s.args[1].toNat) (s.args[2].setWidth 8)
          (s.args[3].setWidth 8) s.args[4].toNat := s.buf.readBytes_storeAll_single _ (length_encodeHeader ..)
      _ = _ := by rw [encodeHeader_eq, be16_toNat]
  · rw [exec_hdrenc, evalHdrenc_of_wide hwide]
    rfl
  · have heval := (evalHdrenc_of_operands hh ht hsl).trans (if_neg (Memory.not_regions_iff.mpr hbad))
    rw [exec_hdrenc, heval]
    rfl

/-- Settles O42, by the checks in order: length, then regions; the frame is that of the header commands. -/
theorem hdrdecReadsHeader : Obligations.HdrdecReadsHeader := by
  refine ⟨fun s hlen hsrc hdst => ?_, fun s hshort => ?_, fun s hlen hbad => ?_⟩
  · have heval := (evalHdrdec_of_le hlen).trans (if_pos ⟨hsrc, hdst⟩)
    have hexec := (exec_hdrdec s).trans (congrArg (complete s) heval)
    obtain ⟨-, -, hres3, hframe, -⟩ := headerCommandsFrame.2 s _ hexec
    obtain ⟨hres0, hres1, hres2⟩ := getElem_writeResults_triple s.res _ _ _
    refine ⟨_, hexec, rfl, rfl, rfl, s.buf.readBytes_storeAll_single _ (Memory.length_readBytes ..), hres0, hres1, ?_,
      hres3, hframe⟩
    exact (congrArg BitVec.toNat hres2).trans ((BitVec.toNat_ofNat _ _).trans (Nat.mod_eq_of_lt (by omega)))
  · rw [exec_hdrdec, evalHdrdec_of_short hshort]
    rfl
  · have heval := (evalHdrdec_of_le hlen).trans (if_neg (Memory.not_regions_iff.mpr hbad))
    rw [exec_hdrdec, heval]
    rfl

end Sys2Proof

/-! PROOFS. The family 44_share_creation.md: the command SHARE. -/

namespace Sys2Proof.Machine

/-! ## The hash operand and the secret -/

/-- Ids above 2 name no algorithm (R8). -/
theorem HashAlg.ofId_of_two_lt {n : Nat} (h : 2 < n) : HashAlg.ofId n = none := by
  match n, h with
  | _ + 3, _ => rfl

/-- The digest is appended unless the id is NONE (44_share_creation.md R154). -/
theorem extendSecret_eq_ite (u : DigestUnit) (h : HashAlg) (secret : List Byte) :
    extendSecret u h secret = if h = .noHash then secret else secret ++ digest u h secret := by
  cases h <;> rfl

/-! ## The command SHARE -/

section

variable {s : State} {h : HashAlg}

@[simp] theorem length_shareHeader (s : State) (h : HashAlg) : (shareHeader s h).length = 20 :=
  length_encodeHeader ..

/-- An absent identifier fails the first check (R151). -/
theorem checkShare_noid (s : State) : checkShare true s = .error .invalidParameters := rfl

/-- The checks of SHARE for a known hash id: the parameters, and after them the three regions (R152, R153). -/
theorem checkShare_of_ofId (hid : HashAlg.ofId (wordOperand s 7) = some h) :
    checkShare false s =
      if paramsOk (wordOperand s 0) (wordOperand s 1) (wordOperand s 3 + h.dlen) then
        if s.buf.region (wordOperand s 2) (wordOperand s 3) ∧ s.buf.region (wordOperand s 5) (wordOperand s 6) ∧
            s.buf.region (wordOperand s 4) (wordOperand s 1 * (21 + (wordOperand s 3 + h.dlen))) then .ok h
        else .error .badAddress
      else .error .invalidParameters := by
  simp only [checkShare, hid, require_bind, if_true]
  rw [ite_and (P := s.buf.region (wordOperand s 2) (wordOperand s 3)),
    ite_and (P := s.buf.region (wordOperand s 5) (wordOperand s 6))]
  rfl

/-- A failed check ends SHARE before any draw (R151 to R153). -/
theorem exec_share_of_check_error {noid : Bool} {e : OpError} (hc : checkShare noid s = .error e) :
    exec (.share noid) s = .next (s.raiseError e) := by
  rw [exec_eq_completeDrawing, evalInstr, evalShare, hc]
  rfl

/-- SHARE after its checks, with every request answered with a byte (R155, R158). -/
theorem exec_share_answers {noid : Bool} (hc : checkShare noid s = .ok h)
    (hr : s.rng.answers ((wordOperand s 3 + h.dlen) * (wordOperand s 0 - 1))) :
    exec (.share noid) s =
      .next (({ s with rng := s.rng.advance ((wordOperand s 3 + h.dlen) * (wordOperand s 0 - 1)) } : State).completeOk
        (shareEffects s h (s.rng.payloadsOf s.rom (wordOperand s 0) (wordOperand s 1)
          (extendSecret s.digestUnit h (s.buf.readBytes (wordOperand s 2) (wordOperand s 3)))))) := by
  have hg := generate_answers s.rom (wordOperand s 1)
    (secret := extendSecret s.digestUnit h (s.buf.readBytes (wordOperand s 2) (wordOperand s 3))) (by simpa using hr)
  rw [exec_eq_completeDrawing, evalInstr, evalShare, hc]
  simp only [hg, length_extendSecret, Memory.length_readBytes]
  rfl

/-- Share `i` stands at `DST + i × (21 + L')`: the one header, and after it payload `i` (R156, R157). -/
theorem readBytes_storeAll_shareEffects (m : Memory) {outs : List (List Byte)}
    (hlen : ∀ o ∈ outs, o.length = wordOperand s 3 + h.dlen + 1) {i : Nat} (hi : i < outs.length) :
    (m.storeAll (shareEffects s h outs).stores).readBytes
        (wordOperand s 4 + i * (21 + (wordOperand s 3 + h.dlen))) (21 + (wordOperand s 3 + h.dlen)) =
      shareHeader s h ++ outs[i] := by
  have hshare : ∀ o ∈ outs.map (shareHeader s h ++ ·), o.length = 21 + (wordOperand s 3 + h.dlen) :=
    List.forall_mem_map.mpr fun o ho => by
      rw [List.length_append, length_shareHeader, hlen o ho]
      omega
  exact (m.readBytes_storeAll_consecutive hshare (by simpa using hi)).trans (List.getElem_map _)

end

end Sys2Proof.Machine

namespace Sys2Proof

open Machine

/-- Settles O44: the shares are stored one after another, so each reads back where it was put; the rest of BUF is the
frame of the generating commands. -/
theorem shareWritesShares : Obligations.ShareWritesShares := by
  rintro s h secret hid hparams hsecret hident hdst hr rfl
  have hcheck : checkShare false s = .ok h :=
    (checkShare_of_ofId hid).trans ((if_pos hparams).trans (if_pos ⟨hsecret, hident, hdst⟩))
  have hexec := exec_share_answers hcheck hr
  obtain ⟨-, -, -, -, hframe, -⟩ := generatingCommandsFrame.2.1 false s _ h hid hexec
  have hlen : 21 + (s.args[3].toNat + h.dlen) < 2 ^ 32 := by omega
  obtain ⟨hres0, hres1⟩ := toNat_writeResults_pair s.res hlen s.args[1].isLt
  refine ⟨_, hexec, rfl, rfl, rfl, hres0, hres1, rfl, fun i hi => ?_, hframe⟩
  rw [← extendSecret_eq_ite, ← getElem_payloadsOf (hi.trans_eq (length_payloadsOf ..).symm)]
  exact readBytes_storeAll_shareEffects s.buf (fun o ho => by simpa using length_of_mem_payloadsOf ho) _

/-- Settles O45, by the checks in order: identifier, hash id, parameters, then regions. -/
theorem shareChecksInOrder : Obligations.ShareChecksInOrder := by
  refine ⟨fun s => exec_share_of_check_error (checkShare_noid s), fun s hunknown => ?_, fun s h hid hbad => ?_,
    fun s h hid hparams hbad => ?_⟩
  · rw [exec_eq_completeDrawing, evalInstr, evalShare_unknownHash (HashAlg.ofId_of_two_lt hunknown)]
    rfl
  · exact exec_share_of_check_error ((checkShare_of_ofId hid).trans (if_neg hbad))
  · have hregions : ¬(s.buf.region (wordOperand s 2) (wordOperand s 3) ∧
        s.buf.region (wordOperand s 5) (wordOperand s 6) ∧
        s.buf.region (wordOperand s 4) (wordOperand s 1 * (21 + (wordOperand s 3 + h.dlen)))) :=
      not_and_or.mpr (hbad.imp Nat.not_le.mpr Memory.not_regions_iff.mpr)
    exact exec_share_of_check_error ((checkShare_of_ofId hid).trans ((if_pos hparams).trans (if_neg hregions)))

end Sys2Proof

/-! PROOFS. The family 45_lagrange_interpolator.md: the command LINTERP. -/

namespace Sys2Proof.Machine

theorem exec_linterp (s : State) : exec .linterp s = complete s (evalLinterp s) := rfl

/-- LINTERP tests the two regions, and then interpolates through the points they hold (R167). -/
theorem evalLinterp_eq (s : State) :
    evalLinterp s =
      if s.buf.region (wordOperand s 0) (wordOperand s 2) ∧ s.buf.region (wordOperand s 1) (wordOperand s 2) then
        (interp0 s.rom (s.buf.readBytes (wordOperand s 0) (wordOperand s 2))
          (s.buf.readBytes (wordOperand s 1) (wordOperand s 2))).map byteResult
      else .error .badAddress := by
  rw [evalLinterp, require_bind, require_bind, ite_and]
  rfl

/-- With valid regions the outcome of LINTERP is that of the interpolation (R167). -/
theorem exec_linterp_of_regions {s : State} {x : Except OpError Byte}
    (hu : s.buf.region (wordOperand s 0) (wordOperand s 2)) (hv : s.buf.region (wordOperand s 1) (wordOperand s 2))
    (hx : interp0 s.rom (s.buf.readBytes (wordOperand s 0) (wordOperand s 2))
      (s.buf.readBytes (wordOperand s 1) (wordOperand s 2)) = x) :
    exec .linterp s = complete s (x.map byteResult) := by
  rw [exec_linterp, evalLinterp_eq, if_pos ⟨hu, hv⟩, hx]

end Sys2Proof.Machine

namespace Sys2Proof

open Machine

/-- Settles O47, by the checks in order: regions, then coordinates. That these decide whether the interpolation has a value
is `interpolationFailsOnlyOnEqualCoordinates`, as both regions have `K` bytes. -/
theorem linterpResultAndChecks : Obligations.LinterpResultAndChecks := by
  have hlen (s : State) : (s.buf.readBytes s.args[0].toNat s.args[2].toNat).length =
      (s.buf.readBytes s.args[1].toNat s.args[2].toNat).length := by simp
  refine ⟨fun s hu hv hdistinct => ?_, fun s hu hv hequal => ?_, fun s hbad => ?_⟩
  · obtain ⟨-, hvalue, -⟩ := interpolationFailsOnlyOnEqualCoordinates s.rom _ _ (hlen s)
    obtain ⟨b, hb⟩ := hvalue hdistinct
    exact ⟨b, hb, (exec_linterp_of_regions hu hv hb).trans (complete_byteResult s b)⟩
  · obtain ⟨hfails, -, -⟩ := interpolationFailsOnlyOnEqualCoordinates s.rom _ _ (hlen s)
    exact exec_linterp_of_regions hu hv (hfails.mpr hequal)
  · have heval := (evalLinterp_eq s).trans (if_neg (Memory.not_regions_iff.mpr hbad))
    rw [exec_linterp, heval]
    rfl

end Sys2Proof

/-! PROOFS. The family 46_reconstruction_orchestrator.md: the lexicographic list of subsets, and the search by
successor. -/

namespace Sys2Proof.Machine

/-! ## The lexicographic list of subsets -/

/-- The same subsets as those of the library, which lists those without the first element first. -/
theorem lexSubsets_perm_sublistsLen (k : Nat) (l : List Nat) : (lexSubsets k l).Perm (l.sublistsLen k) := by
  fun_induction lexSubsets k l with
  | case1 => simp
  | case2 => simp
  | case3 k x xs ihwith ihwithout =>
    rw [List.sublistsLen_succ_cons]
    exact ((ihwith.map _).append ihwithout).trans List.perm_append_comm

theorem length_lexSubsets (k : Nat) (l : List Nat) : (lexSubsets k l).length = l.length.choose k :=
  (lexSubsets_perm_sublistsLen k l).length_eq.trans (List.length_sublistsLen k l)

theorem mem_lexSubsets {k : Nat} {l c : List Nat} : c ∈ lexSubsets k l ↔ c.Sublist l ∧ c.length = k :=
  (lexSubsets_perm_sublistsLen k l).mem_iff.trans List.mem_sublistsLen

/-- The sublists of the positions below `n` are the strictly ascending tuples of them. -/
theorem sublist_range_iff {n : Nat} {c : List Nat} :
    c.Sublist (List.range n) ↔ c.Pairwise (· < ·) ∧ ∀ x ∈ c, x < n := by
  constructor
  · intro h
    exact ⟨List.pairwise_lt_range.sublist h, fun x hx => List.mem_range.mp (h.subset hx)⟩
  · rintro ⟨hasc, hlt⟩
    have hsub := List.subperm_of_subset hasc.nodup fun x hx => List.mem_range.mpr (hlt x hx)
    exact List.sublist_of_subperm_of_pairwise hsub hasc List.pairwise_lt_range

theorem lt_of_mem_lexSubsets_range {k n : Nat} {c : List Nat} (hc : c ∈ lexSubsets k (List.range n)) :
    ∀ x ∈ c, x < n :=
  (sublist_range_iff.mp (mem_lexSubsets.mp hc).1).2

/-- Of an ascending list, the subsets with the first element come before those without it. -/
theorem pairwise_lex_lexSubsets (k : Nat) {l : List Nat} (hl : l.Pairwise (· < ·)) :
    (lexSubsets k l).Pairwise (List.Lex (· < ·)) := by
  fun_induction lexSubsets k l with
  | case1 => exact List.pairwise_singleton ..
  | case2 => exact .nil
  | case3 k x xs ihwith ihwithout =>
    obtain ⟨hx, hxs⟩ := List.pairwise_cons.mp hl
    refine List.pairwise_append.mpr ⟨(ihwith hxs).map _ fun _ _ => .cons, ihwithout hxs, ?_⟩
    intro _ hmap c' hc'
    obtain ⟨c, -, rfl⟩ := List.mem_map.mp hmap
    obtain ⟨hsub, hlen⟩ := mem_lexSubsets.mp hc'
    obtain ⟨y, ys, rfl⟩ := List.exists_cons_of_length_eq_add_one hlen
    exact .rel (hx y (hsub.subset List.mem_cons_self))

theorem lexSubsets_eq_nil {k : Nat} {l : List Nat} (h : l.length < k) : lexSubsets k l = [] :=
  List.length_eq_zero_iff.mp ((length_lexSubsets k l).trans (Nat.choose_eq_zero_of_lt h))

/-- The first subset is that of the first positions (R186). -/
theorem exists_lexSubsets_eq_cons {k : Nat} {l : List Nat} (h : k ≤ l.length) :
    ∃ cs, lexSubsets k l = l.take k :: cs := by
  fun_induction lexSubsets k l with
  | case1 => exact ⟨[], rfl⟩
  | case2 => cases h
  | case3 k x xs ihwith _ =>
    obtain ⟨cs, hcs⟩ := ihwith (Nat.le_of_succ_le_succ h)
    exact ⟨_, by rw [hcs]; rfl⟩

theorem exists_lexSubsets_range_eq_cons {t count : Nat} (h : t ≤ count) :
    ∃ cs, lexSubsets t (List.range count) = List.range t :: cs := by
  obtain ⟨cs, hcs⟩ := exists_lexSubsets_eq_cons (l := List.range count) (k := t) (by simpa using h)
  exact ⟨cs, by rw [hcs, List.take_range, Nat.min_eq_left h]⟩

/-! ## The successor -/

/-- Along a list of tuples `succ` leads from each to the next, and from the last to `after`. -/
def Enumerates (succ : List Nat → Option (List Nat)) (after : Option (List Nat)) : List (List Nat) → Prop
  | [] => True
  | c :: cs => succ c = cs.head?.or after ∧ Enumerates succ after cs

theorem Enumerates.append {succ : List Nat → Option (List Nat)} {after : Option (List Nat)} {l l' : List (List Nat)}
    (h : Enumerates succ (l'.head?.or after) l) (h' : Enumerates succ after l') : Enumerates succ after (l ++ l') := by
  induction l with
  | nil => exact h'
  | cons c cs ih =>
    obtain ⟨hc, hcs⟩ := h
    exact ⟨hc.trans (by rw [← Option.or_assoc, ← List.head?_append]; rfl), ih hcs⟩

/-- An element put before every tuple of an enumeration stays there until the last, after which `after` comes. -/
theorem Enumerates.map_cons {succ succ' : List Nat → Option (List Nat)} {after : Option (List Nat)} {x : Nat}
    {l : List (List Nat)} (h : Enumerates succ none l)
    (hsome : ∀ c c', succ c = some c' → succ' (x :: c) = some (x :: c'))
    (hnone : ∀ c ∈ l, succ c = none → succ' (x :: c) = after) : Enumerates succ' after (l.map (x :: ·)) := by
  induction l with
  | nil => trivial
  | cons c cs ih =>
    obtain ⟨hc, hcs⟩ := h
    refine ⟨?_, ih hcs fun c' hc' => hnone c' (List.mem_cons_of_mem _ hc')⟩
    cases cs with
    | nil => exact hnone c List.mem_cons_self hc
    | cons c' cs => exact hsome c c' hc

/-- An entry stays while the entries after it have a successor (R187). -/
theorem successorFrom_cons_of_some {count t m x : Nat} {c c' : List Nat}
    (h : successorFrom count t (m + 1) c = some c') : successorFrom count t m (x :: c) = some (x :: c') := by
  rw [successorFrom, h]

/-- When the entries after it are at their maxima, an entry is incremented, unless it is at its own (R187). -/
theorem successorFrom_cons_of_none {count t m x : Nat} {c : List Nat} (h : successorFrom count t (m + 1) c = none) :
    successorFrom count t m (x :: c) =
      if x = count - t + m then none else some (List.range' (x + 1) (c.length + 1)) := by
  rw [successorFrom, h]

/-- `successor` enumerates the ways to choose the entries of a tuple from position `m` on among the positions from `a`
on: first those that begin with `a`, and from the last of them, whose other entries are at their maxima, it goes to
`a + 1, a + 2, …` (R187). -/
theorem enumerates_lexSubsets {count t : Nat} (ht : t ≤ count) (n : Nat) {m k a : Nat} (hmk : m + k = t)
    (han : a + n = count) : Enumerates (successorFrom count t m) none (lexSubsets k (List.range' a n)) := by
  induction n generalizing m k a with
  | zero =>
    cases k with
    | zero => exact ⟨rfl, trivial⟩
    | succ k => trivial
  | succ n ih =>
    cases k with
    | zero => exact ⟨rfl, trivial⟩
    | succ k =>
      rw [List.range'_succ, lexSubsets]
      refine Enumerates.append ?_ (ih hmk (by omega))
      refine (ih (m := m + 1) (by omega) (by omega)).map_cons (fun _ _ => successorFrom_cons_of_some) ?_
      intro c hc hlast
      obtain ⟨hsub, hlen⟩ := mem_lexSubsets.mp hc
      have hkn : k ≤ n := by simpa [hlen] using hsub.length_le
      rw [successorFrom_cons_of_none hlast, Option.or_none, hlen]
      by_cases hmax : a = count - t + m
      · rw [if_pos hmax, lexSubsets_eq_nil (by rw [List.length_range']; omega)]
        rfl
      · have hle : k + 1 ≤ (List.range' (a + 1) n).length := by rw [List.length_range']; omega
        obtain ⟨cs, hcs⟩ := exists_lexSubsets_eq_cons hle
        rw [if_neg hmax, hcs, List.take_range'_of_length_ge (by omega)]
        rfl

/-! ## The search -/

/-- A search along an enumeration that ends is the search over its list, when the bound is no smaller than the list. -/
theorem searchFrom_eq_searchList {count t : Nat} (examineAt : List Nat → Except OpError Verdict) (lenient : Bool)
    {c : List Nat} {cs : List (List Nat)} (h : Enumerates (successor count t) none (c :: cs)) {fuel : Nat}
    (hfuel : (c :: cs).length ≤ fuel) :
    searchFrom examineAt lenient count t fuel c = searchList examineAt lenient (c :: cs) := by
  induction cs generalizing c fuel with
  | nil =>
    obtain ⟨hc, -⟩ := h
    cases fuel with
    | zero => cases hfuel
    | succ fuel =>
      simp only [searchFrom, searchList, hc]
      rfl
  | cons c' cs ih =>
    obtain ⟨hc, hcs⟩ := h
    cases fuel with
    | zero => cases hfuel
    | succ fuel =>
      have hrest := ih hcs (Nat.le_of_succ_le_succ hfuel)
      rw [searchFrom, searchList, hc]
      refine bind_congr fun v => ?_
      cases settles lenient v with
      | some r => rfl
      | none => exact hrest

end Sys2Proof.Machine

namespace Sys2Proof

open Machine

/-- Settles O53: the list has the library's subsets, and those with the first position come first. -/
theorem subsetListIsLexicographic : Obligations.SubsetListIsLexicographic := by
  intro k n
  refine ⟨by rw [length_lexSubsets, List.length_range], fun c => ?_, pairwise_lex_lexSubsets k List.pairwise_lt_range⟩
  rw [mem_lexSubsets, sublist_range_iff, and_comm]

/-- Settles O54: `successor` enumerates the list from the first subset on, and C(S, T) is at most S^T. -/
theorem searchFollowsLexicographicOrder : Obligations.SearchFollowsLexicographicOrder := by
  intro examineAt lenient count t _ ht
  have henum := enumerates_lexSubsets ht count (m := 0) (a := 0) (Nat.zero_add t) (Nat.zero_add count)
  have hbound : (lexSubsets t (List.range count)).length ≤ count ^ t := by
    rw [length_lexSubsets, List.length_range]
    exact Nat.choose_le_pow count t
  obtain ⟨cs, hcs⟩ := exists_lexSubsets_range_eq_cons ht
  rw [← List.range_eq_range', hcs] at henum
  rw [hcs] at hbound ⊢
  exact searchFrom_eq_searchList examineAt lenient henum hbound

end Sys2Proof

/-! PROOFS. The family 46_reconstruction_orchestrator.md, continued: the examination of a subset, and the search
over a list of subsets. -/

namespace Sys2Proof.Machine

/-! ## The candidate of a subset -/

/-- The byte interpolated from byte `p` of every payload, the index bytes being the x-coordinates (R189). -/
def interpolatedByte (t : Rom) (pays : List (List Byte)) (p : Nat) : Byte :=
  interpByte t (column pays 0) 0 ((column pays 0).zip (column pays p)).zipIdx

/-- The candidate's bytes: those interpolated from payload bytes 1 to SL − 1 (R189). -/
def candidateBytes (t : Rom) (pays : List (List Byte)) (sl : Nat) : List Byte :=
  (List.range' 1 (sl - 1)).map (interpolatedByte t pays)

@[simp] theorem length_candidateBytes (t : Rom) (pays : List (List Byte)) (sl : Nat) :
    (candidateBytes t pays sl).length = sl - 1 := by
  simp [candidateBytes]

theorem getD_candidateBytes (t : Rom) (pays : List (List Byte)) {sl p : Nat} (hp : p < sl - 1) :
    (candidateBytes t pays sl).getD p 0 = interpolatedByte t pays (p + 1) := by
  simp [candidateBytes, List.getD_eq_getElem?_getD, hp, Nat.add_comm 1 p]

section

variable {t : Rom} {pays : List (List Byte)}

theorem interp0_column (h : (column pays 0).Nodup) (p : Nat) :
    interp0 t (column pays 0) (column pays p) = .ok (interpolatedByte t pays p) :=
  (interp0_eq t (by simp [column])).trans (if_pos h)

theorem candidateFrom_of_nodup (h : (column pays 0).Nodup) (ps : List Nat) :
    candidateFrom t pays ps = .ok (ps.map (interpolatedByte t pays)) := by
  induction ps with
  | nil => rfl
  | cons p ps ih =>
    rw [candidateFrom, interp0_column h, ih]
    rfl

/-- Distinct index bytes give a candidate, which is verified (R188 to R192). -/
theorem examine_of_nodup (u : DigestUnit) (h : HashAlg) (sl : Nat) (hd : (column pays 0).Nodup) :
    examine t u h sl pays = .ok (verify u h (candidateBytes t pays sl)) := by
  rw [examine, if_pos hd, candidate, candidateFrom_of_nodup hd]
  rfl

/-- Equal index bytes end the examination (R188). -/
theorem examine_of_not_nodup (u : DigestUnit) (h : HashAlg) (sl : Nat) (hd : ¬(column pays 0).Nodup) :
    examine t u h sl pays = .ok .duplicate :=
  if_neg hd

/-- An examination raises nothing itself. -/
theorem exists_examine_eq_ok (t : Rom) (u : DigestUnit) (h : HashAlg) (sl : Nat) (pays : List (List Byte)) :
    ∃ v, examine t u h sl pays = .ok v := by
  by_cases hd : (column pays 0).Nodup
  · exact ⟨_, examine_of_nodup u h sl hd⟩
  · exact ⟨_, examine_of_not_nodup u h sl hd⟩

end

/-! ## Verification -/

theorem verify_noHash (u : DigestUnit) (cand : List Byte) : verify u .noHash cand = .accept cand := rfl

/-- With a hash the last `dlen` bytes of the candidate are compared with the digest of the rest (R191, R192). -/
theorem verify_of_ne_noHash (u : DigestUnit) {h : HashAlg} (hne : h ≠ .noHash) (cand : List Byte) :
    verify u h cand =
      if h.dlen ≤ cand.length ∧
          digest u h (cand.take (cand.length - h.dlen)) = cand.drop (cand.length - h.dlen) then
        .accept (cand.take (cand.length - h.dlen))
      else .mismatch := by
  cases h with
  | noHash => exact absurd rfl hne
  | sha1 => rfl
  | sha256 => rfl

/-- A result followed by its digest is accepted (R192). -/
theorem verify_append_digest (u : DigestUnit) (h : HashAlg) (r : List Byte) :
    verify u h (r ++ digest u h r) = .accept r := by
  by_cases hne : h = .noHash
  · subst hne
    exact (verify_noHash u _).trans (congrArg Verdict.accept (List.append_nil r))
  · have hlen : (r ++ digest u h r).length - h.dlen = r.length := by simp
    rw [verify_of_ne_noHash u hne, hlen, List.take_left, List.drop_left, if_pos ⟨by simp, rfl⟩]

/-- A candidate that is no byte sequence followed by that sequence's digest fails (R192). -/
theorem verify_eq_mismatch {u : DigestUnit} {h : HashAlg} {cand : List Byte} (hno : ∀ r, cand ≠ r ++ digest u h r) :
    verify u h cand = .mismatch := by
  by_cases hne : h = .noHash
  · subst hne
    exact absurd (List.append_nil cand).symm (hno cand)
  · rw [verify_of_ne_noHash u hne, if_neg]
    rintro ⟨-, hdigest⟩
    exact hno _ (by rw [hdigest, List.take_append_drop])

/-! ## The search over a list of subsets -/

/-- A list around one of its elements. -/
theorem eq_take_append_cons_drop {α : Type} {l : List α} {k : Nat} {a : α} (h : l[k]? = some a) :
    l = l.take k ++ a :: l.drop (k + 1) := by
  obtain ⟨hk, rfl⟩ := List.getElem?_eq_some_iff.mp h
  rw [List.getElem_cons_drop, List.take_append_drop]

section

variable {examineAt : List Nat → Except OpError Verdict} {lenient : Bool} {c : List Nat} {cs : List (List Nat)}
  {v : Verdict}

/-- A finding that settles the matter ends the search (R193, R194). -/
theorem searchList_cons_of_settles {r : Except OpError (List Byte)} (hv : examineAt c = .ok v)
    (hr : settles lenient v = some r) : searchList examineAt lenient (c :: cs) = r := by
  simp only [searchList, hv, ok_bind, hr]

/-- The subsets whose finding does not settle the matter are skipped (R194). -/
theorem searchList_append_of_skipped {l l' : List (List Nat)}
    (h : ∀ c ∈ l, ∃ v, examineAt c = .ok v ∧ settles lenient v = none) :
    searchList examineAt lenient (l ++ l') = searchList examineAt lenient l' := by
  induction l with
  | nil => rfl
  | cons c l ih =>
    obtain ⟨v, hv, hnone⟩ := h c List.mem_cons_self
    simp only [List.cons_append, searchList, hv, ok_bind, hnone]
    exact ih fun c' hc' => h c' (List.mem_cons_of_mem c hc')

/-- The first subset in the list whose finding settles the matter ends the search (R194). -/
theorem searchList_of_skipped_before {l : List (List Nat)} {k : Nat} {r : Except OpError (List Byte)}
    (hk : l[k]? = some c)
    (hbefore : ∀ j c', j < k → l[j]? = some c' → ∃ v, examineAt c' = .ok v ∧ settles lenient v = none)
    (hv : examineAt c = .ok v) (hr : settles lenient v = some r) : searchList examineAt lenient l = r := by
  rw [eq_take_append_cons_drop hk, searchList_append_of_skipped]
  · exact searchList_cons_of_settles hv hr
  · intro c' hc'
    obtain ⟨j, hj, hget⟩ := List.mem_take_iff_getElem.mp hc'
    obtain ⟨hjk, hjl⟩ := Nat.lt_min.mp hj
    exact hbefore j c' hjk (List.getElem?_eq_some_iff.mpr ⟨hjl, hget⟩)

theorem searchList_congr {examineAt' : List Nat → Except OpError Verdict} {l : List (List Nat)}
    (h : ∀ c ∈ l, examineAt c = examineAt' c) : searchList examineAt lenient l = searchList examineAt' lenient l := by
  induction l with
  | nil => rfl
  | cons c l ih =>
    simp only [searchList, h c List.mem_cons_self, ih fun c' hc' => h c' (List.mem_cons_of_mem c hc')]

end

/-- Every finding settles the matter in strict mode (R193), and never with ReconstructionFailed. -/
theorem exists_settles_strict (v : Verdict) : ∃ r, settles false v = some r ∧ r ≠ .error .reconstructionFailed := by
  cases v with
  | accept r => exact ⟨.ok r, rfl, nofun⟩
  | duplicate => exact ⟨.error .duplicateIndex, rfl, nofun⟩
  | mismatch => exact ⟨.error .hashMismatch, rfl, nofun⟩

section

variable {rom : Rom} {u : DigestUnit} {h : HashAlg} {t sl : Nat} {pays : List (List Byte)}

/-- The search of RECONSTRUCT is that over the lexicographic list (R186, R187). -/
theorem search_eq_searchList (lenient : Bool) (hne : pays ≠ []) (ht : t ≤ pays.length) :
    search rom u h lenient t sl pays =
      searchList (fun c => examine rom u h sl (selected pays c)) lenient (lexSubsets t (List.range pays.length)) :=
  searchFollowsLexicographicOrder _ lenient pays.length t (List.length_pos_iff.mpr hne) ht

theorem selected_range (ht : t ≤ pays.length) : selected pays (List.range t) = pays.take t := by
  refine List.ext_getElem (by simpa [selected] using ht) fun i hi hi' => ?_
  have hit : i < t := by simpa [selected] using hi
  simp [selected, hit.trans_le ht]

/-- When the finding on the first `T` shares settles the matter, no other subset is examined (R193). -/
theorem search_of_first_settles {lenient : Bool} {v : Verdict} {r : Except OpError (List Byte)} (hne : pays ≠ [])
    (ht : t ≤ pays.length) (hv : examine rom u h sl (pays.take t) = .ok v) (hr : settles lenient v = some r) :
    search rom u h lenient t sl pays = r := by
  obtain ⟨cs, hcs⟩ := exists_lexSubsets_range_eq_cons ht
  rw [search_eq_searchList lenient hne ht, hcs]
  exact searchList_cons_of_settles (by rw [selected_range ht, hv]) hr

end

end Sys2Proof.Machine

namespace Sys2Proof

open Machine

/-- Settles O55: in strict mode every finding settles the matter, the first subset is that of the first T shares, and an
examination is the test for duplicates, then interpolation, then verification. -/
theorem strictModeExaminesFirstSubsetOnly : Obligations.StrictModeExaminesFirstSubsetOnly := by
  constructor
  · intro rom u h t sl pays hne ht
    obtain ⟨v, hv⟩ := exists_examine_eq_ok rom u h sl (pays.take t)
    obtain ⟨r, hr, hfailed⟩ := exists_settles_strict v
    refine ⟨fun r hv => search_of_first_settles hne ht hv rfl, fun hv => search_of_first_settles hne ht hv rfl,
      fun hv => search_of_first_settles hne ht hv rfl, ?_, v, hv⟩
    rwa [search_of_first_settles hne ht hv hr]
  · intro rom u h sl pays
    refine ⟨examine_of_not_nodup u h sl, fun hd => ⟨candidateBytes rom pays sl, length_candidateBytes .., ?_, ?_, ?_⟩⟩
    · intro p hp
      rw [getD_candidateBytes rom pays hp]
      exact interp0_column hd (p + 1)
    · intro r hr
      rw [examine_of_nodup u h sl hd, hr, verify_append_digest]
    · intro hno
      rw [examine_of_nodup u h sl hd, verify_eq_mismatch hno]

end Sys2Proof

/-! PROOFS. The family 46_reconstruction_orchestrator.md, continued: the validation pass. -/

namespace Sys2Proof.Machine

/-! ## The shares of the input -/

/-- The payload of share `i`, SL bytes (R183). -/
def payloadBytes (s : State) (i : Nat) : List Byte := s.buf.readBytes (shareAddr s i + 20) (refShareLen s)

/-- The 20 bytes of the reference header (R183). -/
def refHeaderBytes (s : State) : List Byte := s.buf.readBytes (shareAddr s 0) 20

/-- The reference header decoded (R183). -/
def refHeader (s : State) : Header :=
  ⟨s.buf.readBytes (shareAddr s 0) 16, s.buf.read (shareAddr s 0 + 16), s.buf.read (shareAddr s 0 + 17), refShareLen s⟩

/-- Two bytes as one number (R51). -/
theorem Memory.readNat_two (m : Memory) (a : Nat) :
    m.readNat a 2 = 256 * (m.read a).toNat + (m.read (a + 1)).toNat := by
  simp [Memory.readNat, Memory.readBytes, bigEndian, List.range_succ]

theorem decodeHeader_refHeaderBytes (s : State) : decodeHeader (refHeaderBytes s) = .ok (refHeader s) := by
  rw [refHeaderBytes, Memory.decodeHeader_readBytes, refHeader, refShareLen, Memory.readNat_two]

/-! ## The pass reports the first defect -/

/-- What a check that finds the defect `d`, if any, answers in front of `a`. -/
def unlessDefect {α : Type} (d : Option OpError) (a : α) : Except OpError α :=
  match d with
  | some e => .error e
  | none => .ok a

@[simp] theorem unlessDefect_some {α : Type} (e : OpError) (a : α) : unlessDefect (some e) a = .error e := rfl

@[simp] theorem unlessDefect_none {α : Type} (a : α) : unlessDefect none a = .ok a := rfl

/-- Mapping the answer of a check that found no defect. -/
theorem unlessDefect_bind_pure {α β : Type} (d : Option OpError) (a : α) (f : α → β) :
    (unlessDefect d a >>= fun a => pure (f a)) = unlessDefect d (f a) := by
  cases d <;> rfl

theorem unlessDefect_ite {α : Type} (p : Prop) [Decidable p] (e : OpError) (d : Option OpError) (a : α) :
    unlessDefect (if p then some e else d) a = if p then .error e else unlessDefect d a := by
  by_cases h : p <;> simp [h]

/-- A share without a defect passes every test (R183). -/
theorem shareDefect_eq_none_iff {s : State} {i : Nat} :
    shareDefect s i = none ↔
      20 ≤ shareLen s i ∧ s.buf.region (shareAddr s i) (shareLen s i) ∧ (i = 0 → refThreshold s ≤ wordOperand s 1) ∧
        s.buf.readBytes (shareAddr s i) 20 = refHeaderBytes s ∧ shareLen s i - 20 = refShareLen s := by
  have hite (p : Prop) [Decidable p] (e : OpError) (d : Option OpError) :
      (if p then some e else d) = none ↔ ¬p ∧ d = none := by
    by_cases hp : p <;> simp [hp]
  simp only [shareDefect, hite, not_lt, not_not, ne_eq, not_and, and_true, refHeaderBytes]

/-- A check in front of a sequence, with its failure first. -/
theorem require_bind_eq_of_not {α : Type} {p q : Prop} [Decidable p] [Decidable q] (hpq : ¬p ↔ q) (e : OpError)
    (f : Unit → Except OpError α) : (require p e >>= f) = if q then .error e else f () := by
  rw [require_bind]
  by_cases h : p
  · rw [if_pos h, if_neg fun hq => hpq.mpr hq h]
  · rw [if_neg h, if_pos (hpq.mp h)]

theorem checkShareRegion_bind {α : Type} (m : Memory) (d : Nat × Nat) (f : Unit → Except OpError α) :
    (checkShareRegion m d >>= f) =
      if d.2 < 20 then .error .malformedShare else if ¬m.region d.1 d.2 then .error .badAddress else f () := by
  rw [checkShareRegion, bind_assoc, require_bind_eq_of_not Nat.not_le, require_bind_eq_of_not Iff.rfl]

theorem sharePayload_eq (m : Memory) (d : Nat × Nat) (sl : Nat) :
    sharePayload m d sl =
      unlessDefect (if d.2 - 20 ≠ sl then some .malformedShare else none) (m.readBytes (d.1 + 20) sl) := by
  rw [unlessDefect_ite]
  exact require_bind_eq_of_not Iff.rfl _ _

/-- Share `i` after the first has the answer of its tests in order (R183). -/
theorem laterShare_eq (s : State) {i : Nat} (hi : i ≠ 0) :
    laterShare s.buf (refHeaderBytes s) (refShareLen s) (descriptor s.buf (wordOperand s 0) i) =
      unlessDefect (shareDefect s i) (payloadBytes s i) := by
  have hlater : ¬(i = 0 ∧ wordOperand s 1 < refThreshold s) := fun h => hi h.1
  rw [laterShare, checkShareRegion_bind, require_bind_eq_of_not Iff.rfl, sharePayload_eq, shareDefect, if_neg hlater]
  simp only [unlessDefect_ite]
  rfl

/-- Share 0 has the answer of its tests in order, and its header becomes the reference (R183). -/
theorem firstShare_eq (s : State) :
    firstShare s.buf (wordOperand s 1) (descriptor s.buf (wordOperand s 0) 0) =
      unlessDefect (shareDefect s 0) (refHeader s, payloadBytes s 0) := by
  have hheader : decodeHeader (s.buf.readBytes (descriptor s.buf (wordOperand s 0) 0).1 20) = .ok (refHeader s) :=
    decodeHeader_refHeaderBytes s
  have hthreshold : ¬(refHeader s).threshold.toNat ≤ wordOperand s 1 ↔ 0 = 0 ∧ wordOperand s 1 < refThreshold s := by
    rw [Nat.not_le]
    exact (and_iff_right rfl).symm
  rw [firstShare, checkShareRegion_bind, hheader, ok_bind, require_bind_eq_of_not hthreshold, sharePayload_eq,
    unlessDefect_bind_pure, shareDefect, if_neg (not_not_intro rfl)]
  simp only [unlessDefect_ite]
  rfl

/-- The pass on later shares answers the first defect among them (R183). -/
theorem laterShares_eq (s : State) {l : List Nat} (hl : ∀ i ∈ l, i ≠ 0) :
    laterShares s.buf (refHeaderBytes s) (refShareLen s) (l.map (descriptor s.buf (wordOperand s 0))) =
      unlessDefect (l.findSome? (shareDefect s)) (l.map (payloadBytes s)) := by
  induction l with
  | nil => rfl
  | cons i l ih =>
    rw [List.map_cons, laterShares, laterShare_eq s (hl i List.mem_cons_self),
      ih fun j hj => hl j (List.mem_cons_of_mem i hj), List.findSome?_cons]
    cases shareDefect s i with
    | some e => rfl
    | none => exact unlessDefect_bind_pure ..

/-- The validation pass answers the first defect of a share, and without one the reference header and the payloads
(R183). -/
theorem validateShares_eq {s : State} (h : wordOperand s 1 ≠ 0) :
    validateShares s.buf (wordOperand s 0) (wordOperand s 1) =
      unlessDefect ((List.range (wordOperand s 1)).findSome? (shareDefect s))
        (refHeader s, (List.range (wordOperand s 1)).map (payloadBytes s)) := by
  obtain ⟨n, hn⟩ := Nat.exists_eq_succ_of_ne_zero h
  have hrange : List.range (wordOperand s 1) = 0 :: List.range' 1 n := by
    rw [List.range_eq_range', hn, List.range'_succ]
  have hlater : ∀ i ∈ List.range' 1 n, i ≠ 0 := fun i hi => Nat.one_le_iff_ne_zero.mp (List.left_le_of_mem_range' hi)
  rw [validateShares, hrange, List.map_cons, List.findSome?_cons]
  simp only [firstShare_eq]
  cases shareDefect s 0 with
  | some e => rfl
  | none =>
    simp only [unlessDefect_none, ok_bind]
    exact (congrArg (· >>= _) (laterShares_eq s hlater)).trans (unlessDefect_bind_pure ..)

/-- The first defect of a share, when the shares before it have none (R183). -/
theorem findSome?_shareDefect {s : State} {n i : Nat} {e : OpError} (hi : i < n)
    (hbefore : ∀ j, j < i → shareDefect s j = none) (he : shareDefect s i = some e) :
    (List.range n).findSome? (shareDefect s) = some e := by
  have hsplit := eq_take_append_cons_drop (List.getElem?_range hi)
  refine List.findSome?_eq_some_iff.mpr ⟨_, i, _, hsplit, he, fun j hj => hbefore j ?_⟩
  rw [List.take_range, List.mem_range] at hj
  exact hj.trans_le (Nat.min_le_left i n)

theorem validateShares_of_firstDefect {s : State} (hshares : wordOperand s 1 ≠ 0) {i : Nat} {e : OpError}
    (hi : i < wordOperand s 1) (hbefore : ∀ j, j < i → shareDefect s j = none) (he : shareDefect s i = some e) :
    validateShares s.buf (wordOperand s 0) (wordOperand s 1) = .error e := by
  rw [validateShares_eq hshares, findSome?_shareDefect hi hbefore he, unlessDefect_some]

theorem validateShares_of_noDefect {s : State} (hshares : wordOperand s 1 ≠ 0)
    (h : ∀ i, i < wordOperand s 1 → shareDefect s i = none) :
    validateShares s.buf (wordOperand s 0) (wordOperand s 1) =
      .ok (refHeader s, (List.range (wordOperand s 1)).map (payloadBytes s)) := by
  have hnone : (List.range (wordOperand s 1)).findSome? (shareDefect s) = none :=
    List.findSome?_eq_none_iff.mpr fun i hi => h i (List.mem_range.mp hi)
  rw [validateShares_eq hshares, hnone, unlessDefect_none]

end Sys2Proof.Machine

/-! PROOFS. The family 46_reconstruction_orchestrator.md, continued: the command RECONSTRUCT. -/

namespace Sys2Proof.Machine

/-! ## The checks of RECONSTRUCT -/

theorem exec_reconstruct (lenient : Bool) (s : State) :
    exec (.reconstruct lenient) s = complete s (evalReconstruct lenient s) := rfl

/-- RECONSTRUCT's operands, BUF and the parameters decide what it evaluates to (R199). -/
theorem evalReconstruct_congr (lenient : Bool) {s s' : State} (h0 : s.args[0] = s'.args[0])
    (h1 : s.args[1] = s'.args[1]) (h2 : s.args[2] = s'.args[2]) (hbuf : s.buf = s'.buf) (hrom : s.rom = s'.rom)
    (hunit : s.digestUnit = s'.digestUnit) : evalReconstruct lenient s = evalReconstruct lenient s' := by
  have hw0 : wordOperand s 0 = wordOperand s' 0 := congrArg BitVec.toNat h0
  have hw1 : wordOperand s 1 = wordOperand s' 1 := congrArg BitVec.toNat h1
  have hw2 : wordOperand s 2 = wordOperand s' 2 := congrArg BitVec.toNat h2
  simp only [evalReconstruct, hw0, hw1, hw2, hbuf, hrom, hunit]

section

variable {s : State}

/-- The search of RECONSTRUCT over the payloads of its input (R186). -/
def reconstructSearch (lenient : Bool) (s : State) (h : HashAlg) : Except OpError (List Byte) :=
  search s.rom s.digestUnit h lenient (refThreshold s) (refShareLen s)
    ((List.range (wordOperand s 1)).map (payloadBytes s))

theorem wordOperand_ne_zero {k : Fin 8} (h : s.arg k ≠ 0) : wordOperand s k ≠ 0 :=
  fun hz => h (BitVec.eq_of_toNat_eq hz)

theorem evalReconstruct_of_noShares (lenient : Bool) (h : wordOperand s 1 = 0) :
    evalReconstruct lenient s = .error .insufficientShares := by
  rw [evalReconstruct, require_bind, if_neg (not_not_intro h)]

theorem evalReconstruct_of_table_outside (lenient : Bool) (hshares : wordOperand s 1 ≠ 0)
    (h : ¬s.buf.region (wordOperand s 0) (8 * wordOperand s 1)) :
    evalReconstruct lenient s = .error .badAddress := by
  rw [evalReconstruct, require_bind, if_pos hshares, require_bind, if_neg h]

/-- After the checks on the table comes the validation pass (R182, R183). -/
theorem evalReconstruct_of_pass_error (lenient : Bool) (hshares : wordOperand s 1 ≠ 0)
    (htable : s.buf.region (wordOperand s 0) (8 * wordOperand s 1)) {e : OpError}
    (h : validateShares s.buf (wordOperand s 0) (wordOperand s 1) = .error e) :
    evalReconstruct lenient s = .error e := by
  rw [evalReconstruct, require_bind, if_pos hshares, require_bind, if_pos htable, h]
  rfl

/-- What RECONSTRUCT does after the pass: it finds the algorithm, searches, and tests the result's region (R185, R197,
R201). -/
def searchAndWrite (lenient : Bool) (s : State) : Except OpError Effects :=
  match HashAlg.ofId (refHash s) with
  | none => .error .unsupportedHashAlgorithm
  | some h =>
    reconstructSearch lenient s h >>= fun r =>
      if s.buf.region (wordOperand s 2) r.length then .ok ⟨[(wordOperand s 2, r)], [(0, BitVec.ofNat 32 r.length)]⟩
      else .error .badAddress

/-- When the pass finds no defect the payload length is tested, and then the search is made (R184, R185). -/
theorem evalReconstruct_of_noDefect (lenient : Bool) (hshares : wordOperand s 1 ≠ 0)
    (htable : s.buf.region (wordOperand s 0) (8 * wordOperand s 1))
    (hpass : ∀ i, i < wordOperand s 1 → shareDefect s i = none) :
    evalReconstruct lenient s = if refShareLen s ≠ 0 then searchAndWrite lenient s else .error .malformedShare := by
  rw [evalReconstruct, require_bind, if_pos hshares, require_bind, if_pos htable,
    validateShares_of_noDefect hshares hpass, ok_bind]
  simp only [require_bind]
  rfl

/-- On valid input RECONSTRUCT ends with UnsupportedHashAlgorithm for an unknown hash id (R185). -/
theorem evalReconstruct_of_unknownHash (lenient : Bool) (hs : InputValid s) (hid : HashAlg.ofId (refHash s) = none) :
    evalReconstruct lenient s = .error .unsupportedHashAlgorithm := by
  rw [evalReconstruct_of_noDefect lenient hs.someShares hs.table hs.noDefect, if_pos hs.notEmpty, searchAndWrite, hid]

/-- On valid input with a known hash id RECONSTRUCT searches, and then tests the region of the result (R197, R201). -/
theorem evalReconstruct_of_hash (lenient : Bool) (hs : InputValid s) {h : HashAlg}
    (hid : HashAlg.ofId (refHash s) = some h) :
    evalReconstruct lenient s =
      reconstructSearch lenient s h >>= fun r =>
        if s.buf.region (wordOperand s 2) r.length then
          .ok ⟨[(wordOperand s 2, r)], [(0, BitVec.ofNat 32 r.length)]⟩
        else .error .badAddress := by
  rw [evalReconstruct_of_noDefect lenient hs.someShares hs.table hs.noDefect, if_pos hs.notEmpty, searchAndWrite, hid]

end

end Sys2Proof.Machine

namespace Sys2Proof

open Machine

/-- Settles O50, by the checks in order: the count, then the table's region. -/
theorem reconstructNeedsSharesAndTable : Obligations.ReconstructNeedsSharesAndTable := by
  constructor
  · intro lenient s hnone
    rw [exec_reconstruct, evalReconstruct_of_noShares lenient (congrArg BitVec.toNat hnone)]
    rfl
  · intro lenient s hne hout
    have heval := evalReconstruct_of_table_outside lenient (wordOperand_ne_zero (k := 1) hne) (Nat.not_le.mpr hout)
    rw [exec_reconstruct, heval]
    rfl

/-- Settles O51: the pass answers the first defect of the shares in order. -/
theorem validationReportsFirstDefect : Obligations.ValidationReportsFirstDefect := by
  intro lenient s i e hne htable hi hbefore he
  have hshares := wordOperand_ne_zero (k := 1) hne
  have hpass := validateShares_of_firstDefect hshares hi hbefore he
  rw [exec_reconstruct, evalReconstruct_of_pass_error lenient hshares htable hpass]
  rfl

/-- Settles O52, by the tests after a pass that found no defect: the payload length, then the hash id. -/
theorem emptyPayloadAndUnknownHash : Obligations.EmptyPayloadAndUnknownHash := by
  constructor
  · intro lenient s hne htable hpass hempty
    have heval := evalReconstruct_of_noDefect lenient (wordOperand_ne_zero (k := 1) hne) htable hpass
    rw [exec_reconstruct, heval, if_neg (not_not_intro hempty)]
    rfl
  · intro lenient s hs hunknown
    rw [exec_reconstruct, evalReconstruct_of_unknownHash lenient hs (HashAlg.ofId_of_two_lt hunknown)]
    rfl

/-- Settles O57: what RECONSTRUCT evaluates to is a function of these fields, and completion writes no more than
that. -/
theorem reconstructIsDeterministic : Obligations.ReconstructIsDeterministic := by
  intro lenient s s' t t' h0 h1 h2 hbuf hrom hunit ht ht'
  have hrng := exec_rng ht
  rw [exec_reconstruct, evalReconstruct_congr lenient h0 h1 h2 hbuf hrom hunit] at ht
  rw [exec_reconstruct] at ht'
  obtain ⟨fx, hfx, rfl⟩ | ⟨e, he, rfl⟩ := complete_eq_next ht
  · obtain ⟨r, -, rfl⟩ := evalReconstruct_eq_ok hfx
    obtain rfl := Host.Outcome.next.inj (ht'.symm.trans (congrArg (complete s') hfx))
    refine ⟨rfl, ?_, fun _ => ?_, hrng⟩
    · rw [State.completeOk_buf, State.completeOk_buf, hbuf]
    · rw [State.completeOk_res, State.completeOk_res, getElem_zero_writeResults, getElem_zero_writeResults]
  · obtain rfl := Host.Outcome.next.inj (ht'.symm.trans (congrArg (complete s') he))
    exact ⟨rfl, hbuf, fun hok => absurd hok e.code_ne_okCode, hrng⟩

end Sys2Proof

/-! PROOFS. The family 46_reconstruction_orchestrator.md, continued: the search of RECONSTRUCT, and its outcomes. -/

namespace Sys2Proof.Machine

/-! ## The three kinds of subsets -/

section

variable {s : State} {h : HashAlg} {c : List Nat}

/-- What examining the shares at the positions of a subset finds (R188 to R192). -/
def subsetFinding (s : State) (h : HashAlg) (c : List Nat) : Except OpError Verdict :=
  examine s.rom s.digestUnit h (refShareLen s) (c.map (payloadBytes s))

theorem getD_payloadBytes (s : State) (i : Nat) {p : Nat} (hp : p < refShareLen s) :
    (payloadBytes s i).getD p 0 = payloadByte s i p := by
  simp [payloadBytes, payloadByte, Memory.readBytes, List.getD_eq_getElem?_getD, hp]

theorem column_payloadBytes (s : State) (c : List Nat) {p : Nat} (hp : p < refShareLen s) :
    column (c.map (payloadBytes s)) p = c.map fun i => payloadByte s i p := by
  rw [column, List.map_map]
  exact List.map_congr_left fun i _ => getD_payloadBytes s i hp

theorem column_zero_payloadBytes (c : List Nat) (hsl : refShareLen s ≠ 0) :
    column (c.map (payloadBytes s)) 0 = indexBytes s c :=
  column_payloadBytes s c (Nat.pos_of_ne_zero hsl)

/-- The interpolated bytes are the candidate of a subset with distinct index bytes (R189, R190). -/
theorem isCandidate_candidateBytes (hsl : refShareLen s ≠ 0) (hd : (indexBytes s c).Nodup) :
    IsCandidate s c (candidateBytes s.rom (c.map (payloadBytes s)) (refShareLen s)) where
  size := length_candidateBytes ..
  interpolated p hp := by
    have hcol := column_zero_payloadBytes c hsl
    rw [getD_candidateBytes _ _ hp, ← hcol, ← column_payloadBytes s c (Nat.add_lt_of_lt_sub hp)]
    exact interp0_column (hcol ▸ hd) (p + 1)

/-- A subset has one candidate. -/
theorem IsCandidate.unique {cand cand' : List Byte} (hc : IsCandidate s c cand) (hc' : IsCandidate s c cand') :
    cand = cand' := by
  refine List.ext_getElem (hc.size.trans hc'.size.symm) fun p hp hp' => ?_
  have hps : p < refShareLen s - 1 := hp.trans_eq hc.size
  have heq := (hc.interpolated p hps).symm.trans (hc'.interpolated p hps)
  simpa [hp, hp'] using heq

theorem subsetFinding_of_not_nodup (hsl : refShareLen s ≠ 0) (hd : ¬(indexBytes s c).Nodup) :
    subsetFinding s h c = .ok .duplicate :=
  examine_of_not_nodup _ h _ (column_zero_payloadBytes c hsl ▸ hd)

/-- The finding on a subset with distinct index bytes is the verification of its candidate (R189 to R192). -/
theorem subsetFinding_of_isCandidate (hsl : refShareLen s ≠ 0) (hd : (indexBytes s c).Nodup) {cand : List Byte}
    (hc : IsCandidate s c cand) : subsetFinding s h c = .ok (verify s.digestUnit h cand) := by
  rw [hc.unique (isCandidate_candidateBytes hsl hd)]
  exact examine_of_nodup _ h _ (column_zero_payloadBytes c hsl ▸ hd)

theorem subsetFinding_of_yields (hsl : refShareLen s ≠ 0) {r : List Byte} (hy : Yields s h c r) :
    subsetFinding s h c = .ok (.accept r) := by
  obtain ⟨hd, hc⟩ := hy
  rw [subsetFinding_of_isCandidate hsl hd hc, verify_append_digest]

/-- Without a hash the candidate is the result (R191). -/
theorem yields_noHash {cand : List Byte} (hd : (indexBytes s c).Nodup) (hc : IsCandidate s c cand) :
    Yields s .noHash c cand :=
  ⟨hd, (List.append_nil cand).symm ▸ hc⟩

theorem subsetFinding_of_failsVerification (hsl : refShareLen s ≠ 0) (hf : FailsVerification s h c) :
    subsetFinding s h c = .ok .mismatch := by
  obtain ⟨hd, cand, hc, hno⟩ := hf
  rw [subsetFinding_of_isCandidate hsl hd hc, verify_eq_mismatch hno]

/-- Every subset has coinciding index bytes, fails verification, or yields a result. -/
theorem subset_kinds (h : HashAlg) (c : List Nat) (hsl : refShareLen s ≠ 0) :
    ¬(indexBytes s c).Nodup ∨ FailsVerification s h c ∨ ∃ r, Yields s h c r := by
  by_cases hd : (indexBytes s c).Nodup
  · have hc := isCandidate_candidateBytes hsl hd
    refine .inr ?_
    by_cases hr : ∃ r, candidateBytes s.rom (c.map (payloadBytes s)) (refShareLen s) = r ++ digest s.digestUnit h r
    · obtain ⟨r, hr⟩ := hr
      exact .inr ⟨r, hd, hr ▸ hc⟩
    · exact .inl ⟨hd, _, hc, not_exists.mp hr⟩
  · exact .inl hd

/-- In lenient mode a subset with coinciding index bytes or a failed verification is skipped (R194). -/
theorem exists_finding_skipped (hsl : refShareLen s ≠ 0)
    (hbad : ¬(indexBytes s c).Nodup ∨ FailsVerification s h c) :
    ∃ v, subsetFinding s h c = .ok v ∧ settles true v = none := by
  obtain hd | hf := hbad
  · exact ⟨.duplicate, subsetFinding_of_not_nodup hsl hd, rfl⟩
  · exact ⟨.mismatch, subsetFinding_of_failsVerification hsl hf, rfl⟩

end

/-! ## The search on valid input -/

/-- The threshold was tested against the number of shares (R183). -/
theorem InputValid.refThreshold_le {s : State} (hs : InputValid s) : refThreshold s ≤ wordOperand s 1 := by
  obtain ⟨-, -, hthreshold, -⟩ := shareDefect_eq_none_iff.mp (hs.noDefect 0 (Nat.pos_of_ne_zero hs.someShares))
  exact hthreshold rfl

section

variable {s : State} {h : HashAlg} {lenient : Bool}

/-- The search of RECONSTRUCT goes over the subsets in lexicographic order (R186, R193 to R195). -/
theorem reconstructSearch_eq (lenient : Bool) (h : HashAlg) (hs : InputValid s) :
    reconstructSearch lenient s h =
      searchList (subsetFinding s h) lenient (lexSubsets (refThreshold s) (List.range (wordOperand s 1))) := by
  have hlen : ((List.range (wordOperand s 1)).map (payloadBytes s)).length = wordOperand s 1 := by simp
  have hne : (List.range (wordOperand s 1)).map (payloadBytes s) ≠ [] :=
    List.ne_nil_of_length_pos (hlen.symm ▸ Nat.pos_of_ne_zero hs.someShares)
  rw [reconstructSearch, search_eq_searchList lenient hne (hs.refThreshold_le.trans_eq hlen.symm), hlen]
  refine searchList_congr fun c hc => congrArg (examine _ _ _ _) (List.map_congr_left fun i hi => ?_)
  simp [List.getD_eq_getElem?_getD, lt_of_mem_lexSubsets_range hc i hi]

/-- What the search finds on the first subset ends it, when it settles the matter. -/
theorem reconstructSearch_of_first {v : Verdict} {r : Except OpError (List Byte)} (hs : InputValid s)
    (hv : subsetFinding s h (List.range (refThreshold s)) = .ok v) (hr : settles lenient v = some r) :
    reconstructSearch lenient s h = r := by
  obtain ⟨cs, hcs⟩ := exists_lexSubsets_range_eq_cons hs.refThreshold_le
  rw [reconstructSearch_eq lenient h hs, hcs]
  exact searchList_cons_of_settles hv hr

/-! ## The outcomes of RECONSTRUCT -/

theorem exec_reconstruct_of_search_error (hs : InputValid s) (hid : HashAlg.ofId (refHash s) = some h) {e : OpError}
    (he : reconstructSearch lenient s h = .error e) : exec (.reconstruct lenient) s = .next (s.raiseError e) := by
  rw [exec_reconstruct, evalReconstruct_of_hash lenient hs hid, he]
  rfl

/-- A found result is written, or does not fit (R197, R201). -/
theorem endsWithResult_of_search (hs : InputValid s) (hid : HashAlg.ofId (refHash s) = some h) {r : List Byte}
    (hr : reconstructSearch lenient s h = .ok r) : EndsWithResult (.reconstruct lenient) s r := by
  have heval := evalReconstruct_of_hash lenient hs hid
  rw [hr, ok_bind] at heval
  constructor
  · intro hfits
    replace heval := heval.trans (if_pos hfits)
    have hexec := (exec_reconstruct lenient s).trans (congrArg (complete s) heval)
    obtain ⟨r', hlt, hfx⟩ := evalReconstruct_eq_ok heval
    obtain rfl : r = r' := by simpa using congrArg Effects.stores hfx
    have hres (k : Fin 4) (hk : k ≠ 0) := exec_keeps_unnamed_result hexec (k := k) (by simpa [Instr.results] using hk)
    refine ⟨_, hexec, rfl, rfl, rfl, ?_, hres, rfl, rfl, s.buf.readBytes_storeAll_single _ rfl, fun a ha => ?_⟩
    · rw [State.completeOk_res, getElem_zero_writeResults, BitVec.toNat_ofNat, Nat.mod_eq_of_lt (by omega)]
    · exact Memory.read_storeAll_outside (List.forall_mem_singleton.mpr ha)
  · intro hout
    exact (exec_reconstruct lenient s).trans (congrArg (complete s) (heval.trans (if_neg (Nat.not_le.mpr hout))))

/-- When the first `T` shares yield a result, RECONSTRUCT ends with it in either mode (R193, R194). -/
theorem endsWithResult_of_first_yields (hs : InputValid s) (hid : HashAlg.ofId (refHash s) = some h) {r : List Byte}
    (hy : Yields s h (List.range (refThreshold s)) r) : EndsWithResult (.reconstruct lenient) s r :=
  endsWithResult_of_search hs hid (reconstructSearch_of_first hs (subsetFinding_of_yields hs.notEmpty hy) rfl)

end

end Sys2Proof.Machine

namespace Sys2Proof

open Machine

/-- Settles O59: in strict mode the finding on the first subset, of whichever kind, settles the matter. -/
theorem strictReconstructOutcome : Obligations.StrictReconstructOutcome := by
  intro s h hs hid
  refine ⟨fun r => endsWithResult_of_first_yields hs hid, fun hd => ?_, fun hf => ?_, subset_kinds h _ hs.notEmpty⟩
  · have hfinding := subsetFinding_of_not_nodup (h := h) hs.notEmpty hd
    exact exec_reconstruct_of_search_error (e := .duplicateIndex) hs hid (reconstructSearch_of_first hs hfinding rfl)
  · have hfinding := subsetFinding_of_failsVerification hs.notEmpty hf
    exact exec_reconstruct_of_search_error (e := .hashMismatch) hs hid (reconstructSearch_of_first hs hfinding rfl)

/-- Settles O60: in lenient mode the subsets before the first that yields a result are skipped. -/
theorem lenientReconstructOutcome : Obligations.LenientReconstructOutcome := by
  intro s h hs hid
  have hsearch := reconstructSearch_eq true h hs
  refine ⟨fun k c r hk hbefore hy => ?_, fun hall => ?_, fun c _ => subset_kinds h c hs.notEmpty⟩
  · have hskip (j : Nat) (c' : List Nat) hj hget := exists_finding_skipped hs.notEmpty (hbefore j c' hj hget)
    have hfirst := searchList_of_skipped_before hk hskip (subsetFinding_of_yields hs.notEmpty hy) rfl
    exact endsWithResult_of_search hs hid (hsearch.trans hfirst)
  · have hskip := searchList_append_of_skipped (l' := []) fun c hc => exists_finding_skipped hs.notEmpty (hall c hc)
    rw [List.append_nil] at hskip
    exact exec_reconstruct_of_search_error hs hid (hsearch.trans hskip)

/-- Settles O56: without a hash the candidate of the first subset is the result, in either mode. -/
theorem reconstructWithoutHashInterpolates : Obligations.ReconstructWithoutHashInterpolates := by
  intro lenient s hs hnone hd hfits
  have hid : HashAlg.ofId (refHash s) = some .noHash := by rw [hnone]; rfl
  have hc := isCandidate_candidateBytes hs.notEmpty hd
  obtain ⟨hwritten, -⟩ := endsWithResult_of_first_yields (lenient := lenient) hs hid (yields_noHash hd hc)
  obtain ⟨t, hexec, hcode, hbusy, hdone, hres, -, -, -, hread, hframe⟩ := hwritten (by rwa [hc.size])
  rw [hc.size] at hres hread hframe
  refine ⟨t, hexec, hcode, hbusy, hdone, hres, fun p hp => ?_, hframe⟩
  refine (hc.interpolated p hp).trans ?_
  rw [← hread]
  simp [Memory.readBytes, List.getD_eq_getElem?_getD, hp]

end Sys2Proof

/-! PROOFS. The family 46_reconstruction_orchestrator.md, continued: RECONSTRUCT on shares that SHARE wrote. -/

namespace Sys2Proof.Machine

/-! ## The polynomials of a generation that ended OK -/

theorem length_of_drawBytes {n : Nat} {r : Rng} {bs : List Byte} (h : (drawBytes n r).1 = some bs) : bs.length = n := by
  induction n generalizing r bs with
  | zero => cases h; rfl
  | succ n ih =>
    simp only [drawBytes] at h
    split at h
    · cases h
    · split at h
      · cases h
      · next hbs =>
        cases h
        simp [ih (congrArg Prod.fst hbs)]

/-- The constant terms are the secret's bytes, and `m - 1` further coefficients are drawn for each (R124, R130). -/
theorem polynomials_of_draw {m : Nat} {secret : List Byte} {r : Rng} {polys : List (List Byte)}
    (h : (drawPolynomials m secret r).1 = some polys) :
    polys.map (·.headD 0) = secret ∧ ∀ c ∈ polys, c.length = m - 1 + 1 := by
  induction secret generalizing r polys with
  | nil => cases h; exact ⟨rfl, nofun⟩
  | cons b secret ih =>
    simp only [drawPolynomials] at h
    split at h
    · cases h
    · next coefs r' hcoefs =>
      split at h
      · cases h
      · next polys' r'' hpolys =>
        cases h
        obtain ⟨hheads, hlens⟩ := ih (congrArg Prod.fst hpolys)
        have hcoefs := length_of_drawBytes (congrArg Prod.fst hcoefs)
        exact ⟨congrArg (b :: ·) hheads, List.forall_mem_cons.mpr ⟨by simp [hcoefs], hlens⟩⟩

/-- The generator's payloads are the values of polynomials with the secret's bytes as constant terms (R130). -/
theorem generate_eq_ok {t : Rom} {m n : Nat} {secret : List Byte} {r : Rng} {outs : List (List Byte)}
    (h : (generate t m n secret r).1 = .ok outs) :
    ∃ polys, outs = payloads t n polys ∧ polys.map (·.headD 0) = secret ∧ ∀ c ∈ polys, c.length = m - 1 + 1 := by
  unfold generate at h
  split at h
  · cases h
  · next polys r' hpolys =>
    cases h
    exact ⟨polys, rfl, polynomials_of_draw (congrArg Prod.fst hpolys)⟩

/-! ## What SHARE wrote -/

/-- When SHARE's checks pass, threshold, count and length are in range (R152). -/
theorem paramsOk_of_checkShare {s : State} {alg : HashAlg} (h : checkShare false s = .ok alg) :
    paramsOk (wordOperand s 0) (wordOperand s 1) (wordOperand s 3 + alg.dlen) := by
  rw [checkShare_of_ofId (ofId_of_checkShare h)] at h
  split at h
  · assumption
  · cases h

theorem extendSecret_eq_append (u : DigestUnit) (h : HashAlg) (secret : List Byte) :
    extendSecret u h secret = secret ++ digest u h secret := by
  cases h with
  | noHash => exact (List.append_nil secret).symm
  | sha1 => rfl
  | sha256 => rfl

/-- The header of SHARE's shares decodes to its operands and the length of a payload (R156). -/
theorem decodeHeader_shareHeader {s : State} {alg : HashAlg} (hid : HashAlg.ofId (wordOperand s 7) = some alg)
    (hparams : paramsOk (wordOperand s 0) (wordOperand s 1) (wordOperand s 3 + alg.dlen)) :
    ∃ hdr, decodeHeader (shareHeader s alg) = .ok hdr ∧ hdr.hashId.toNat = wordOperand s 7 ∧
      hdr.threshold.toNat = wordOperand s 0 ∧ hdr.shareLen = wordOperand s 3 + alg.dlen + 1 := by
  have hhash : wordOperand s 7 ≤ 2 := by
    by_contra hunknown
    rw [HashAlg.ofId_of_two_lt (Nat.not_le.mp hunknown)] at hid
    cases hid
  have hbyte (k : Fin 8) (hk : wordOperand s k < 2 ^ 8) : ((s.arg k).setWidth 8).toNat = wordOperand s k := by
    rw [BitVec.toNat_setWidth]
    exact Nat.mod_eq_of_lt hk
  exact ⟨_, headerCodecInverse.2 _ _ _ _ (by omega), hbyte 7 (by omega), hbyte 0 (by omega), rfl⟩

/-- What SHARE has written when it has ended OK: share `i` is the header and the values at `i + 1` of polynomials whose
constant terms are the secret and its digest (R154 to R158). -/
theorem exec_share_eq_ok {s t : State} (h : exec (.share false) s = .next t) (hok : t.ecode = okCode) :
    ∃ alg polys, HashAlg.ofId (wordOperand s 7) = some alg ∧
      paramsOk (wordOperand s 0) (wordOperand s 1) (wordOperand s 3 + alg.dlen) ∧
      polys.map (·.headD 0) = extendSecret s.digestUnit alg (s.buf.readBytes (wordOperand s 2) (wordOperand s 3)) ∧
      (∀ c ∈ polys, c.length = wordOperand s 0 - 1 + 1) ∧
      t.res[0].toNat = 21 + (wordOperand s 3 + alg.dlen) ∧
      ∀ i, i < wordOperand s 1 →
        t.buf.readBytes (wordOperand s 4 + i * (21 + (wordOperand s 3 + alg.dlen)))
            (21 + (wordOperand s 3 + alg.dlen)) =
          shareHeader s alg ++ payload s.rom polys (BitVec.ofNat 8 (i + 1)) := by
  obtain ⟨fx, hfx, rfl⟩ | ⟨e, -, rfl⟩ := exec_cases h
  · simp only [evalInstr, evalShare] at hfx
    split at hfx
    · cases hfx
    · next alg hc =>
      obtain ⟨outs, hg, rfl⟩ := map_eq_ok hfx
      obtain ⟨hn, hlen⟩ := lengths_of_generate hg
      obtain ⟨polys, rfl, hheads, hlens⟩ := generate_eq_ok hg
      have hparams := paramsOk_of_checkShare hc
      have hshare : 21 + (wordOperand s 3 + alg.dlen) < 2 ^ 32 := by omega
      have hres := (toNat_writeResults_pair s.res hshare (s.arg 1).isLt).1
      refine ⟨alg, polys, ofId_of_checkShare hc, hparams, hheads, hlens, hres, fun i hi => ?_⟩
      refine (readBytes_storeAll_shareEffects s.buf (by simpa using hlen) (hi.trans_eq hn.symm)).trans ?_
      simp [payloads]
  · exact absurd hok e.code_ne_okCode

/-! ## Shares with one header as RECONSTRUCT's input -/

/-- The shares supplied lie in BUF, each the 20 bytes of a header and a payload of the length the header gives. -/
structure SharesSupplied (u : State) (hdr : Header) (header : List Byte) (pay : Nat → List Byte) : Prop where
  decoded : decodeHeader header = .ok hdr
  size : header.length = 20
  someShares : wordOperand u 1 ≠ 0
  table : u.buf.region (wordOperand u 0) (8 * wordOperand u 1)
  threshold_le : hdr.threshold.toNat ≤ wordOperand u 1
  len : ∀ k, k < wordOperand u 1 → shareLen u k = 20 + hdr.shareLen
  region : ∀ k, k < wordOperand u 1 → u.buf.region (shareAddr u k) (shareLen u k)
  bytes : ∀ k, k < wordOperand u 1 → u.buf.readBytes (shareAddr u k) (shareLen u k) = header ++ pay k

namespace SharesSupplied

variable {u : State} {hdr : Header} {header : List Byte} {pay : Nat → List Byte}

/-- Header and payload of a share, read apart. -/
theorem parts (h : SharesSupplied u hdr header pay) {k : Nat} (hk : k < wordOperand u 1) :
    u.buf.readBytes (shareAddr u k) 20 = header ∧ u.buf.readBytes (shareAddr u k + 20) hdr.shareLen = pay k := by
  have hbytes := h.bytes k hk
  rw [h.len k hk, Memory.readBytes_add] at hbytes
  exact List.append_inj hbytes ((Memory.length_readBytes ..).trans h.size.symm)

theorem refHeaderBytes_eq (h : SharesSupplied u hdr header pay) : refHeaderBytes u = header :=
  (h.parts (Nat.pos_of_ne_zero h.someShares)).1

theorem refHeader_eq (h : SharesSupplied u hdr header pay) : refHeader u = hdr := by
  have hdec := decodeHeader_refHeaderBytes u
  rw [h.refHeaderBytes_eq, h.decoded] at hdec
  exact (Except.ok.inj hdec).symm

theorem refShareLen_eq (h : SharesSupplied u hdr header pay) : refShareLen u = hdr.shareLen :=
  congrArg Header.shareLen h.refHeader_eq

theorem refThreshold_eq (h : SharesSupplied u hdr header pay) : refThreshold u = hdr.threshold.toNat :=
  congrArg (fun hdr => hdr.threshold.toNat) h.refHeader_eq

theorem refHash_eq (h : SharesSupplied u hdr header pay) : refHash u = hdr.hashId.toNat :=
  congrArg (fun hdr => hdr.hashId.toNat) h.refHeader_eq

theorem payloadBytes_eq (h : SharesSupplied u hdr header pay) {k : Nat} (hk : k < wordOperand u 1) :
    payloadBytes u k = pay k := by
  rw [payloadBytes, h.refShareLen_eq]
  exact (h.parts hk).2

/-- Shares with one header are valid input, when their payloads are not empty. -/
theorem inputValid (h : SharesSupplied u hdr header pay) (hsl : hdr.shareLen ≠ 0) : InputValid u where
  someShares := h.someShares
  table := h.table
  noDefect k hk := by
    have hlen := h.len k hk
    refine shareDefect_eq_none_iff.mpr ⟨by omega, h.region k hk, fun _ => ?_, ?_, ?_⟩
    · exact h.refThreshold_eq.trans_le h.threshold_le
    · rw [h.refHeaderBytes_eq]
      exact (h.parts hk).1
    · rw [h.refShareLen_eq, hlen, Nat.add_sub_cancel_left]
  notEmpty := h.refShareLen_eq ▸ hsl

/-- Shares named by a list, the `k`-th supplied being a copy of share `idx[k]`. -/
theorem of_copies {out : Nat → List Byte} {idx : List Nat} (hdec : decodeHeader header = .ok hdr)
    (hsize : header.length = 20) (hcount : wordOperand u 1 = idx.length) (hpos : 0 < idx.length)
    (htable : u.buf.region (wordOperand u 0) (8 * idx.length)) (hthreshold : hdr.threshold.toNat ≤ idx.length)
    (hcopies : ∀ k i, idx[k]? = some i → shareLen u k = 20 + hdr.shareLen ∧
      u.buf.region (shareAddr u k) (shareLen u k) ∧ u.buf.readBytes (shareAddr u k) (shareLen u k) = header ++ out i) :
    SharesSupplied u hdr header fun k => out (idx.getD k 0) := by
  have hcopy (k : Nat) (hk : k < wordOperand u 1) := hcopies k (idx.getD k 0) <| by
    have hk' : k < idx.length := hk.trans_eq hcount
    rw [List.getD_eq_getElem _ _ hk', List.getElem?_eq_getElem hk']
  exact {
    decoded := hdec
    size := hsize
    someShares := hcount ▸ Nat.ne_of_gt hpos
    table := hcount ▸ htable
    threshold_le := hcount ▸ hthreshold
    len := fun k hk => (hcopy k hk).1
    region := fun k hk => (hcopy k hk).2.1
    bytes := fun k hk => (hcopy k hk).2.2 }

end SharesSupplied

/-! ## Payloads that are values of polynomials -/

theorem getD_succ_payload (t : Rom) {polys : List (List Byte)} (x : Byte) {p : Nat} (hp : p < polys.length) :
    (payload t polys x).getD (p + 1) 0 = polySum t x polys[p] := by
  simp [payload, List.getD_eq_getElem?_getD, hp]

/-- From shares whose payloads are the values of polynomials with no more coefficients than there are shares, the
constant terms are interpolated (R170, R190). -/
theorem indexBytes_nodup_and_isCandidate {u : State} {c : List Nat} {x : Nat → Byte} {polys : List (List Byte)}
    (hrom : u.rom.valid) (hx : (c.map x).Nodup) (hsl : refShareLen u = polys.length + 1)
    (hpay : ∀ k ∈ c, payloadBytes u k = payload u.rom polys (x k)) (hlen : ∀ q ∈ polys, q.length ≤ c.length) :
    (indexBytes u c).Nodup ∧ IsCandidate u c (polys.map (·.headD 0)) := by
  have hindex : indexBytes u c = c.map x := List.map_congr_left fun k hk => by
    rw [← getD_payloadBytes u k (by omega), hpay k hk]
    rfl
  refine ⟨hindex ▸ hx, by simp [hsl], fun p hp => ?_⟩
  have hp' : p < polys.length := by omega
  have hcolumn : (c.map fun k => payloadByte u k (p + 1)) = (c.map x).map fun b => polyValue u.rom b polys[p] := by
    rw [List.map_map]
    refine List.map_congr_left fun k hk => ?_
    rw [← getD_payloadBytes u k (by omega), hpay k hk, getD_succ_payload _ _ hp', pevalComputesPolynomial]
    rfl
  have hinterp := (interpolationRecoversConstantTerm u.rom (c.map x) _ hrom (by simp) hx).2 polys[p]
    (by simpa using hlen _ (List.getElem_mem hp')) rfl
  rw [hindex, hcolumn, hinterp]
  simp [List.getD_eq_getElem?_getD, hp']

/-- The first `T` shares yield the secret, when their payloads are the values of polynomials with `T` coefficients whose
constant terms are the secret and its digest (R202). -/
theorem SharesSupplied.yields {u : State} {hdr : Header} {header secret : List Byte} {x : Nat → Byte}
    {polys : List (List Byte)} {alg : HashAlg}
    (h : SharesSupplied u hdr header fun k => payload u.rom polys (x k)) (hrom : u.rom.valid)
    (hx : ((List.range hdr.threshold.toNat).map x).Nodup) (hsl : hdr.shareLen = polys.length + 1)
    (hlen : ∀ q ∈ polys, q.length = hdr.threshold.toNat)
    (hheads : polys.map (·.headD 0) = secret ++ digest u.digestUnit alg secret) :
    Yields u alg (List.range (refThreshold u)) secret := by
  rw [Yields, ← hheads, h.refThreshold_eq]
  refine indexBytes_nodup_and_isCandidate hrom hx (h.refShareLen_eq.trans hsl) (fun k hk => ?_) fun q hq => ?_
  · exact h.payloadBytes_eq ((List.mem_range.mp hk).trans_le h.threshold_le)
  · rw [hlen q hq, List.length_range]

/-- The index bytes of different shares are different: there are at most 254 (R126). -/
theorem nodup_indices {idx : List Nat} {n m : Nat} (hn : n ≤ 254) (hidx : idx.Nodup) (hlt : ∀ i ∈ idx, i < n)
    (hm : m ≤ idx.length) : ((List.range m).map fun k => BitVec.ofNat 8 (idx.getD k 0 + 1)).Nodup := by
  refine List.Nodup.map_on (fun j hj k hk heq => ?_) List.nodup_range
  have hj : j < idx.length := (List.mem_range.mp hj).trans_le hm
  have hk : k < idx.length := (List.mem_range.mp hk).trans_le hm
  have hidxj := hlt _ (List.getElem_mem hj)
  have hidxk := hlt _ (List.getElem_mem hk)
  rw [List.getD_eq_getElem _ _ hj, List.getD_eq_getElem _ _ hk] at heq
  have hsame : idx[j] = idx[k] := by
    have heq := congrArg BitVec.toNat heq
    simp only [BitVec.toNat_ofNat] at heq
    omega
  exact (hidx.getElem_inj_iff).mp hsame

end Sys2Proof.Machine

namespace Sys2Proof

open Machine

/-- Settles O58: the shares supplied are valid input with SHARE's threshold and hash id; the first M of them yield the
secret, as its digest-extended bytes are the constant terms of polynomials with M coefficients. -/
theorem shareReconstructRoundTrip : Obligations.ShareReconstructRoundTrip := by
  intro s t u idx lenient hvalid hshare hok hrom hunit hnodup hlt hM hcount htable hsupplied hdst
  obtain ⟨alg, polys, hid, hparams, hheads, hlens, hres, hwritten⟩ := exec_share_eq_ok hshare hok
  obtain ⟨hdr, hdec, hhash, hthreshold, hlen⟩ := decodeHeader_shareHeader hid hparams
  obtain ⟨-, hM1, -, -, hN⟩ := hparams
  have hin := SharesSupplied.of_copies (out := fun i => payload u.rom polys (BitVec.ofNat 8 (i + 1))) hdec
    (length_shareHeader s alg) hcount (hM1.trans hM) htable (hthreshold.trans_le hM) fun k i hi => by
      obtain ⟨hlenk, hregion, hbytes⟩ := hsupplied k i hi
      refine ⟨by omega, hregion, ?_⟩
      rw [hbytes, hres, hrom]
      exact hwritten i (hlt i (List.mem_of_getElem? hi))
  have hpolys : polys.length = wordOperand s 3 + alg.dlen := by simpa using congrArg List.length hheads
  have hy := hin.yields (alg := alg) (hrom ▸ hvalid) (nodup_indices hN hnodup hlt (hthreshold.trans_le hM)) (by omega)
    (fun q hq => by rw [hlens q hq, hthreshold, Nat.sub_add_cancel hM1])
    (by rw [hheads, extendSecret_eq_append, hunit])
  have hidu : HashAlg.ofId (refHash u) = some alg := by rw [hin.refHash_eq, hhash, hid]
  obtain ⟨hresult, -⟩ := endsWithResult_of_first_yields (lenient := lenient) (hin.inputValid (by omega)) hidu hy
  rw [Memory.length_readBytes] at hresult
  obtain ⟨v, hexec, hcode, -, -, hresv, -, -, -, hread, -⟩ := hresult hdst
  exact ⟨v, hexec, hcode, BitVec.eq_of_toNat_eq hresv, hread⟩

end Sys2Proof

/-! PROOFS. The family 60_exceptions.md: the idle engine, illegal words, what an error leaves as it was, wide operands,
and failed draws. -/

namespace Sys2Proof.Machine

/-! ## Steps that read and write nothing -/

theorem step_of_idle {s : State} (hb : s.busy = false) (hh : s.host = []) : step s = .next s := by
  have hm : hostMoves s = none := hostMoves_eq_none.mpr (.inl hh)
  simp [step, hm, hb]

/-- An accepted word that does not decode completes with IllegalCommand (30_encoding.md R75). -/
theorem completionStep_of_fetch_error {s : State} {e : DecodeError} (h : fetch s = .error e) :
    completionStep s = .next (s.raiseError .illegalCommand) := by
  rw [completionStep, h]
  rfl

/-- A word that no row of the opcode map selects does not decode: an instruction's own row selects its word (R74). -/
theorem exists_decode_error_of_unmapped {w : Word} (h : ∀ r ∈ opcodeMap, w &&& r.mask ≠ r.pattern) :
    ∃ e, decode w = .error e := by
  cases hd : decode w with
  | error e => exact ⟨e, rfl⟩
  | ok i =>
    obtain ⟨-, r, hr, hm, -⟩ := Laws.RoundTrip.all i
    have hsel := selects_of_decode hr hd hm.symm
    exact absurd (beq_iff_eq.mp hsel) (h r hr)

/-! ## Failed draws -/

/-- The generator ends with the first failed request; none follows it (42_share_generator.md R125). -/
theorem generate_fails (t : Rom) {m : Nat} (n : Nat) {secret : List Byte} {r : Rng} {k : Nat} (h : r.failsAt k)
    (hk : k < secret.length * (m - 1)) : generate t m n secret r = (.error .rngFailure, r.advance (k + 1)) := by
  rw [generate, drawPolynomials_fails h hk]

section

variable {s : State} {k : Nat}

/-- GENERATE after its checks, when one of its draws fails (R125). -/
theorem evalGenerate_fails (hc : checkGenerate s = .ok ()) (hr : s.rng.failsAt k)
    (hk : k < wordOperand s 3 * (wordOperand s 0 - 1)) :
    evalGenerate s = (.error .rngFailure, s.rng.advance (k + 1)) := by
  have hg := generate_fails s.rom (wordOperand s 1) (secret := s.buf.readBytes (wordOperand s 2) (wordOperand s 3)) hr
    (by simpa using hk)
  rw [evalGenerate, hc]
  simp only [hg]
  rfl

/-- SHARE after its checks, when one of its draws fails (R125, 44_share_creation.md R155). -/
theorem evalShare_fails {noid : Bool} {h : HashAlg} (hc : checkShare noid s = .ok h) (hr : s.rng.failsAt k)
    (hk : k < (wordOperand s 3 + h.dlen) * (wordOperand s 0 - 1)) :
    evalShare noid s = (.error .rngFailure, s.rng.advance (k + 1)) := by
  have hg := generate_fails s.rom (wordOperand s 1)
    (secret := extendSecret s.digestUnit h (s.buf.readBytes (wordOperand s 2) (wordOperand s 3))) hr (by simpa using hk)
  rw [evalShare, hc]
  simp only [hg]
  rfl

end

end Sys2Proof.Machine

namespace Sys2Proof

open Machine

/-- Settles O12: the host has no turn and no command runs. -/
theorem idleEngineKeepsItsState : Obligations.IdleEngineKeepsItsState :=
  fun _ => step_of_idle

/-- Settles O18: in the engine's turn the completion step fetches a word that does not decode. -/
theorem unmappedWordIsIllegalCommand : Obligations.UnmappedWordIsIllegalCommand := by
  intro s hb hturn hrows
  obtain ⟨e, he⟩ := exists_decode_error_of_unmapped hrows
  exact (step_of_engineTurn hb hturn).trans (completionStep_of_fetch_error he)

/-- Settles O20: a command that does not raise an error ends with the code of success. -/
theorem errorLeavesNoObservableOutput : Obligations.ErrorLeavesNoObservableOutput := by
  intro i s t h hcode
  obtain ⟨fx, -, rfl⟩ | ⟨e, -, rfl⟩ := exec_cases h
  · exact absurd rfl hcode
  · exact ⟨e, rfl⟩

/-- Settles O31: in each command the test of the operand's width comes first. -/
theorem wideOperandsRaiseBadOperand : Obligations.WideOperandsRaiseBadOperand := by
  intro s
  refine ⟨fun hwide i hi => ?_, fun hwide => ?_, fun hwide => ?_⟩
  · have heval (f : Byte → Byte → Except OpError Effects) :
        complete s (withBytes s f) = .next { s with busy := false, done := true, ecode := 0x11 } := by
      rw [withBytes_wide hwide]
      rfl
    simp only [List.mem_cons, List.not_mem_nil, or_false] at hi
    obtain rfl | rfl | rfl | rfl := hi
    · exact (exec_gfadd s).trans (heval _)
    · exact (exec_gfsub s).trans (heval _)
    · exact (exec_gfmul s).trans (heval _)
    · exact (exec_gfdiv s).trans (heval _)
  · rw [exec_peval, evalPeval_of_wide hwide]
    rfl
  · rw [exec_hdrenc, evalHdrenc_of_wide hwide]
    rfl

/-- Settles O39: after the checks the generator runs into the failed draw. -/
theorem failedDrawEndsGeneration : Obligations.FailedDrawEndsGeneration := by
  constructor
  · intro s k hparams hsecret hdst hr hk
    have hcheck : checkGenerate s = .ok () :=
      (checkGenerate_eq s).trans ((if_pos hparams).trans (if_pos ⟨hsecret, hdst⟩))
    rw [exec_eq_completeDrawing, evalInstr, evalGenerate_fails hcheck hr hk]
    rfl
  · intro s h k hid hparams hsecret hident hdst hr hk
    have hcheck : checkShare false s = .ok h :=
      (checkShare_of_ofId hid).trans ((if_pos hparams).trans (if_pos ⟨hsecret, hident, hdst⟩))
    rw [exec_eq_completeDrawing, evalInstr, evalShare_fails hcheck hr hk]
    rfl

end Sys2Proof

/-! PROOFS. The family 60_exceptions.md, continued: which command can end with which code (R216). -/

namespace Sys2Proof.Machine

/-! ## Computations that raise nothing but listed errors -/

/-- The computation raises no error outside the list. -/
def RaisesOnly {α : Type} (es : List OpError) (x : Except OpError α) : Prop := ∀ e, x = .error e → e ∈ es

section

variable {α β : Type} {es : List OpError} {s : State}

theorem RaisesOnly.ok (a : α) : RaisesOnly es (.ok a) := nofun

theorem RaisesOnly.error {e : OpError} (he : e ∈ es) : RaisesOnly es (.error e : Except OpError α) := by
  rintro _ ⟨⟩
  exact he

theorem RaisesOnly.ite {p : Prop} [Decidable p] {x y : Except OpError α} (hx : RaisesOnly es x)
    (hy : RaisesOnly es y) : RaisesOnly es (if p then x else y) := by
  split
  · exact hx
  · exact hy

theorem RaisesOnly.bind {x : Except OpError α} {f : α → Except OpError β} (hx : RaisesOnly es x)
    (hf : ∀ a, RaisesOnly es (f a)) : RaisesOnly es (x >>= f) := by
  intro e he
  obtain h | ⟨a, -, h⟩ := bind_eq_error.mp he
  · exact hx e h
  · exact hf a e h

theorem RaisesOnly.map {x : Except OpError α} (hx : RaisesOnly es x) (f : α → β) : RaisesOnly es (x.map f) := by
  cases x with
  | ok a => exact .ok _
  | error e => exact .error (hx e rfl)

theorem RaisesOnly.require {p : Prop} [Decidable p] {e : OpError} (he : e ∈ es) : RaisesOnly es (require p e) :=
  .ite (.ok ()) (.error he)

theorem RaisesOnly.byteOperand {k : Fin 8} (he : .badOperand ∈ es) : RaisesOnly es (byteOperand s k) :=
  .ite (.ok _) (.error he)

theorem RaisesOnly.halfOperand {k : Fin 8} (he : .badOperand ∈ es) : RaisesOnly es (halfOperand s k) :=
  .ite (.ok _) (.error he)

theorem RaisesOnly.withBytes {f : Byte → Byte → Except OpError Effects} (he : .badOperand ∈ es)
    (hf : ∀ a b, RaisesOnly es (f a b)) : RaisesOnly es (withBytes s f) :=
  .bind (.byteOperand he) fun a => .bind (.byteOperand he) fun b => hf a b

theorem RaisesOnly.gfDiv {t : Rom} {a b : Byte} (he : .divisionByZero ∈ es) : RaisesOnly es (gfDiv t a b) :=
  .ite (.error he) (.ok _)

theorem RaisesOnly.peval {t : Rom} {x : Byte} {c : List Byte} (he : .invalidIndex ∈ es) : RaisesOnly es (peval t x c) :=
  .ite (.error he) (.ok _)

theorem RaisesOnly.interp0 {t : Rom} {u v : List Byte} (h : u.length = v.length) (he : .divisionByZero ∈ es) :
    RaisesOnly es (interp0 t u v) := by
  rw [interp0_eq t h]
  exact .ite (.ok _) (.error he)

theorem RaisesOnly.generate {t : Rom} {m n : Nat} {secret : List Byte} {r : Rng} (he : .rngFailure ∈ es) :
    RaisesOnly es (generate t m n secret r).1 := by
  unfold Machine.generate
  split
  · exact .error he
  · exact .ok _

end

/-! ## The errors of each command but RECONSTRUCT -/

theorem evalGfadd_raisesOnly (s : State) : RaisesOnly (Instr.errors .gfadd) (evalGfadd s) :=
  .withBytes (by decide) fun _ _ => .ok _

theorem evalGfsub_raisesOnly (s : State) : RaisesOnly (Instr.errors .gfsub) (evalGfsub s) :=
  .withBytes (by decide) fun _ _ => .ok _

theorem evalGfmul_raisesOnly (s : State) : RaisesOnly (Instr.errors .gfmul) (evalGfmul s) :=
  .withBytes (by decide) fun _ _ => .ok _

theorem evalGfdiv_raisesOnly (s : State) : RaisesOnly (Instr.errors .gfdiv) (evalGfdiv s) :=
  .withBytes (by decide) fun _ _ => .bind (.gfDiv (by decide)) fun _ => .ok _

theorem evalPeval_raisesOnly (s : State) : RaisesOnly (Instr.errors .peval) (evalPeval s) :=
  .bind (.byteOperand (by decide)) fun _ => .bind (.require (by decide)) fun _ =>
    .bind (.require (by decide)) fun _ => .bind (.peval (by decide)) fun _ => .ok _

theorem evalHdrenc_raisesOnly (s : State) : RaisesOnly (Instr.errors .hdrenc) (evalHdrenc s) :=
  .bind (.byteOperand (by decide)) fun _ => .bind (.byteOperand (by decide)) fun _ =>
    .bind (.halfOperand (by decide)) fun _ => .bind (.require (by decide)) fun _ =>
      .bind (.require (by decide)) fun _ => .ok _

/-- The 20 bytes read are a header, so decoding them raises nothing (43_header_codec.md R141). -/
theorem evalHdrdec_raisesOnly (s : State) : RaisesOnly (Instr.errors .hdrdec) (evalHdrdec s) :=
  .bind (.require (by decide)) fun _ => .bind (.require (by decide)) fun _ => .bind (.require (by decide)) fun _ => by
    rw [Memory.decodeHeader_readBytes]
    exact .ok _

theorem evalLinterp_raisesOnly (s : State) : RaisesOnly (Instr.errors .linterp) (evalLinterp s) :=
  .bind (.require (by decide)) fun _ => .bind (.require (by decide)) fun _ =>
    .bind (.interp0 (by simp) (by decide)) fun _ => .ok _

theorem checkGenerate_raisesOnly (s : State) : RaisesOnly (Instr.errors .generate) (checkGenerate s) :=
  .bind (.require (by decide)) fun _ => .bind (.require (by decide)) fun _ => .require (by decide)

theorem evalGenerate_raisesOnly (s : State) : RaisesOnly (Instr.errors .generate) (evalGenerate s).1 := by
  unfold evalGenerate
  split
  · next e hc => exact .error (checkGenerate_raisesOnly s e hc)
  · exact (RaisesOnly.generate (by decide)).map _

theorem checkShare_raisesOnly (noid : Bool) (s : State) :
    RaisesOnly (Instr.errors (.share noid)) (checkShare noid s) := by
  cases noid with
  | true =>
    rw [checkShare_noid]
    exact .error (by decide)
  | false =>
    cases hid : HashAlg.ofId (wordOperand s 7) with
    | none =>
      simp only [checkShare, hid]
      exact .bind (.require (by decide)) fun _ => .error (by decide)
    | some h =>
      rw [checkShare_of_ofId hid]
      exact .ite (.ite (.ok h) (.error (by decide))) (.error (by decide))

/-- Without an identifier SHARE does not come to its draws (R151). -/
theorem evalShare_raisesOnly (noid : Bool) (s : State) :
    RaisesOnly (Instr.errors (.share noid)) (evalShare noid s).1 := by
  unfold evalShare
  split
  · next e hc => exact .error (checkShare_raisesOnly noid s e hc)
  · next h hc =>
    cases noid with
    | true => exact absurd hc (by rw [checkShare_noid]; nofun)
    | false => exact (RaisesOnly.generate (by decide)).map _

/-! ## The errors of RECONSTRUCT -/

/-- The errors RECONSTRUCT raises in either mode: those of its input, and that of the result's region
(46_reconstruction_orchestrator.md R182 to R185, R197). -/
def inputErrors : List OpError :=
  [.unsupportedHashAlgorithm, .malformedShare, .inconsistentHeaders, .insufficientShares, .badAddress]

/-- How a search without a result ends in each mode (46_reconstruction_orchestrator.md R193, R195). -/
def searchErrors (lenient : Bool) : List OpError :=
  if lenient then [.reconstructionFailed] else [.duplicateIndex, .hashMismatch]

theorem errors_reconstruct (lenient : Bool) :
    Instr.errors (.reconstruct lenient) = inputErrors ++ searchErrors lenient := rfl

theorem mem_inputErrors_of_shareDefect {s : State} {i : Nat} {e : OpError} (h : shareDefect s i = some e) :
    e ∈ inputErrors := by
  unfold shareDefect at h
  split_ifs at h <;> cases h <;> decide

/-- A finding ends the search with an error in strict mode only (R193, R194). -/
theorem mem_searchErrors_of_settles {lenient : Bool} {v : Verdict} {e : OpError}
    (h : settles lenient v = some (.error e)) : e ∈ searchErrors lenient := by
  cases v with
  | accept r => cases h
  | duplicate =>
    cases lenient <;> cases h
    decide
  | mismatch =>
    cases lenient <;> cases h
    decide

/-- A search whose examinations raise nothing; in strict mode it must have a subset to examine (R193 to R195). -/
theorem searchList_raisesOnly {examineAt : List Nat → Except OpError Verdict} {lenient : Bool} {l : List (List Nat)}
    (hexamine : ∀ c, ∃ v, examineAt c = .ok v) (hl : lenient = true ∨ l ≠ []) :
    RaisesOnly (searchErrors lenient) (searchList examineAt lenient l) := by
  induction l with
  | nil =>
    obtain rfl : lenient = true := hl.resolve_right (not_not_intro rfl)
    exact .error (by decide)
  | cons c l ih =>
    obtain ⟨v, hv⟩ := hexamine c
    cases hr : settles lenient v with
    | some r =>
      rw [searchList_cons_of_settles hv hr]
      rintro e rfl
      exact mem_searchErrors_of_settles hr
    | none =>
      have hlenient : lenient = true := by
        cases lenient with
        | true => rfl
        | false =>
          obtain ⟨r, hsettles, -⟩ := exists_settles_strict v
          exact absurd (hsettles.symm.trans hr) nofun
      have hskip := searchList_append_of_skipped (l := [c]) (l' := l) (List.forall_mem_singleton.mpr ⟨v, hv, hr⟩)
      rw [List.singleton_append] at hskip
      rw [hskip]
      exact ih (.inl hlenient)

theorem reconstructSearch_raisesOnly (lenient : Bool) {s : State} (h : HashAlg) (hs : InputValid s) :
    RaisesOnly (searchErrors lenient) (reconstructSearch lenient s h) := by
  obtain ⟨cs, hcs⟩ := exists_lexSubsets_range_eq_cons hs.refThreshold_le
  rw [reconstructSearch_eq lenient h hs, hcs]
  exact searchList_raisesOnly (fun c => exists_examine_eq_ok ..) (.inr (List.cons_ne_nil _ _))

/-- On valid input: an unknown hash id, the search, and the region of the result (R185, R193 to R197). -/
theorem evalReconstruct_raisesOnly_of_valid (lenient : Bool) {s : State} (hs : InputValid s) :
    RaisesOnly (Instr.errors (.reconstruct lenient)) (evalReconstruct lenient s) := by
  rw [errors_reconstruct]
  cases hid : HashAlg.ofId (refHash s) with
  | none =>
    rw [evalReconstruct_of_unknownHash lenient hs hid]
    exact .error (List.mem_append_left _ (by decide))
  | some h =>
    rw [evalReconstruct_of_hash lenient hs hid]
    refine .bind (fun e he => ?_) fun r => .ite (.ok _) (.error (List.mem_append_left _ (by decide)))
    exact List.mem_append_right _ (reconstructSearch_raisesOnly lenient h hs e he)

/-- RECONSTRUCT by its checks in order: the count, the table's region, the shares' defects, the payload length (R182
to R184). -/
theorem evalReconstruct_raisesOnly (lenient : Bool) (s : State) :
    RaisesOnly (Instr.errors (.reconstruct lenient)) (evalReconstruct lenient s) := by
  have input {e : OpError} (he : e ∈ inputErrors) (heval : evalReconstruct lenient s = .error e) :
      RaisesOnly (Instr.errors (.reconstruct lenient)) (evalReconstruct lenient s) := by
    rw [heval]
    exact .error (List.mem_append_left _ he)
  by_cases hshares : wordOperand s 1 = 0
  · exact input (by decide) (evalReconstruct_of_noShares lenient hshares)
  by_cases htable : s.buf.region (wordOperand s 0) (8 * wordOperand s 1)
  swap
  · exact input (by decide) (evalReconstruct_of_table_outside lenient hshares htable)
  cases hd : (List.range (wordOperand s 1)).findSome? (shareDefect s) with
  | some e =>
    obtain ⟨i, -, hi⟩ := List.exists_of_findSome?_eq_some hd
    have hpass := validateShares_eq hshares
    rw [hd] at hpass
    exact input (mem_inputErrors_of_shareDefect hi) (evalReconstruct_of_pass_error lenient hshares htable hpass)
  | none =>
    have hpass i (hi : i < wordOperand s 1) := List.findSome?_eq_none_iff.mp hd i (List.mem_range.mpr hi)
    by_cases hempty : refShareLen s = 0
    · refine input (e := .malformedShare) (by decide) ?_
      rw [evalReconstruct_of_noDefect lenient hshares htable hpass, if_neg (not_not_intro hempty)]
    · exact evalReconstruct_raisesOnly_of_valid lenient ⟨hshares, htable, hpass, hempty⟩

/-! ## Which command can end with which code -/

/-- A command raises no condition outside its row of the table (R216). -/
theorem evalInstr_raisesOnly (i : Instr) (s : State) : RaisesOnly i.errors (evalInstr i s).1 := by
  cases i with
  | gfadd => exact evalGfadd_raisesOnly s
  | gfsub => exact evalGfsub_raisesOnly s
  | gfmul => exact evalGfmul_raisesOnly s
  | gfdiv => exact evalGfdiv_raisesOnly s
  | peval => exact evalPeval_raisesOnly s
  | generate => exact evalGenerate_raisesOnly s
  | hdrenc => exact evalHdrenc_raisesOnly s
  | hdrdec => exact evalHdrdec_raisesOnly s
  | share noid => exact evalShare_raisesOnly noid s
  | linterp => exact evalLinterp_raisesOnly s
  | reconstruct lenient => exact evalReconstruct_raisesOnly lenient s

theorem exec_of_eval_error {i : Instr} {s : State} {e : OpError} (h : (evalInstr i s).1 = .error e) :
    exec i s = .next (({ s with rng := (evalInstr i s).2 } : State).raiseError e) := by
  rw [exec_eq_completeDrawing, completeDrawing, h]
  rfl

theorem exec_of_eval_ok {i : Instr} {s : State} {fx : Effects} (h : (evalInstr i s).1 = .ok fx) :
    exec i s = .next (({ s with rng := (evalInstr i s).2 } : State).completeOk fx) := by
  rw [exec_eq_completeDrawing, completeDrawing, h]
  rfl

/-- A command ends with the code of a condition exactly when it raises that condition: codes tell conditions apart. -/
theorem exists_exec_code_iff {i : Instr} {s : State} {e : OpError} :
    (∃ t, exec i s = .next t ∧ t.ecode = e.code) ↔ (evalInstr i s).1 = .error e := by
  constructor
  · rintro ⟨t, h, hcode⟩
    obtain ⟨fx, -, rfl⟩ | ⟨e', he', rfl⟩ := exec_cases h
    · exact absurd hcode.symm e.code_ne_okCode
    · rw [he', OpError.code_injective hcode]
  · intro h
    exact ⟨_, exec_of_eval_error h, rfl⟩

/-- One state for each condition, in which every command of the condition's column of the table raises it. Conditions
that operands of 0 meet have the state after reset (95_test_vectors.md V70); BadAddress has a BUF of one byte, and
InconsistentHeaders two shares of which the second has another identifier. -/
def raisingState : OpError → State
  | .invalidParameters => State.reset
  | .insufficientShares => State.reset
  | .malformedHeader => State.reset
  | .invalidIndex => State.reset
  | .illegalCommand => State.reset
  | .divisionByZero => Tests.start [0x10, 0, 2] [(0x10, [1, 1])] []
  | .badOperand => Tests.start [0x100, 0, 0x100] [] []
  | .badAddress => { Tests.start [1, 20, 1] [] [] with buf := ⟨1, 0, []⟩ }
  | .rngFailure => Tests.failing [2, 2, 0, 5, 0x100]
  | .unsupportedHashAlgorithm => Tests.oneShare 3 2
  | .malformedShare => Tests.oneShare 0 0
  | .inconsistentHeaders => { Tests.state60 with buf := Tests.state60.buf.write 0x11A 0 }
  | .duplicateIndex => Tests.twiceFirst 2
  | .reconstructionFailed => Tests.twiceFirst 2
  | .hashMismatch => Tests.oneSharePayload 1 (1 :: Tests.emptyDigest 0x08)

theorem evalInstr_raisingState :
    ∀ i ∈ instructions, ∀ e ∈ i.errors, (evalInstr i (raisingState e)).1 = .error e := by
  decide +kernel

/-- A state in which the command ends OK; the generator's thresholds are 1, so that no draw is made. -/
def completingState : Instr → State
  | .reconstruct _ => Tests.state60
  | _ => Tests.start [1, 20, 1] [] []

theorem evalInstr_completingState :
    ∀ i ∈ instructions, i ≠ .share true → (evalInstr i (completingState i)).1.isOk = true := by
  decide +kernel

end Sys2Proof.Machine

namespace Sys2Proof

open Machine

/-- Settles O21: a command raises only the conditions of its row, and each of them in that condition's state. -/
theorem reachableOutcomes : Obligations.ReachableOutcomes := by
  constructor
  · intro i e
    simp only [exists_exec_code_iff]
    constructor
    · intro he
      exact ⟨raisingState e, evalInstr_raisingState i (mem_instructions i) e he⟩
    · rintro ⟨s, hs⟩
      exact evalInstr_raisesOnly i s e hs
  · intro i hi
    have hok := evalInstr_completingState i (mem_instructions i) hi
    cases hfx : (evalInstr i (completingState i)).1 with
    | ok fx => exact ⟨completingState i, _, exec_of_eval_ok hfx, rfl⟩
    | error e => exact absurd hok (by rw [hfx]; nofun)

end Sys2Proof
